-- ==== Sys2Proof/Word.lean ====
section
/-! DEFINITION. The words of the Protocolos frame transceiver: every value of the block is an unsigned number of a
stated width (00_scope.md R10), and addition on a register wraps at its width (R12), as `BitVec` does. -/

namespace Sys2Proof

/-- One byte: the unit of the host bus, of the buffers and of the wire frame. -/
abbrev Byte := BitVec 8

/-- A value of the timebase NOW or of a deadline register (10_state.md R21, R22). -/
abbrev Time := BitVec 32

/-- A host bus address (00_scope.md R8, ADDR_W = 9). -/
abbrev Addr := BitVec 9

/-- A host bus transaction, bus_sel bit 18, bus_we bit 17, bus_addr bits 16:8, bus_wdata bits 7:0 (30_encoding.md R85). -/
abbrev BusWord := BitVec 19

end Sys2Proof
end

