-- ==== Sys2Proof/Config.lean ====
section
/-! DEFINITION. The parameters of an implementation. The fixed ones are 00_scope.md R7 and R8; the OPEN ones of R9
are opaque constants, so that a statement proved of the model holds for every value of them (log 2). They are
constants of the model, so instances joined by a link share them (DESIGN CHOICE; log 17). -/

namespace Sys2Proof.Config

/-- SYNC_STAGES, the number of synchronizer flip-flops on `rxd`: OPEN, 0 allowed (00_scope.md R9 (a)). -/
opaque syncStages : Nat

/-- BITPER_RESET, the reset value of BITPER: OPEN (00_scope.md R9 (b)). -/
opaque bitperReset : BitVec 24

/-- QUIET_RESET, the reset value of QUIET: OPEN (00_scope.md R9 (c)). -/
opaque quietReset : BitVec 32

/-- F_CLK, the clock frequency: OPEN, and no rule depends on it (00_scope.md R9 (d)). -/
opaque fClk : Nat

/-- MAX_PAYLOAD (00_scope.md R7). -/
def maxPayload : Nat := 63

/-- WIRE_MAX = MAX_PAYLOAD + 4 (00_scope.md R8). -/
def wireMax : Nat := 67

/-- P_MIN, the smallest effective bit period (00_scope.md R8). -/
def pMin : BitVec 24 := 2#24

/-- IBT_FACTOR, the inter-byte timeout in bit periods (00_scope.md R8). -/
def ibtFactor : Nat := 2

end Sys2Proof.Config
end

