-- ==== Sys2Proof/Syntax.lean ====
section
/-! DEFINITION. The operations of the block, one constructor per row of opcode_table.json. The block has no
instruction set; these operations take the place of instructions (00_scope.md R2).

A write to CTRL is one word that may set any of the command bits (30_encoding.md R86, "Any combination of bits 5:1 is
legal"), so several rows of the table match one word. Each such word is ONE term here: the constructor is the first of
TX_START, ENC_ONLY, RX_ACK, ERR_CLR, TXDONE_CLR whose bit is set, else RXON or RXOFF by bit 0, and it carries every
command bit that its name leaves open. The meaning of each is that of the whole command byte (44_host_bus.md R147), so
the order of the names decides nothing but the name (DESIGN CHOICE, safe; log 3). -/

namespace Sys2Proof

/-- The operations of opcode_table.json, in the table's order. -/
inductive Instr where
  /-- RD: bus read of address `a` (44_host_bus.md R145). -/
  | rd (a : Addr)
  /-- WR: bus write of `v` to address `a`, other than CTRL (44_host_bus.md R146). -/
  | wr (a : Addr) (v : Byte)
  /-- RXON: the CTRL byte with RX_EN = 1 and no command (44_host_bus.md R153). -/
  | rxon
  /-- RXOFF: the CTRL byte with RX_EN = 0 and no command (44_host_bus.md R153). -/
  | rxoff
  /-- TX_START: a CTRL byte with bit 1 = 1, and its bits 0, 2, 3, 4, 5 (44_host_bus.md R148). -/
  | txStart (rxEn encOnly rxAck errClr txDoneClr : Bool)
  /-- ENC_ONLY: a CTRL byte with bit 2 = 1 and bit 1 = 0, and its bits 0, 3, 4, 5 (44_host_bus.md R149). -/
  | encOnly (rxEn rxAck errClr txDoneClr : Bool)
  /-- RX_ACK: a CTRL byte with bit 3 = 1 and no encode command, and its bits 0, 4, 5 (44_host_bus.md R150). -/
  | rxAck (rxEn errClr txDoneClr : Bool)
  /-- ERR_CLR: a CTRL byte with bit 4 = 1 and none of bits 3:1, and its bits 0, 5 (44_host_bus.md R151). -/
  | errClr (rxEn txDoneClr : Bool)
  /-- TXDONE_CLR: a CTRL byte with bit 5 = 1 and none of bits 4:1, and its bit 0 (44_host_bus.md R152). -/
  | txDoneClr (rxEn : Bool)
  /-- Frame command 0, PING (43_dispatch.md R135). -/
  | cmd0Ping
  /-- Frame command 1, BURST (43_dispatch.md R136). -/
  | cmd1Burst
  /-- Frame command 2, DISPLAY (43_dispatch.md R137). -/
  | cmd2Display
  /-- Frame command 3, TEMP (43_dispatch.md R138). -/
  | cmd3Temp
  /-- Frame command 4, TOGGLE (43_dispatch.md R139). -/
  | cmd4Toggle
  /-- Frame command 5, SETFREQ (43_dispatch.md R140). -/
  | cmd5Setfreq
  /-- Frame command 6, STATS (43_dispatch.md R141). -/
  | cmd6Stats
  /-- Frame command 7, SAMPLES (43_dispatch.md R142). -/
  | cmd7Samples
  /-- Frame commands 8 to 15, unassigned: the command is 8 + `low` (43_dispatch.md R143). -/
  | cmdUnassigned (low : BitVec 3)
  deriving DecidableEq, Repr

end Sys2Proof
end

