-- ==== Sys2Proof/WellFormed.lean ====
section
/-! DEFINITION. Which terms of `Instr` stand for a word of their row. Every value of every field of a transaction is
legal (30_encoding.md R85), so the one check is the one the table itself makes: WR is a write to an address other than
CTRL (opcode_table.json row WR; 44_host_bus.md R146), since a write to 0x000 is the CTRL command byte (R147). -/

namespace Sys2Proof

/-- The bus address of CTRL (10_state.md R24). -/
def ctrlAddr : Addr := 0x000#9

/-- The check on one instruction: WR is not a write to CTRL. -/
def Instr.wellFormed : Instr → Bool
  | .rd _ => true
  | .wr a _ => a != ctrlAddr
  | .rxon => true
  | .rxoff => true
  | .txStart _ _ _ _ _ => true
  | .encOnly _ _ _ _ => true
  | .rxAck _ _ _ => true
  | .errClr _ _ => true
  | .txDoneClr _ => true
  | .cmd0Ping => true
  | .cmd1Burst => true
  | .cmd2Display => true
  | .cmd3Temp => true
  | .cmd4Toggle => true
  | .cmd5Setfreq => true
  | .cmd6Stats => true
  | .cmd7Samples => true
  | .cmdUnassigned _ => true

end Sys2Proof
end

