-- ==== Sys2Proof/Decode.lean ====
section
/-! DEFINITION. Decoding, total on any bytes, and after it the encoder. Two formats select an operation: a host bus
transaction of 19 bits (30_encoding.md R85), held here in three bytes, the low byte first, and header byte 0 of a wire
frame (R76). -/

namespace Sys2Proof

/-- Why bytes are no operation of the table. -/
inductive Reject where
  /-- bus_sel = 0: the cycle has no access, and the other fields are ignored (30_encoding.md R85). -/
  | noAccess
  /-- The third byte of a transaction has a bit above bit 18 of the transaction. -/
  | wideTransaction
  /-- Neither one byte (a header) nor three (a transaction). -/
  | badLength
  deriving DecidableEq, Repr

/-- The instruction of a CTRL command byte `v` (30_encoding.md R86). Bits 7:6 are ignored. -/
def decodeCtrl (v : Byte) : Instr :=
  if v[1] then .txStart (v[0]) (v[2]) (v[3]) (v[4]) (v[5])
  else if v[2] then .encOnly (v[0]) (v[3]) (v[4]) (v[5])
  else if v[3] then .rxAck (v[0]) (v[4]) (v[5])
  else if v[4] then .errClr (v[0]) (v[5])
  else if v[5] then .txDoneClr (v[0])
  else if v[0] then .rxon
  else .rxoff

/-- The instruction of a bus transaction (30_encoding.md R85, R86). -/
def decodeBus (w : BusWord) : Except Reject Instr :=
  if w[18] then
    if w[17] then
      if w.extractLsb' 8 9 = ctrlAddr then .ok (decodeCtrl (w.extractLsb' 0 8))
      else .ok (.wr (w.extractLsb' 8 9) (w.extractLsb' 0 8))
    else .ok (.rd (w.extractLsb' 8 9))
  else .error .noAccess

/-- The instruction of header byte 0: the command is bits 5:2, and bits 7:6 and 1:0 are ignored
(30_encoding.md R76, R87, R88 (a)). -/
def decodeHeader (b : Byte) : Instr :=
  match (b.extractLsb' 2 4).toNat with
  | 0 => .cmd0Ping
  | 1 => .cmd1Burst
  | 2 => .cmd2Display
  | 3 => .cmd3Temp
  | 4 => .cmd4Toggle
  | 5 => .cmd5Setfreq
  | 6 => .cmd6Stats
  | 7 => .cmd7Samples
  | _ => .cmdUnassigned (b.extractLsb' 2 3)

/-- The transaction that three bytes hold, the low byte first. -/
def busOfBytes (b0 b1 b2 : Byte) : BusWord := b0.setWidth 19 ||| (b1.setWidth 19 <<< 8) ||| (b2.setWidth 19 <<< 16)

/-- Decoding of any bytes: one byte is a header byte 0, three are a transaction. -/
def decode : List Byte → Except Reject Instr
  | [b] => .ok (decodeHeader b)
  | [b0, b1, b2] => if b2 &&& 0xF8#8 = 0x00#8 then decodeBus (busOfBytes b0 b1 b2) else .error .wideTransaction
  | _ => .error .badLength

/-- The bytes of a table word: one byte up to 8 bits, else three, and one more that refuses if the word is wider. -/
def tableBytes (nbits w : Nat) : List Byte :=
  if nbits ≤ 8 then [BitVec.ofNat 8 w]
  else [BitVec.ofNat 8 w, BitVec.ofNat 8 (w / 256), BitVec.ofNat 8 (w / 65536)]
    ++ (if w / 16777216 = 0 then [] else [BitVec.ofNat 8 (w / 16777216)])

/-- The instruction the decoder reads from a table word of `nbits` bits (opcode_table.json's numbering). -/
def decodeTableWord (nbits w : Nat) : Option Instr := (decode (tableBytes nbits w)).toOption

/-- The CTRL command byte with these bits, bits 7:6 zero (30_encoding.md R86). -/
def ctrlByte (rxEn txStart encOnly rxAck errClr txDoneClr : Bool) : Byte :=
  0#2 ++ BitVec.ofBool txDoneClr ++ BitVec.ofBool errClr ++ BitVec.ofBool rxAck ++ BitVec.ofBool encOnly
    ++ BitVec.ofBool txStart ++ BitVec.ofBool rxEn

/-- A transaction with bus_sel = 1 (30_encoding.md R85). -/
def busWord (we : Bool) (a : Addr) (v : Byte) : BusWord :=
  v.setWidth 19 ||| (a.setWidth 19 <<< 8) ||| ((BitVec.ofBool we).setWidth 19 <<< 17) ||| (1#19 <<< 18)

/-- The three bytes of a transaction, the low byte first, the five bits above bit 18 zero. -/
def busBytes (w : BusWord) : List Byte := [w.setWidth 8, (w >>> 8).setWidth 8, (w >>> 16).setWidth 8]

/-- The bytes of a CTRL write. -/
def ctrlBytes (v : Byte) : List Byte := busBytes (busWord true ctrlAddr v)

/-- Header byte 0 of command `c`, the reserved bits zero (30_encoding.md R76, R78). -/
def packCommand (c : BitVec 4) : Byte := c.setWidth 8 <<< 2

/-- Header byte 1 of length `n`, the reserved bits zero (30_encoding.md R77, R78). -/
def packLength (n : BitVec 7) : Byte := n.setWidth 8 <<< 1

/-- The bytes of an instruction, the ignored and the reserved bits zero (30_encoding.md R85-R88). -/
def encode : Instr → List Byte
  | .rd a => busBytes (busWord false a 0#8)
  | .wr a v => busBytes (busWord true a v)
  | .rxon => ctrlBytes (ctrlByte true false false false false false)
  | .rxoff => ctrlBytes (ctrlByte false false false false false false)
  | .txStart rxEn encOnly rxAck errClr txDoneClr => ctrlBytes (ctrlByte rxEn true encOnly rxAck errClr txDoneClr)
  | .encOnly rxEn rxAck errClr txDoneClr => ctrlBytes (ctrlByte rxEn false true rxAck errClr txDoneClr)
  | .rxAck rxEn errClr txDoneClr => ctrlBytes (ctrlByte rxEn false false true errClr txDoneClr)
  | .errClr rxEn txDoneClr => ctrlBytes (ctrlByte rxEn false false false true txDoneClr)
  | .txDoneClr rxEn => ctrlBytes (ctrlByte rxEn false false false false true)
  | .cmd0Ping => [packCommand 0#4]
  | .cmd1Burst => [packCommand 1#4]
  | .cmd2Display => [packCommand 2#4]
  | .cmd3Temp => [packCommand 3#4]
  | .cmd4Toggle => [packCommand 4#4]
  | .cmd5Setfreq => [packCommand 5#4]
  | .cmd6Stats => [packCommand 6#4]
  | .cmd7Samples => [packCommand 7#4]
  | .cmdUnassigned low => [packCommand (1#1 ++ low)]

end Sys2Proof
end

