-- ==== Sys2Proof/Machine/State.lean ====
section
/-! DEFINITION. The state of the block as plain data (10_state.md), the reasons a step can stop, and the state after
reset. -/

namespace Sys2Proof.Machine

/-- The transmitter phases (10_state.md R45, 41_transmitter.md R102). -/
inductive TxPhase where
  | txIdle | start | data | stop1 | stop2 | parity | guard
  deriving DecidableEq, Repr

/-- The receiver states (10_state.md R49, 30_encoding.md R89). -/
inductive RxPhase where
  | idle | receivingBits | verifyStop1 | verifyStop2 | verifyFrameParity | verifyFinalStop | recovery
  deriving DecidableEq, Repr

/-- The errors of 60_exceptions.md R155, in the order of their codes 0 to 7. -/
inductive ErrCode where
  | txTooLarge | rxFraming | rxLength | rxTimeout | rxParity | rxFinalStop | checksumMismatch | rxOverrun
  deriving DecidableEq, Repr

/-- The sync failures that abort a frame (60_exceptions.md R157). -/
inductive SyncFailure where
  | rxFraming | rxLength | rxTimeout | rxSync
  deriving DecidableEq, Repr

/-- An observable event of a cycle (00_scope.md R11 `emit`; 43_dispatch.md R131, 60_exceptions.md R157). -/
inductive Event where
  | dispatch (cmd : BitVec 4) (len : BitVec 7) (payload : List Byte) (valid : Bool)
  | syncError (e : SyncFailure)
  deriving DecidableEq, Repr

/-- The inputs of one cycle (10_state.md R18, 00_scope.md R16): `rst`, the bus transaction, `rxd`. -/
structure CycleInput where
  rst : Bool
  bus : BusWord
  rxd : Bool
  deriving DecidableEq, Repr

/-- The inputs of a quiet cycle: no reset, no access, the line at its idle level HIGH (00_scope.md R7). -/
def CycleInput.quiet : CycleInput := { rst := false, bus := 0#19, rxd := true }

/-- The host registers (10_state.md R25-R34). `CTRL` stores only RX_EN. -/
structure HostRegs where
  rxEn : Bool
  errFlags : Byte
  irqEn : BitVec 3
  txCmd : BitVec 4
  txLen : BitVec 7
  txWLen : BitVec 7
  bitPer : BitVec 24
  quiet : BitVec 32
  deriving DecidableEq, Repr

/-- The transmitter (10_state.md R45). -/
structure Tx where
  ph : TxPhase
  idx : BitVec 7
  bit : BitVec 3
  ones : BitVec 10
  n : BitVec 7
  p : BitVec 24
  dl : Time
  txd : Bool
  done : Bool
  deriving DecidableEq, Repr

/-- The receiver's working state (10_state.md R50). -/
structure Rx where
  st : RxPhase
  idx : BitVec 7
  bit : BitVec 4
  byte : Byte
  ones : BitVec 10
  len : BitVec 7
  pbit : Bool
  p : BitVec 24
  h : BitVec 23
  dl : Time
  qStart : Time
  q : BitVec 32
  deriving DecidableEq, Repr

/-- The holding registers delivered to the host, but for the bytes of RXPAYLOAD (10_state.md R51, R35-R38). -/
structure Hold where
  ready : Bool
  valid : Bool
  cmd : BitVec 4
  len : BitVec 6
  csrHi : Byte
  csrLo : Byte
  cscHi : Byte
  cscLo : Byte
  deriving DecidableEq, Repr

/-- The event registers EV_DISPATCH, EV_VALID, EV_SYNCERR (10_state.md R52). -/
structure EvRegs where
  dispatch : Bool
  valid : Bool
  syncErr : Bool
  deriving DecidableEq, Repr

/-- The state of one instance at the start of a cycle, with the inputs still to come.

`mem` holds the four byte buffers under their host addresses: rising addresses, no byte 0x00 listed, since an unlisted
byte reads its reset value 0x00 (10_state.md R40-R43, R54; log 8). `syncLow` is the synchronizer chain: the stages k of
SYNC[1..SYNC_STAGES] that hold 0, rising; the others hold 1, as all do at reset (R47; log 7). `inputs`, `busRdata` and
`emitted` are the model's own (logs 1 and 6). -/
structure State where
  now : Time
  host : HostRegs
  tx : Tx
  rx : Rx
  hold : Hold
  ev : EvRegs
  syncLow : List Nat
  mem : List Host.Cell
  inputs : List CycleInput
  busRdata : Byte
  emitted : List Event
  deriving DecidableEq, Repr

/-- The faults of a step: none. Every value of every transaction is legal, nothing in the block traps an encoding
(30_encoding.md R85, R88 (e)) and no error is fatal (60_exceptions.md R161). -/
inductive Fault where
  deriving DecidableEq, Repr

/-- The refusals of a step. -/
inductive Refusal where
  /-- An instruction without a meaning yet, by its mnemonic in opcode_table.json. Raised by arms of `exec` alone, and by
  none of them now. Safe: nothing is claimed of a refused instruction. -/
  | notModelled (mnemonic : String)
  deriving DecidableEq, Repr

/-- The outcome of a step or of one operation. -/
abbrev Outcome := Host.Outcome State Fault Refusal

/-- The machine right after reset (10_state.md R54, 70_reset_and_hazards.md R173), with no input listed (log 1). -/
def State.reset : State where
  now := 0#32
  host := { rxEn := false, errFlags := 0#8, irqEn := 0#3, txCmd := 0#4, txLen := 0#7, txWLen := 0#7,
            bitPer := Config.bitperReset, quiet := Config.quietReset }
  tx := { ph := .txIdle, idx := 0#7, bit := 0#3, ones := 0#10, n := 0#7, p := 0#24, dl := 0#32, txd := true,
          done := false }
  rx := { st := .idle, idx := 0#7, bit := 0#4, byte := 0#8, ones := 0#10, len := 0#7, pbit := false, p := 0#24,
          h := 0#23, dl := 0#32, qStart := 0#32, q := 0#32 }
  hold := { ready := false, valid := false, cmd := 0#4, len := 0#6, csrHi := 0#8, csrLo := 0#8, cscHi := 0#8,
            cscLo := 0#8 }
  ev := { dispatch := false, valid := false, syncErr := false }
  syncLow := []
  mem := []
  inputs := []
  busRdata := 0#8
  emitted := []

end Sys2Proof.Machine
end

