-- ==== Sys2Proof/Machine/Operands.lean ====
section
/-! DEFINITION. The operand forms: the bytes of wide registers, the effective and the half bit period, the header
fields, the bit counts of the codec, and the slots of a frame on the line. Nothing here reads or changes State. -/

namespace Sys2Proof.Machine

/-- Byte `k` of a register, the low byte first (20_memory.md R59). -/
def getByte {n : Nat} (r : BitVec n) (k : Nat) : Byte := r.extractLsb' (8 * k) 8

/-- A register with its byte `k` replaced (44_host_bus.md R146; 20_memory.md R59). -/
def setByte {n : Nat} (r : BitVec n) (k : Nat) (v : Byte) : BitVec n :=
  ((r >>> (8 * k + 8)) <<< (8 * k + 8)) ||| (v.setWidth n <<< (8 * k)) ||| (r.setWidth (8 * k)).setWidth n

/-- P_eff = max(BITPER, P_MIN) (10_state.md R33). -/
def effectivePeriod (bitPer : BitVec 24) : BitVec 24 := if bitPer < Config.pMin then Config.pMin else bitPer

/-- H = floor(P / 2) (10_state.md R50). -/
def halfPeriod (p : BitVec 24) : BitVec 23 := (p >>> 1).setWidth 23

/-- The deadline test (10_state.md R22). -/
def due (now d : Time) : Bool := decide ((now - d).toNat < 2 ^ 31)

/-- The number of 1 bits of a byte (40_codec.md R92). -/
def popcount8 (b : Byte) : Nat :=
  (b[0]).toNat + (b[1]).toNat + (b[2]).toNat + (b[3]).toNat
    + (b[4]).toNat + (b[5]).toNat + (b[6]).toNat + (b[7]).toNat

/-- The Hamming weight of a list of bytes (40_codec.md R92). -/
def bitWeight : List Byte → Nat
  | [] => 0
  | b :: bs => popcount8 b + bitWeight bs

/-- The checksum of a list of bytes, 16 bits (40_codec.md R93). -/
def checksum (bytes : List Byte) : BitVec 16 := BitVec.ofNat 16 (bitWeight bytes)

/-- The command of header byte 0, bits 5:2 (30_encoding.md R76, R78). -/
def headerCommand (b : Byte) : BitVec 4 := b.extractLsb' 2 4

/-- The received length of header byte 1, bits 7:1 (30_encoding.md R77, R78). -/
def headerLength (b : Byte) : BitVec 7 := b.extractLsb' 1 7

/-- The wire frame of a command, a length and the payload bytes (30_encoding.md R75; 40_codec.md R94). -/
def wireFrame (cmd : BitVec 4) (len : BitVec 7) (payload : List Byte) : List Byte :=
  let body := packCommand cmd :: packLength len :: payload
  body ++ [(checksum body).extractLsb' 8 8, (checksum body).extractLsb' 0 8]

/-- The state code of `rx_state` (30_encoding.md R89). -/
def RxPhase.code : RxPhase → BitVec 3
  | .idle => 0#3
  | .receivingBits => 1#3
  | .verifyStop1 => 2#3
  | .verifyStop2 => 3#3
  | .verifyFrameParity => 4#3
  | .verifyFinalStop => 5#3
  | .recovery => 6#3

/-- The eleven slots of a byte: start, eight data bits LSB first, two stops (30_encoding.md R81). -/
def byteSlots (b : Byte) : List Bool :=
  [false, b[0], b[1], b[2], b[3], b[4], b[5], b[6], b[7],
    true, true]

/-- The slots of the bytes of a frame (30_encoding.md R81). -/
def bytesSlots : List Byte → List Bool
  | [] => []
  | b :: bs => byteSlots b ++ bytesSlots bs

/-- The slots of a frame: its bytes, the frame parity bit, the guard (30_encoding.md R82). -/
def frameSlots (bytes : List Byte) : List Bool :=
  bytesSlots bytes ++ [decide (bitWeight bytes % 2 = 1), true]

end Sys2Proof.Machine
end

