-- ==== Sys2Proof/Machine/Flags.lean ====
section
/-! DEFINITION. The flags: the STATUS bits (10_state.md R26), the sticky ERRFLAGS bits (R27), and the outputs made of
them: `irq` (60_exceptions.md R164), `txd` and the event ports (R165). -/

namespace Sys2Proof.Machine

/-- The code of an error, its bit position in ERRFLAGS (60_exceptions.md R155). -/
def ErrCode.bit : ErrCode → Nat
  | .txTooLarge => 0
  | .rxFraming => 1
  | .rxLength => 2
  | .rxTimeout => 3
  | .rxParity => 4
  | .rxFinalStop => 5
  | .checksumMismatch => 6
  | .rxOverrun => 7

/-- ERRFLAGS with the bit of `e` set, the others kept (10_state.md R27). -/
def setErrBit (flags : Byte) (e : ErrCode) : Byte := flags ||| (1#8 <<< e.bit)

/-- Set the error flag of `e` (10_state.md R27). -/
def raiseFlag (e : ErrCode) (s : State) : State :=
  { s with host := { s.host with errFlags := setErrBit s.host.errFlags e } }

/-- Set the error flag of `e` where `c` holds. -/
def raiseFlagIf (c : Bool) (e : ErrCode) (s : State) : State := if c then raiseFlag e s else s

/-- STATUS.TX_BUSY (10_state.md R26). -/
def State.txBusy (s : State) : Bool := s.tx.ph != .txIdle

/-- STATUS.RX_RECOVERING (10_state.md R26). -/
def State.rxRecovering (s : State) : Bool := s.rx.st == .recovery

/-- STATUS.RX_ACTIVE: a frame is in flight (10_state.md R26). -/
def State.rxActive (s : State) : Bool :=
  match s.rx.st with
  | .receivingBits | .verifyStop1 | .verifyStop2 | .verifyFrameParity | .verifyFinalStop => true
  | .idle => s.rx.idx != 0#7
  | .recovery => false

/-- STATUS as a byte (10_state.md R26; 44_host_bus.md R145). -/
def State.status (s : State) : Byte :=
  0#2 ++ BitVec.ofBool s.tx.done ++ BitVec.ofBool s.rxRecovering ++ BitVec.ofBool s.rxActive
    ++ BitVec.ofBool s.hold.valid ++ BitVec.ofBool s.hold.ready ++ BitVec.ofBool s.txBusy

/-- The `irq` output (60_exceptions.md R164). -/
def State.irq (s : State) : Bool :=
  (s.host.irqEn[0] && s.hold.ready) || (s.host.irqEn[1] && s.host.errFlags != 0#8)
    || (s.host.irqEn[2] && s.tx.done)

/-- The `txd` output is the line driver register (41_transmitter.md R114). -/
def State.txdPort (s : State) : Bool := s.tx.txd

/-- The `ev_dispatch`, `ev_valid` and `ev_syncerr` outputs are the event registers (10_state.md R52). -/
def State.evPorts (s : State) : Bool × Bool × Bool := (s.ev.dispatch, s.ev.valid, s.ev.syncErr)

end Sys2Proof.Machine
end

