-- ==== Sys2Proof/Machine/Ops.lean ====
section
/-! DEFINITION. The named operations over the buffers, the register space and the engines' shared state: memory, bus
reads and writes, ENCODE and TXBEGIN, the header decode, VALIDATE, EXTRACT and DISPATCH, the entry to Line Recovery and
the return from it, and what a cycle does around the engines. -/

namespace Sys2Proof.Machine

/-! ### Memory: the four buffers -/

/-- The byte buffers (10_state.md R40-R43). -/
inductive Buffer where
  | txPayload | txWire | rxPayload | rxWire
  deriving DecidableEq, Repr

/-- The host address of a buffer's byte 0 (10_state.md R24). -/
def Buffer.base : Buffer → Nat
  | .txPayload => 0x040
  | .txWire => 0x080
  | .rxPayload => 0x100
  | .rxWire => 0x180

/-- The number of bytes of a buffer (10_state.md R24). -/
def Buffer.size : Buffer → Nat
  | .txPayload => 63
  | .txWire => 67
  | .rxPayload => 64
  | .rxWire => 67

/-- Address `a` lies in buffer `b`. -/
def Buffer.covers (b : Buffer) (a : Nat) : Bool := decide (b.base ≤ a) && decide (a < b.base + b.size)

/-- Address `a` lies in a buffer (10_state.md R24). -/
def isBufferAddr (a : Nat) : Bool :=
  Buffer.txPayload.covers a || Buffer.txWire.covers a || Buffer.rxPayload.covers a || Buffer.rxWire.covers a

/-- What a byte that is not listed reads as: the reset value of every buffer byte (10_state.md R54). -/
def unlistedByte : Byte := 0x00#8

/-- The byte at an address. -/
def memRead : List Host.Cell → Nat → Byte
  | [], _ => unlistedByte
  | c :: m, a => if c.1 = a then c.2 else memRead m a

/-- The memory with one byte written, in the canonical form. -/
def memWrite : List Host.Cell → Nat → Byte → List Host.Cell
  | [], a, v => if v = unlistedByte then [] else [(a, v)]
  | c :: m, a, v =>
    if a < c.1 then (if v = unlistedByte then c :: m else (a, v) :: c :: m)
    else if a = c.1 then (if v = unlistedByte then m else (a, v) :: m)
    else c :: memWrite m a v

/-- The memory with bytes written at rising addresses from `a`. -/
def memWriteBytes : List Host.Cell → Nat → List Byte → List Host.Cell
  | m, _, [] => m
  | m, a, v :: vs => memWriteBytes (memWrite m a v) (a + 1) vs

/-- The canonical form: rising addresses, each in a buffer, and no byte listed that an unlisted address reads as. -/
abbrev memWf (m : List Host.Cell) : Prop :=
  m.Pairwise (fun c d => c.1 < d.1) ∧ ∀ c ∈ m, c.2 ≠ unlistedByte ∧ isBufferAddr c.1 = true

/-- Byte `i` of a buffer. A buffer has no byte beyond its size; the rules never ask for one (42_receiver.md R123, 40_codec.md
R101), and such an index reads 0x00 (log 9). -/
def State.bufByte (s : State) (b : Buffer) (i : Nat) : Byte :=
  if i < b.size then memRead s.mem (b.base + i) else unlistedByte

/-- The bytes of a buffer. -/
def State.bufBytes (s : State) (b : Buffer) : List Byte := (List.range b.size).map (s.bufByte b)

/-- Write byte `i` of a buffer; an index beyond its size writes nothing (log 9). -/
def State.setBufByte (s : State) (b : Buffer) (i : Nat) (v : Byte) : State :=
  { s with mem := if i < b.size then memWrite s.mem (b.base + i) v else s.mem }

/-- Write a whole buffer: the bytes of `vs`, then 0x00 up to its size; bytes of `vs` beyond its size are dropped. -/
def State.fillBuf (s : State) (b : Buffer) (vs : List Byte) : State :=
  { s with mem := memWriteBytes s.mem b.base (vs.take b.size ++ List.replicate (b.size - vs.length) unlistedByte) }

/-! ### The host register space -/

/-- Read(S, a): the byte at a host address (10_state.md R24-R44; 44_host_bus.md R145). -/
def State.busRead (s : State) (a : Addr) : Byte :=
  match a.toNat with
  | 0x000 => 0#7 ++ BitVec.ofBool s.host.rxEn
  | 0x001 => s.status
  | 0x002 => s.host.errFlags
  | 0x003 => s.host.irqEn.setWidth 8
  | 0x004 => s.host.txCmd.setWidth 8
  | 0x005 => s.host.txLen.setWidth 8
  | 0x006 => s.host.txWLen.setWidth 8
  | 0x007 => s.rx.st.code.setWidth 8
  | 0x008 => getByte s.host.bitPer 0
  | 0x009 => getByte s.host.bitPer 1
  | 0x00A => getByte s.host.bitPer 2
  | 0x00C => getByte s.host.quiet 0
  | 0x00D => getByte s.host.quiet 1
  | 0x00E => getByte s.host.quiet 2
  | 0x00F => getByte s.host.quiet 3
  | 0x010 => s.hold.cmd.setWidth 8
  | 0x011 => s.hold.len.setWidth 8
  | 0x012 => s.hold.csrHi
  | 0x013 => s.hold.csrLo
  | 0x014 => s.hold.cscHi
  | 0x015 => s.hold.cscLo
  | 0x016 => s.rx.idx.setWidth 8
  | n => if isBufferAddr n then memRead s.mem n else 0x00#8

/-- A write of `v` to a host address other than CTRL (44_host_bus.md R146). A write to a read-only or a reserved address
has no effect. -/
def State.busWrite (s : State) (a : Addr) (v : Byte) : State :=
  match a.toNat with
  | 0x003 => { s with host := { s.host with irqEn := v.setWidth 3 } }
  | 0x004 => { s with host := { s.host with txCmd := v.setWidth 4 } }
  | 0x005 => { s with host := { s.host with txLen := v.setWidth 7 } }
  | 0x008 => { s with host := { s.host with bitPer := setByte s.host.bitPer 0 v } }
  | 0x009 => { s with host := { s.host with bitPer := setByte s.host.bitPer 1 v } }
  | 0x00A => { s with host := { s.host with bitPer := setByte s.host.bitPer 2 v } }
  | 0x00C => { s with host := { s.host with quiet := setByte s.host.quiet 0 v } }
  | 0x00D => { s with host := { s.host with quiet := setByte s.host.quiet 1 v } }
  | 0x00E => { s with host := { s.host with quiet := setByte s.host.quiet 2 v } }
  | 0x00F => { s with host := { s.host with quiet := setByte s.host.quiet 3 v } }
  | n => if Buffer.txPayload.covers n then { s with mem := memWrite s.mem n v } else s

/-! ### ENCODE and TXBEGIN -/

/-- The payload that ENCODE packs: TXPAYLOAD[0..L-1] (40_codec.md R94). -/
def State.txPayloadBytes (s : State) : List Byte := (s.bufBytes .txPayload).take s.host.txLen.toNat

/-- ENCODE fails: the length is above MAX_PAYLOAD (40_codec.md R94, R95). -/
def State.encodeFails (s : State) : Bool := decide (Config.maxPayload < s.host.txLen.toNat)

/-- ENCODE (40_codec.md R94, R95): TXWIRE and TXWLEN, or the flag TX_TOO_LARGE and nothing else. -/
def encodeFrame (s : State) : State :=
  if s.encodeFails then raiseFlag .txTooLarge s
  else
    let s1 := s.fillBuf .txWire (wireFrame s.host.txCmd s.host.txLen s.txPayloadBytes)
    { s1 with host := { s1.host with txWLen := s.host.txLen + 4#7 } }

/-- TXBEGIN: the start of a frame of TXWLEN bytes (41_transmitter.md R103). -/
def txBegin (s : State) : State :=
  { s with tx := { s.tx with
      n := s.host.txWLen
      p := effectivePeriod s.host.bitPer
      idx := 0#7
      bit := 0#3
      ones := 0#10
      ph := .start
      txd := false
      dl := s.now + (effectivePeriod s.host.bitPer).setWidth 32 } }

/-! ### The CTRL commands -/

/-- TX_START (44_host_bus.md R148). -/
def txStart (s : State) : State :=
  if s.txBusy then s else if s.encodeFails then encodeFrame s else txBegin (encodeFrame s)

/-- ENC_ONLY (44_host_bus.md R149). -/
def encOnly (s : State) : State := if s.txBusy then s else encodeFrame s

/-- RX_ACK (44_host_bus.md R150). -/
def rxAck (s : State) : State := { s with hold := { s.hold with ready := false } }

/-- ERR_CLR (44_host_bus.md R151). -/
def errClr (s : State) : State := { s with host := { s.host with errFlags := 0x00#8 } }

/-- TXDONE_CLR (44_host_bus.md R152). -/
def txDoneClr (s : State) : State := { s with tx := { s.tx with done := false } }

/-- RX_EN (44_host_bus.md R153). -/
def setRxEn (e : Bool) (s : State) : State := { s with host := { s.host with rxEn := e } }

/-- Run a command where its bit is set. -/
def runIf (c : Bool) (f : State → State) (s : State) : State := if c then f s else s

/-- WR CTRL: the command byte, in the fixed order RX_EN, ERR_CLR, TXDONE_CLR, RX_ACK, then TX_START or else ENC_ONLY
(44_host_bus.md R147). Bits 7:6 are ignored. -/
def ctrlWrite (v : Byte) (s : State) : State :=
  let s := setRxEn (v[0]) s
  let s := runIf (v[4]) errClr s
  let s := runIf (v[5]) txDoneClr s
  let s := runIf (v[3]) rxAck s
  let s := runIf (v[1]) txStart s
  runIf (v[2] && !v[1]) encOnly s

/-! ### Taking a receiver error, and the return from it -/

/-- ENTER_RECOVERY (60_exceptions.md R159). -/
def enterRecovery (s : State) : State :=
  { s with rx := { s.rx with st := .recovery, idx := 0#7, bit := 0#4, qStart := s.now, q := s.host.quiet } }

/-- The flag that ABORT sets: that of the failure, none for RxSync, whose flags VerifyFinalStop has set
(60_exceptions.md R157). -/
def abortFlag (e : SyncFailure) (s : State) : State :=
  match e with
  | .rxFraming => raiseFlag .rxFraming s
  | .rxLength => raiseFlag .rxLength s
  | .rxTimeout => raiseFlag .rxTimeout s
  | .rxSync => s

/-- ABORT: a sync failure is taken (60_exceptions.md R157): the flag, EV_SYNCERR, the event, the entry to Recovery. -/
def abortFrame (e : SyncFailure) (s : State) : State :=
  let s := abortFlag e s
  enterRecovery { s with ev := { s.ev with syncErr := true }, emitted := s.emitted ++ [.syncError e] }

/-- The Recovery poll, the one return from an error to Idle (60_exceptions.md R160, R161). -/
def recoveryPoll (line : Bool) (s : State) : State :=
  if line = false then { s with rx := { s.rx with qStart := s.now } }
  else if s.rx.q.toNat ≤ (s.now - s.rx.qStart).toNat then { s with rx := { s.rx with st := .idle } }
  else s

/-- The receiver becomes frame-idle: Idle with both indices 0 (42_receiver.md R117, R125). -/
def frameIdle (s : State) : State := { s with rx := { s.rx with st := .idle, idx := 0#7, bit := 0#4 } }

/-! ### VALIDATE, EXTRACT, DISPATCH -/

/-- The received checksum of the working frame (40_codec.md R97). -/
def State.receivedChecksum (s : State) : BitVec 16 :=
  s.bufByte .rxWire (s.rx.len.toNat + 2) ++ s.bufByte .rxWire (s.rx.len.toNat + 3)

/-- The checksum computed over the working frame (40_codec.md R97). -/
def State.computedChecksum (s : State) : BitVec 16 := checksum ((s.bufBytes .rxWire).take (s.rx.len.toNat + 2))

/-- The payload of the working frame, RXWIRE[2..L+1]. -/
def State.rxFramePayload (s : State) : List Byte := ((s.bufBytes .rxWire).drop 2).take s.rx.len.toNat

/-- VALIDATE: the two checksums agree (40_codec.md R97). -/
def State.frameValid (s : State) : Bool := s.receivedChecksum == s.computedChecksum

/-- EXTRACT: RXPAYLOAD is the payload, then 0x00 (40_codec.md R98). -/
def extractPayload (s : State) : State := s.fillBuf .rxPayload s.rxFramePayload

/-- DISPATCH of a frame with command `cmd` (43_dispatch.md R131). -/
def dispatchFrame (cmd : BitVec 4) (s : State) : State :=
  let s1 := raiseFlagIf (!s.frameValid) .checksumMismatch (raiseFlagIf s.hold.ready .rxOverrun (extractPayload s))
  { s1 with
    hold :=
      { ready := true
        valid := s.frameValid
        cmd := cmd
        len := s.rx.len.setWidth 6
        csrHi := s.receivedChecksum.extractLsb' 8 8
        csrLo := s.receivedChecksum.extractLsb' 0 8
        cscHi := s.computedChecksum.extractLsb' 8 8
        cscLo := s.computedChecksum.extractLsb' 0 8 }
    ev := { s1.ev with dispatch := true, valid := s.frameValid }
    emitted := s1.emitted ++ [.dispatch cmd s.rx.len s.rxFramePayload s.frameValid] }

/-- The delivery of a completed frame: VALIDATE, EXTRACT, DISPATCH, and then frame-idle Idle after a valid frame, or the
checksum-failure entry to Recovery (42_receiver.md R125; 60_exceptions.md R158). -/
def deliverFrame (cmd : BitVec 4) (s : State) : State :=
  if s.frameValid then frameIdle (dispatchFrame cmd s) else enterRecovery (dispatchFrame cmd s)

/-! ### The synchronizer and the cycle -/

/-- SYNC[k], for k in 1..SYNC_STAGES (10_state.md R47). -/
def State.syncStage (s : State) (k : Nat) : Bool := !s.syncLow.contains k

/-- The numbers of the stages that hold 0, the input itself counted as stage 0. -/
def lowStages (rxd : Bool) (low : List Nat) : List Nat := if rxd then low else 0 :: low

/-- The synchronized line of a cycle: SYNC[SYNC_STAGES], or `rxd` where SYNC_STAGES is 0 (10_state.md R47). -/
def State.line (s : State) (rxd : Bool) : Bool := !(lowStages rxd s.syncLow).contains Config.syncStages

/-- The chain after a shift: SYNC[1] from `rxd`, SYNC[k] from SYNC[k-1] (10_state.md R47). -/
def shiftSync (rxd : Bool) (low : List Nat) : List Nat :=
  ((lowStages rxd low).map (· + 1)).filter (· ≤ Config.syncStages)

/-- The inputs of this cycle: the first of the list, or those of a quiet cycle where none is listed (log 1). -/
def State.input (s : State) : CycleInput := s.inputs.headD .quiet

/-- A cycle begins: its inputs are taken, `bus_rdata` is 0x00 unless a read drives it (44_host_bus.md R145), and no event
has been emitted. -/
def beginCycle (s : State) : State := { s with inputs := s.inputs.tail, busRdata := 0x00#8, emitted := [] }

/-- EV_* are cleared before the receiver's step (10_state.md R52; 20_memory.md R67 step 4). -/
def clearEvents (s : State) : State := { s with ev := { dispatch := false, valid := false, syncErr := false } }

/-- The end of a cycle: the synchronizer shifts and NOW counts (20_memory.md R67 step 5). -/
def endCycle (rxd : Bool) (s : State) : State := { s with syncLow := shiftSync rxd s.syncLow, now := s.now + 1#32 }

/-- A reset cycle: every element at its reset value, and nothing else (20_memory.md R66). The inputs still to come are
the environment's and are kept. -/
def resetCycle (s : State) : State := { State.reset with inputs := s.inputs.tail }

/-! ### Placing an operation where the machine takes its next one (log 10) -/

/-- The state with transaction `w` as this cycle's access, not in reset, `rxd` as it was. -/
def placeTransaction (s : State) (w : BusWord) : State :=
  { s with inputs := { rst := false, bus := w, rxd := s.input.rxd } :: s.inputs.tail }

/-- The state in which the receiver is about to deliver the frame with header byte 0 `b`, no payload and a right
checksum: VerifyFinalStop, its sample due, the parity sampled right, the line HIGH, no bus access. -/
def placeFrame (s : State) (b : Byte) : State :=
  let frame := [b, 0x00#8, 0x00#8, BitVec.ofNat 8 (popcount8 b)]
  let s1 := s.fillBuf .rxWire frame
  { s1 with
    inputs := CycleInput.quiet :: s.inputs.tail
    syncLow := s.syncLow.filter (· ≠ Config.syncStages)
    host := { s.host with rxEn := true }
    rx := { s.rx with
      st := .verifyFinalStop
      idx := 4#7
      len := 0#7
      ones := BitVec.ofNat 10 (bitWeight frame)
      pbit := decide (bitWeight frame % 2 = 1)
      dl := s.now } }

end Sys2Proof.Machine
end

