-- ==== Sys2Proof/Machine/Bus.lean ====
section
/-! DEFINITION. The meanings of the two bus operations RD and WR (44_host_bus.md R145, R146). -/

namespace Sys2Proof.Machine

/-- RD: `bus_rdata` shows the byte at `a` of the state at the start of the cycle; no other effect (44_host_bus.md R145,
20_memory.md R63). -/
def execRd (a : Addr) (s : State) : Outcome := .next { s with busRdata := s.busRead a }

/-- WR: a write to a register other than CTRL (44_host_bus.md R146). The ill-formed WR to 0x000, which no word decodes
to, is what such a write is on the bus, the command byte (R147; log 4). -/
def execWr (a : Addr) (v : Byte) (s : State) : Outcome :=
  .next (if a = ctrlAddr then ctrlWrite v s else s.busWrite a v)

end Sys2Proof.Machine
end

