-- ==== Sys2Proof/Machine/Ctrl.lean ====
section
/-! DEFINITION. The meanings of the CTRL command bytes (44_host_bus.md R147-R153). Each is the write of its byte: the
commands that the byte sets run in the order of R147, and every one stores RX_EN (30_encoding.md R86). -/

namespace Sys2Proof.Machine

/-- RXON: RX_EN becomes 1 (44_host_bus.md R153). -/
def execRxon (s : State) : Outcome := .next (ctrlWrite (ctrlByte true false false false false false) s)

/-- RXOFF: RX_EN becomes 0 (44_host_bus.md R153). -/
def execRxoff (s : State) : Outcome := .next (ctrlWrite (ctrlByte false false false false false false) s)

/-- TX_START: encode and transmit, ignored while busy (44_host_bus.md R148). -/
def execTxStart (rxEn encOnly rxAck errClr txDoneClr : Bool) (s : State) : Outcome :=
  .next (ctrlWrite (ctrlByte rxEn true encOnly rxAck errClr txDoneClr) s)

/-- ENC_ONLY: encode without transmitting, ignored while busy (44_host_bus.md R149). -/
def execEncOnly (rxEn rxAck errClr txDoneClr : Bool) (s : State) : Outcome :=
  .next (ctrlWrite (ctrlByte rxEn false true rxAck errClr txDoneClr) s)

/-- RX_ACK: clear RX_READY (44_host_bus.md R150). -/
def execRxAck (rxEn errClr txDoneClr : Bool) (s : State) : Outcome :=
  .next (ctrlWrite (ctrlByte rxEn false false true errClr txDoneClr) s)

/-- ERR_CLR: clear ERRFLAGS (44_host_bus.md R151). -/
def execErrClr (rxEn txDoneClr : Bool) (s : State) : Outcome :=
  .next (ctrlWrite (ctrlByte rxEn false false false true txDoneClr) s)

/-- TXDONE_CLR: clear TX_DONE (44_host_bus.md R152). -/
def execTxDoneClr (rxEn : Bool) (s : State) : Outcome :=
  .next (ctrlWrite (ctrlByte rxEn false false false false true) s)

end Sys2Proof.Machine
end

