-- ==== Sys2Proof/Machine/Frame.lean ====
section
/-! DEFINITION. The meanings of the frame command codes (43_dispatch.md R135-R143). A command code is header byte 0 of a
frame; it acts on the block when the receiver delivers that frame, and for every code the block's own behaviour is the
same: R131, then the end of the frame (42_receiver.md R125). The block never interprets the code (30_encoding.md R87) and
checks no payload; what a host does with a command is outside the block (00_scope.md R6; log 5). -/

namespace Sys2Proof.Machine

/-- Command 0, PING: the frame in RXWIRE is delivered with that command (43_dispatch.md R135). -/
def execCmd0Ping (s : State) : Outcome := .next (deliverFrame 0#4 s)

/-- Command 1, BURST: the frame in RXWIRE is delivered with that command (43_dispatch.md R136). -/
def execCmd1Burst (s : State) : Outcome := .next (deliverFrame 1#4 s)

/-- Command 2, DISPLAY: the frame in RXWIRE is delivered with that command (43_dispatch.md R137). -/
def execCmd2Display (s : State) : Outcome := .next (deliverFrame 2#4 s)

/-- Command 3, TEMP: the frame in RXWIRE is delivered with that command (43_dispatch.md R138). -/
def execCmd3Temp (s : State) : Outcome := .next (deliverFrame 3#4 s)

/-- Command 4, TOGGLE: the frame in RXWIRE is delivered with that command (43_dispatch.md R139). -/
def execCmd4Toggle (s : State) : Outcome := .next (deliverFrame 4#4 s)

/-- Command 5, SETFREQ: the frame in RXWIRE is delivered with that command (43_dispatch.md R140). -/
def execCmd5Setfreq (s : State) : Outcome := .next (deliverFrame 5#4 s)

/-- Command 6, STATS: the frame in RXWIRE is delivered with that command (43_dispatch.md R141). -/
def execCmd6Stats (s : State) : Outcome := .next (deliverFrame 6#4 s)

/-- Command 7, SAMPLES: the frame in RXWIRE is delivered with that command (43_dispatch.md R142). -/
def execCmd7Samples (s : State) : Outcome := .next (deliverFrame 7#4 s)

/-- Commands 8 to 15, unassigned: delivered exactly as the others, with no error (43_dispatch.md R143). -/
def execCmdUnassigned (low : BitVec 3) (s : State) : Outcome := .next (deliverFrame (1#1 ++ low) s)

end Sys2Proof.Machine
end

