-- ==== Sys2Proof/Machine/Dispatch.lean ====
section
/-! DEFINITION. The dispatch: one arm per operation of opcode_table.json, each one call of its meaning. -/

namespace Sys2Proof.Machine

def exec (i : Instr) (s : State) : Host.Outcome State Fault Refusal :=
  match i with
  | .rd a => Sys2Proof.Machine.execRd a s
  | .wr a v => Sys2Proof.Machine.execWr a v s
  | .rxon => Sys2Proof.Machine.execRxon s
  | .rxoff => Sys2Proof.Machine.execRxoff s
  | .txStart rxEn encOnly rxAck errClr txDoneClr => Sys2Proof.Machine.execTxStart rxEn encOnly rxAck errClr txDoneClr s
  | .encOnly rxEn rxAck errClr txDoneClr => Sys2Proof.Machine.execEncOnly rxEn rxAck errClr txDoneClr s
  | .rxAck rxEn errClr txDoneClr => Sys2Proof.Machine.execRxAck rxEn errClr txDoneClr s
  | .errClr rxEn txDoneClr => Sys2Proof.Machine.execErrClr rxEn txDoneClr s
  | .txDoneClr rxEn => Sys2Proof.Machine.execTxDoneClr rxEn s
  | .cmd0Ping => Sys2Proof.Machine.execCmd0Ping s
  | .cmd1Burst => Sys2Proof.Machine.execCmd1Burst s
  | .cmd2Display => Sys2Proof.Machine.execCmd2Display s
  | .cmd3Temp => Sys2Proof.Machine.execCmd3Temp s
  | .cmd4Toggle => Sys2Proof.Machine.execCmd4Toggle s
  | .cmd5Setfreq => Sys2Proof.Machine.execCmd5Setfreq s
  | .cmd6Stats => Sys2Proof.Machine.execCmd6Stats s
  | .cmd7Samples => Sys2Proof.Machine.execCmd7Samples s
  | .cmdUnassigned low => Sys2Proof.Machine.execCmdUnassigned low s

end Sys2Proof.Machine
end

