-- ==== Sys2Proof/Machine/Receiver.lean ====
section
/-! DEFINITION. The bit-level receiver: RxStep, one poll per cycle (42_receiver.md R116-R125). A poll that accepts a
frame runs the operation of its header byte 0 (43_dispatch.md R131); every other poll is a change of state here. -/

namespace Sys2Proof.Machine

/-- The receiver's deadline is due in this cycle. -/
def State.rxDue (s : State) : Bool := due s.now s.rx.dl

/-- NOW + H + P, the centre of data bit 0 of a byte whose start edge is now (42_receiver.md R118, R119). -/
def firstSample (now : Time) (h : BitVec 23) (p : BitVec 24) : Time := now + h.setWidth 32 + p.setWidth 32

/-- Frame-idle Idle: a LOW line starts a frame (42_receiver.md R118). -/
def rxFrameIdle (line : Bool) (s : State) : State :=
  if line = false then
    let p := effectivePeriod s.host.bitPer
    let s1 := s.fillBuf .rxWire []
    { s1 with rx := { s.rx with
        p := p
        h := halfPeriod p
        ones := 0#10
        len := 0#7
        pbit := false
        bit := 0#4
        byte := 0#8
        dl := firstSample s.now (halfPeriod p) p
        st := .receivingBits } }
  else s

/-- Inter-byte Idle: the next start edge, or the timeout, the edge first (42_receiver.md R119; 60_exceptions.md
R162 (c)). -/
def rxByteIdle (line : Bool) (s : State) : State :=
  if line = false then
    { s with rx := { s.rx with
        bit := 0#4
        byte := 0#8
        dl := firstSample s.now s.rx.h s.rx.p
        st := .receivingBits } }
  else if s.rxDue then abortFrame .rxTimeout s
  else s

/-- A byte with bit `k` replaced by the sample; there is no bit above 7 (42_receiver.md R120; log 9). -/
def setSample (b : Byte) (k : Nat) (line : Bool) : Byte :=
  (b &&& ~~~(1#8 <<< k)) ||| (BitVec.setWidth 8 (BitVec.ofBool line) <<< k)

/-- ReceivingBits: the bit-centre sampler (42_receiver.md R120). -/
def rxReceivingBits (line : Bool) (s : State) : State :=
  if s.rxDue then
    { s with rx := { s.rx with
        byte := setSample s.rx.byte s.rx.bit.toNat line
        bit := s.rx.bit + 1#4
        dl := s.now + s.rx.p.setWidth 32
        st := if s.rx.bit + 1#4 = 8#4 then .verifyStop1 else .receivingBits } }
  else s

/-- VerifyStop1 (42_receiver.md R121). -/
def rxVerifyStop1 (line : Bool) (s : State) : State :=
  if s.rxDue then
    if line = false then abortFrame .rxFraming s
    else { s with rx := { s.rx with dl := s.now + s.rx.p.setWidth 32, st := .verifyStop2 } }
  else s

/-- HDRDECODE without its error: RX_LEN is the length of RXWIRE[1] (40_codec.md R96). -/
def hdrDecode (s : State) : State := { s with rx := { s.rx with len := headerLength (s.bufByte .rxWire 1) } }

/-- After a byte is stored: the parity slot follows the last byte, else the next byte's start edge is awaited for
IBT_FACTOR bit periods (42_receiver.md R123). -/
def commitNext (s : State) : State :=
  if 3 ≤ s.rx.idx.toNat ∧ s.rx.idx.toNat = s.rx.len.toNat + 4 then
    { s with rx := { s.rx with dl := s.now + s.rx.p.setWidth 32, st := .verifyFrameParity } }
  else
    { s with rx := { s.rx with
        dl := s.now + BitVec.ofNat 32 Config.ibtFactor * s.rx.p.setWidth 32
        st := .idle } }

/-- The byte is stored in RXWIRE, its bits counted, the index raised (42_receiver.md R123). -/
def commitStore (s : State) : State :=
  let s1 := s.setBufByte .rxWire s.rx.idx.toNat s.rx.byte
  { s1 with rx := { s.rx with
      ones := s.rx.ones + BitVec.ofNat 10 (popcount8 s.rx.byte)
      idx := s.rx.idx + 1#7 } }

/-- COMMIT: the byte commit, with the header decode at the second byte (42_receiver.md R123; 40_codec.md R96). -/
def commitByte (s : State) : State :=
  let s1 := commitStore s
  if s1.rx.idx = 2#7 then
    let s2 := hdrDecode s1
    if Config.maxPayload < s2.rx.len.toNat then abortFrame .rxLength s2 else commitNext s2
  else commitNext s1

/-- VerifyStop2 (42_receiver.md R122). -/
def rxVerifyStop2 (line : Bool) (s : State) : State :=
  if s.rxDue then if line = false then abortFrame .rxFraming s else commitByte s
  else s

/-- VerifyFrameParity: the parity sample (42_receiver.md R124). -/
def rxVerifyFrameParity (line : Bool) (s : State) : State :=
  if s.rxDue then
    { s with rx := { s.rx with pbit := line, dl := s.now + s.rx.p.setWidth 32, st := .verifyFinalStop } }
  else s

/-- The sampled parity is that of the counted bits (42_receiver.md R125). -/
def State.parityOk (s : State) : Bool := s.rx.pbit == s.rx.ones[0]

/-- The failing half of VerifyFinalStop: both flags that apply, one abort (42_receiver.md R125). Where both checks pass
this changes nothing, since the poll then delivers the frame (`rxStep`). -/
def rxVerifyFinalStop (line : Bool) (s : State) : State :=
  if s.rxDue then
    if line && s.parityOk then s
    else abortFrame .rxSync (raiseFlagIf (!s.parityOk) .rxParity (raiseFlagIf (!line) .rxFinalStop s))
  else s

/-- RXHOLD: the receiver disabled is held frame-idle, silently (42_receiver.md R117). -/
def rxHold (s : State) : State := frameIdle s

/-- The poll by state, but for the delivery of an accepted frame (42_receiver.md R116, R117). -/
def rxPoll (line : Bool) (s : State) : State :=
  if s.host.rxEn = false then rxHold s
  else
    match s.rx.st with
    | .idle => if s.rx.idx = 0#7 then rxFrameIdle line s else rxByteIdle line s
    | .receivingBits => rxReceivingBits line s
    | .verifyStop1 => rxVerifyStop1 line s
    | .verifyStop2 => rxVerifyStop2 line s
    | .verifyFrameParity => rxVerifyFrameParity line s
    | .verifyFinalStop => rxVerifyFinalStop line s
    | .recovery => recoveryPoll line s

/-- This poll accepts a frame: the final stop sample is due and HIGH, and the parity is right (42_receiver.md R125). -/
def frameAccepted (line : Bool) (s : State) : Bool :=
  s.host.rxEn && s.rx.st == .verifyFinalStop && s.rxDue && line && s.parityOk

/-- RxStep (42_receiver.md R116; 20_memory.md R67 step 4): an accepted frame runs the operation of its header byte 0. -/
def rxStep (line : Bool) (s : State) : Outcome :=
  if frameAccepted line s then exec (decodeHeader (s.bufByte .rxWire 0)) s else .next (rxPoll line s)

end Sys2Proof.Machine
end

