-- ==== Sys2Proof/Machine/Transmitter.lean ====
section
/-! DEFINITION. The bit-level transmitter: TxStep, one slot sequencer step per cycle (41_transmitter.md R102-R111). -/

namespace Sys2Proof.Machine

/-- The byte being sent, TXWIRE[TX_IDX]. -/
def State.txByte (s : State) : Byte := s.bufByte .txWire s.tx.idx.toNat

/-- Put a data bit on the line and count it (41_transmitter.md R105, R106). -/
def txDrive (v : Bool) (t : Tx) : Tx := { t with txd := v, ones := t.ones + BitVec.ofNat 10 v.toNat }

/-- Start to data bit 0 (41_transmitter.md R105). -/
def txFromStart (b : Byte) (t : Tx) : Tx := { txDrive (b[0]) t with bit := 0#3, ph := .data }

/-- Data bit b to data bit b + 1 (41_transmitter.md R106), or data bit 7 to stop 1 (R107). -/
def txFromData (b : Byte) (t : Tx) : Tx :=
  if t.bit.toNat < 7 then { txDrive (b.getLsbD (t.bit.toNat + 1)) t with bit := t.bit + 1#3 }
  else { t with txd := true, ph := .stop1 }

/-- Stop 1 to stop 2 (41_transmitter.md R108). -/
def txFromStop1 (t : Tx) : Tx := { t with txd := true, ph := .stop2 }

/-- Stop 2 to the next byte's start bit, or to the frame parity bit (41_transmitter.md R109). -/
def txFromStop2 (t : Tx) : Tx :=
  if t.idx.toNat + 1 < t.n.toNat then { t with idx := t.idx + 1#7, txd := false, ph := .start }
  else { t with txd := t.ones[0], ph := .parity }

/-- Parity to guard (41_transmitter.md R110). -/
def txFromParity (t : Tx) : Tx := { t with txd := true, ph := .guard }

/-- Guard to TxIdle: the frame is done (41_transmitter.md R111). -/
def txFromGuard (t : Tx) : Tx := { t with txd := true, ph := .txIdle, done := true }

/-- The transition at the end of a slot, by phase (41_transmitter.md R104). -/
def txNextSlot (b : Byte) (t : Tx) : Tx :=
  match t.ph with
  | .txIdle => t
  | .start => txFromStart b t
  | .data => txFromData b t
  | .stop1 => txFromStop1 t
  | .stop2 => txFromStop2 t
  | .parity => txFromParity t
  | .guard => txFromGuard t

/-- The deadline moves on by TX_P from the old deadline, but for the end of the frame (41_transmitter.md R104, R111). -/
def txAdvanceDeadline (t : Tx) : Tx := if t.ph = .txIdle then t else { t with dl := t.dl + t.p.setWidth 32 }

/-- The transmitter after a cycle's step: it holds its slot until the deadline is due (41_transmitter.md R104). -/
def txAdvance (s : State) : Tx :=
  if s.tx.ph = .txIdle then s.tx
  else if due s.now s.tx.dl then txAdvanceDeadline (txNextSlot s.txByte s.tx)
  else s.tx

/-- TxStep (41_transmitter.md R104; 20_memory.md R67 step 3). -/
def txStep (s : State) : State := { s with tx := txAdvance s }

end Sys2Proof.Machine
end

