-- ==== Sys2Proof/Machine/Cycle.lean ====
section
/-! DEFINITION. The parts of a cycle that `step` composes (20_memory.md R67). -/

namespace Sys2Proof.Machine

/-- The outcome of `f` on the next state, where there is one. -/
def andThen (o : Outcome) (f : State → Outcome) : Outcome :=
  match o with
  | .next s => f s
  | .fault r => .fault r
  | .refused r => .refused r

/-- Steps 1 and 2: the host's access, an operation where bus_sel = 1, nothing where bus_sel = 0 (20_memory.md R67;
30_encoding.md R85). -/
def busPhase (w : BusWord) (s : State) : Outcome :=
  match decodeBus w with
  | .ok i => exec i s
  | .error _ => .next s

/-- Steps 3 to 5: TxStep, the events cleared, RxStep, the end of the cycle (20_memory.md R67). -/
def enginePhase (line rxd : Bool) (s : State) : Outcome :=
  andThen (rxStep line (clearEvents (txStep s))) (fun t => .next (endCycle rxd t))

/-- A non-reset cycle (20_memory.md R67). `line` is taken from the synchronizer of the start of the cycle. -/
def runCycle (i : CycleInput) (s : State) : Outcome :=
  andThen (busPhase i.bus (beginCycle s)) (enginePhase (s.line i.rxd) i.rxd)

/-- One clock cycle: a reset cycle (20_memory.md R66) or a non-reset cycle (R67). -/
def cycle (i : CycleInput) (s : State) : Outcome := if i.rst then .next (resetCycle s) else runCycle i s

end Sys2Proof.Machine
end

