-- ==== Sys2Proof/Machine/Step.lean ====
section
/-! DEFINITION. The step: one clock cycle with the inputs that State lists for it (00_scope.md R13, R16). -/

namespace Sys2Proof.Machine

/-- One cycle of the block (20_memory.md R66, R67). -/
def step (s : State) : Host.Outcome State Fault Refusal := cycle s.input s

/-- The state whose next step runs the operation of a table word: a transaction is placed as this cycle's access, a
header byte as byte 0 of the frame the receiver is about to deliver (log 10). -/
def State.withFetchWord (s : State) (nbits w : Nat) : State :=
  if nbits ≤ 8 then placeFrame s (BitVec.ofNat 8 w) else placeTransaction s (BitVec.ofNat 19 w)

end Sys2Proof.Machine
end

