-- ==== Sys2Proof/Safety.lean ====
section
/-! DEFINITION. What a legal state of the block is, in the terms the statements use: the bounds and the meanings that
the rules give the state elements, each part an invariant that every cycle keeps. -/

namespace Sys2Proof.Machine

/-- Every stage of the chain that is listed exists, and the list is rising (10_state.md R47; log 7). -/
def SyncLegal (s : State) : Prop :=
  s.syncLow.Pairwise (· < ·) ∧ ∀ k ∈ s.syncLow, 1 ≤ k ∧ k ≤ Config.syncStages

/-- The wire bytes of the frame in flight: TXWIRE[0..TX_N-1] (41_transmitter.md R115). -/
def State.txFrame (s : State) : List Byte := (s.bufBytes .txWire).take s.tx.n.toNat

/-- The position of the current slot in the frame (30_encoding.md R81, R82). -/
def State.txSlot (s : State) : Nat :=
  match s.tx.ph with
  | .txIdle => 0
  | .start => 11 * s.tx.idx.toNat
  | .data => 11 * s.tx.idx.toNat + 1 + s.tx.bit.toNat
  | .stop1 => 11 * s.tx.idx.toNat + 9
  | .stop2 => 11 * s.tx.idx.toNat + 10
  | .parity => 11 * s.tx.n.toNat
  | .guard => 11 * s.tx.n.toNat + 1

/-- The number of the current byte's data bits that have been put on the line. -/
def State.txBitsSent (s : State) : Nat :=
  match s.tx.ph with
  | .txIdle => 0
  | .start => 0
  | .data => s.tx.bit.toNat + 1
  | .stop1 | .stop2 | .parity | .guard => 8

/-- The number of 1 bits among the first `k` bits of a byte. -/
def weightBelow (b : Byte) (k : Nat) : Nat := ((List.range k).map fun i => (b.getLsbD i).toNat).sum

/-- A legal transmitter (10_state.md R45, R46; 41_transmitter.md R102, R109). Idle drives HIGH. In a frame: the wire
length is that of the last encode, the byte index is inside it, the period is at least 2, the deadline is less than one
period ahead, the line holds the value of the current slot, and TX_ONES counts the data bits driven so far. -/
def TxLegal (s : State) : Prop :=
  (s.tx.ph = .txIdle → s.tx.txd = true) ∧
  (s.tx.ph ≠ .txIdle →
    4 ≤ s.tx.n.toNat ∧ s.tx.n.toNat ≤ Config.wireMax ∧ s.tx.n = s.host.txWLen ∧ s.tx.idx.toNat < s.tx.n.toNat ∧
    (s.tx.ph = .parity ∨ s.tx.ph = .guard → s.tx.idx.toNat + 1 = s.tx.n.toNat) ∧
    2 ≤ s.tx.p.toNat ∧ (s.tx.dl - s.now).toNat < s.tx.p.toNat ∧
    s.tx.txd = (frameSlots s.txFrame).getD s.txSlot true ∧
    s.tx.ones.toNat = bitWeight (s.txFrame.take s.tx.idx.toNat)
      + weightBelow (s.bufByte .txWire s.tx.idx.toNat) s.txBitsSent)

/-- A frame is in flight in the receiver, its start edge seen (10_state.md R26 RX_ACTIVE). -/
def InFlight (s : State) : Prop := s.rxActive = true

/-- The deadline of the receiver's state is ahead by less than `k` cycles. -/
def RxDeadlineWithin (s : State) (k : Nat) : Prop := (s.rx.dl - s.now).toNat < k

/-- A legal receiver (10_state.md R50; 42_receiver.md R119-R125; 40_codec.md R96, R101). -/
def RxLegal (s : State) : Prop :=
  (s.rx.st = .recovery → s.rx.idx = 0#7) ∧
  (s.rx.st = .receivingBits → s.rx.bit.toNat < 8) ∧
  (s.rx.st = .verifyFrameParity ∨ s.rx.st = .verifyFinalStop → s.rx.idx.toNat = s.rx.len.toNat + 4) ∧
  (s.rx.st = .idle ∨ s.rx.st = .receivingBits ∨ s.rx.st = .verifyStop1 ∨ s.rx.st = .verifyStop2 →
    s.rx.idx.toNat < 2 ∨ s.rx.idx.toNat < s.rx.len.toNat + 4) ∧
  (InFlight s →
    (2 ≤ s.rx.idx.toNat →
      s.rx.len.toNat ≤ Config.maxPayload ∧ s.rx.len = headerLength (s.bufByte .rxWire 1)) ∧
    2 ≤ s.rx.p.toNat ∧ s.rx.h = halfPeriod s.rx.p ∧
    s.rx.ones.toNat = bitWeight ((s.bufBytes .rxWire).take s.rx.idx.toNat) ∧
    (s.rx.st = .idle → RxDeadlineWithin s (2 * s.rx.p.toNat)) ∧
    (s.rx.st ≠ .idle → RxDeadlineWithin s (s.rx.h.toNat + s.rx.p.toNat)))

/-- The checksum of the held frame as received, and as computed (10_state.md R37, R38). -/
def Hold.csr (h : Hold) : BitVec 16 := h.csrHi ++ h.csrLo
/-- The checksum of the held frame as computed (10_state.md R38). -/
def Hold.csc (h : Hold) : BitVec 16 := h.cscHi ++ h.cscLo

/-- Legal holding registers: RXPAYLOAD is 0x00 from the terminator RXPAYLOAD[RXLEN] on (10_state.md R42), the computed
checksum is at most 520 (30_encoding.md R79), RX_VALID says that the checksums agree (R26, 40_codec.md R97). -/
def HoldLegal (s : State) : Prop :=
  (∀ i, s.hold.len.toNat ≤ i → s.bufByte .rxPayload i = 0x00#8) ∧
  s.hold.csc.toNat ≤ 520 ∧
  (s.hold.valid = true → s.hold.csr = s.hold.csc) ∧
  (s.hold.ready = true → s.hold.csr = s.hold.csc → s.hold.valid = true)

/-- A legal state. -/
def Legal (s : State) : Prop := memWf s.mem ∧ SyncLegal s ∧ TxLegal s ∧ RxLegal s ∧ HoldLegal s

/-- The command code of a frame command (30_encoding.md R87). -/
def frameCode : Instr → Option (BitVec 4)
  | .cmd0Ping => some 0#4
  | .cmd1Burst => some 1#4
  | .cmd2Display => some 2#4
  | .cmd3Temp => some 3#4
  | .cmd4Toggle => some 4#4
  | .cmd5Setfreq => some 5#4
  | .cmd6Stats => some 6#4
  | .cmd7Samples => some 7#4
  | .cmdUnassigned low => some (8#4 + low.setWidth 4)
  | .rd _ | .wr _ _ | .rxon | .rxoff | .txStart _ _ _ _ _ | .encOnly _ _ _ _ | .rxAck _ _ _ | .errClr _ _
  | .txDoneClr _ => none

/-- The payload a frame carries: bytes 2 to L + 1. -/
def payloadOf (bytes : List Byte) (len : Nat) : List Byte := (bytes.drop 2).take len

/-- The inputs of the next `k` cycles hold no reset cycle. -/
def NoReset (s : State) (k : Nat) : Prop := ∀ i ∈ s.inputs.take k, i.rst = false

/-- The levels of a frame on the line, each slot held for `p` cycles (30_encoding.md R81, R82; 41_transmitter.md R112). -/
def frameLevels (bytes : List Byte) (p : Nat) : List Bool := (frameSlots bytes).flatMap (List.replicate p)

/-- The inputs of consecutive cycles without reset and without access, `rxd` at these levels. -/
def lineInputs (levels : List Bool) : List CycleInput := levels.map fun v => { rst := false, bus := 0#19, rxd := v }

end Sys2Proof.Machine
end

