-- ==== Sys2Proof/Certificates/Slice0/Obligations.lean ====
section
/-! DEFINITION. The statements about the model, from the numbered rules of the spec. A statement about an operation says
that it answers a next state, what that state holds, and what it leaves unchanged; `memRead` is the model's read of one
byte of the buffers. -/

open Sys2Proof Sys2Proof.Machine

/-! ### Encoding -/

/-- Words written out from the spec's encodings decode to the operations they stand for; the name under which a CTRL byte
of several commands decodes (0x13, 0x09, 0x11) is the model's choice (log 3): 30_encoding.md R85 (bus_sel bit
18, bus_we bit 17, bus_addr 16:8, bus_wdata 7:0), R86 (the CTRL byte), R87 (header byte 0 of codes 3, 7 and 15). -/
def Obligations.SampleWordsDecodeAsSpecified : Prop :=
  decode [0b00000000#8, 0b00000001#8, 0b00000100#8] = .ok (.rd 0x001#9) ∧
  decode [0b11111111#8, 0b11000010#8, 0b00000101#8] = .ok (.rd 0x1C2#9) ∧
  decode [0b01000000#8, 0b00000101#8, 0b00000110#8] = .ok (.wr 0x005#9 0x40#8) ∧
  decode [0b00000001#8, 0b00000000#8, 0b00000110#8] = .ok .rxon ∧
  decode [0b00000000#8, 0b00000000#8, 0b00000110#8] = .ok .rxoff ∧
  decode [0b00010011#8, 0b00000000#8, 0b00000110#8] = .ok (.txStart true false false true false) ∧
  decode [0b00000100#8, 0b00000000#8, 0b00000110#8] = .ok (.encOnly false false false false) ∧
  decode [0b00001001#8, 0b00000000#8, 0b00000110#8] = .ok (.rxAck true false false) ∧
  decode [0b00010001#8, 0b00000000#8, 0b00000110#8] = .ok (.errClr true false) ∧
  decode [0b00100000#8, 0b00000000#8, 0b00000110#8] = .ok (.txDoneClr false) ∧
  decode [0b11111111#8, 0b11111111#8, 0b00000011#8] = .error .noAccess ∧
  decode [0b00001100#8] = .ok .cmd3Temp ∧
  decode [0b00011100#8] = .ok .cmd7Samples ∧
  decode [0b00111100#8] = .ok (.cmdUnassigned 7#3)

/-- Decoding the encoding of any well-formed operation gives it back, with every operand (30_encoding.md R75-R88). -/
def Obligations.DecodeOfEncodeIsIdentity : Prop :=
  ∀ i : Instr, i.wellFormed = true → decode (encode i) = .ok i

/-- Every transaction with bus_sel = 1 is a well-formed operation, whose encoding is the transaction with its ignored bits
zero: bus_wdata of a read, bits 7:6 of a CTRL byte; with bus_sel = 0 there is no access (30_encoding.md R85, R86). Which
name a combined CTRL byte bears, and the zeros, are the model's choice (logs 3, 15). -/
def Obligations.EveryTransactionIsLegal : Prop :=
  ∀ w : BusWord,
    (w[18] = false → decodeBus w = .error .noAccess) ∧
    (w[18] = true → ∃ i, decodeBus w = .ok i ∧ i.wellFormed = true ∧
      encode i = busBytes
        (if w[17] = false then w &&& 0x7FF00#19
          else if w.extractLsb' 8 9 = 0#9 then w &&& 0x7FF3F#19 else w))

/-- The command of a frame operation is bits 5:2 of its header byte, and its encoding is the header byte with the
reserved bits 7:6 and 1:0 zero (30_encoding.md R76, R87, R88 (a)). -/
def Obligations.HeaderByteDecodesByCommandField : Prop :=
  ∀ b : Byte, ∃ i, decode [b] = .ok i ∧ frameCode i = some (b.extractLsb' 2 4) ∧ encode i = [b &&& 0x3C#8]

/-! ### The step -/

/-- A cycle that is not a reset cycle and whose transaction decodes to an operation runs exactly that operation on the
state at the start of the cycle, then TxStep, RxStep and the end of the cycle; with no access it runs the latter alone
(20_memory.md R67). -/
def Obligations.StepRunsDecodedTransaction : Prop :=
  ∀ s : State, s.input.rst = false →
    (∀ i, decodeBus s.input.bus = .ok i →
      step s = andThen (exec i (beginCycle s)) (enginePhase (s.line s.input.rxd) s.input.rxd)) ∧
    (s.input.bus[18] = false →
      step s = enginePhase (s.line s.input.rxd) s.input.rxd (beginCycle s))

/-- A poll that accepts a frame runs the operation that header byte 0, RXWIRE[0], decodes to, and then the cycle ends. The
poll runs on the state after the host's access of the cycle, where there is one (42_receiver.md R125; 43_dispatch.md
R131; 20_memory.md R67). That the command code is the operation of that poll is the model's reading (log 5). -/
def Obligations.StepRunsReceivedCommand : Prop :=
  ∀ (s u : State) (i : Instr), s.input.rst = false →
    (s.input.bus[18] = false ∧ u = beginCycle s) ∨
      (∃ j, decodeBus s.input.bus = .ok j ∧ exec j (beginCycle s) = .next u) →
    frameAccepted (s.line s.input.rxd) (clearEvents (txStep u)) = true →
    decode [s.bufByte .rxWire 0] = .ok i →
    step s = andThen (exec i (clearEvents (txStep u))) (fun t => .next (endCycle s.input.rxd t))

/-- A cycle with a read is the same cycle without an access, but that `bus_rdata` shows the byte of the state at the start
of the cycle; bus_wdata is ignored (20_memory.md R63; 44_host_bus.md R145; 30_encoding.md R85). The field `busRdata` is
the model's record of the port (log 6). -/
def Obligations.ReadCycleDiffersOnlyInReadData : Prop :=
  ∀ (s : State) (a : Addr) (v : Byte) (rxd : Bool) (rest : List CycleInput), ∃ t,
    step { s with inputs := { rst := false, bus := 0#19, rxd := rxd } :: rest } = .next t ∧
    t.busRdata = 0x00#8 ∧
    step { s with inputs := { rst := false, bus := busWord false a v, rxd := rxd } :: rest }
      = .next { t with busRdata := s.busRead a }

/-! ### Reset -/

/-- After reset every host address reads 0x00, but BITPER and QUIET, which hold their OPEN reset values; `txd` is 1, every
synchronizer stage is 1, `irq` and the events are 0, NOW is 0, the engines are idle (10_state.md R54,
70_reset_and_hazards.md R173, R174). -/
def Obligations.ResetStateHoldsSpecifiedValues : Prop :=
  (∀ a : Addr, ¬ (0x008#9 ≤ a ∧ a ≤ 0x00A#9) → ¬ (0x00C#9 ≤ a ∧ a ≤ 0x00F#9) → State.reset.busRead a = 0x00#8) ∧
  State.reset.host.bitPer = Config.bitperReset ∧ State.reset.host.quiet = Config.quietReset ∧
  State.reset.txdPort = true ∧ (∀ k, State.reset.syncStage k = true) ∧ State.reset.irq = false ∧
  State.reset.evPorts = (false, false, false) ∧ State.reset.now = 0#32 ∧ State.reset.tx.ph = .txIdle ∧
  State.reset.rx.st = .idle ∧ State.reset.rx.idx = 0#7 ∧ (∀ b i, State.reset.bufByte b i = 0x00#8)

/-- A reset cycle sets every element to its reset value from any state, whatever the bus and the line do, and only the
inputs still to come are kept (20_memory.md R66, 70_reset_and_hazards.md R172). That they are kept is the model's choice
(log 1): they are the environment's, not an element of the block. -/
def Obligations.ResetCycleRestoresEveryElement : Prop :=
  ∀ (s : State) (bus : BusWord) (rxd : Bool) (rest : List CycleInput),
    step { s with inputs := { rst := true, bus := bus, rxd := rxd } :: rest }
      = .next { State.reset with inputs := rest }

/-- The state after reset is legal (10_state.md R54). -/
def Obligations.ResetStateIsLegal : Prop := Legal State.reset

/-! ### Bus reads and writes -/

/-- RD completes in every state, changes nothing but `bus_rdata`, and shows the register map, RXSTATE with the codes 0 to 6
of the receiver's states (10_state.md R24-R44; 44_host_bus.md R145; 30_encoding.md R89). -/
def Obligations.ReadShowsRegisterMap : Prop :=
  ∀ s : State, ∃ rd : Addr → Byte,
    (∀ a, exec (.rd a) s = .next { s with busRdata := rd a }) ∧
    (rd 0x000#9).toNat = s.host.rxEn.toNat ∧
    (rd 0x001#9)[0] = decide (s.tx.ph ≠ .txIdle) ∧
    (rd 0x001#9)[1] = s.hold.ready ∧
    (rd 0x001#9)[2] = s.hold.valid ∧
    (rd 0x001#9)[3] = decide ((s.rx.st ≠ .idle ∧ s.rx.st ≠ .recovery) ∨ (s.rx.st = .idle ∧ s.rx.idx ≠ 0#7)) ∧
    (rd 0x001#9)[4] = decide (s.rx.st = .recovery) ∧
    (rd 0x001#9)[5] = s.tx.done ∧
    (rd 0x001#9)[6] = false ∧ (rd 0x001#9)[7] = false ∧
    rd 0x002#9 = s.host.errFlags ∧
    (rd 0x003#9).toNat = s.host.irqEn.toNat ∧
    (rd 0x004#9).toNat = s.host.txCmd.toNat ∧
    (rd 0x005#9).toNat = s.host.txLen.toNat ∧
    (rd 0x006#9).toNat = s.host.txWLen.toNat ∧
    rd 0x007#9 = (match s.rx.st with
      | .idle => 0#8
      | .receivingBits => 1#8
      | .verifyStop1 => 2#8
      | .verifyStop2 => 3#8
      | .verifyFrameParity => 4#8
      | .verifyFinalStop => 5#8
      | .recovery => 6#8) ∧
    rd 0x00A#9 ++ rd 0x009#9 ++ rd 0x008#9 = s.host.bitPer ∧
    rd 0x00F#9 ++ rd 0x00E#9 ++ rd 0x00D#9 ++ rd 0x00C#9 = s.host.quiet ∧
    (rd 0x010#9).toNat = s.hold.cmd.toNat ∧
    (rd 0x011#9).toNat = s.hold.len.toNat ∧
    rd 0x012#9 = s.hold.csrHi ∧ rd 0x013#9 = s.hold.csrLo ∧
    rd 0x014#9 = s.hold.cscHi ∧ rd 0x015#9 = s.hold.cscLo ∧
    (rd 0x016#9).toNat = s.rx.idx.toNat ∧
    (∀ i, i < 63 → rd (BitVec.ofNat 9 (0x040 + i)) = memRead s.mem (0x040 + i)) ∧
    (∀ i, i < 67 → rd (BitVec.ofNat 9 (0x080 + i)) = memRead s.mem (0x080 + i)) ∧
    (∀ i, i < 64 → rd (BitVec.ofNat 9 (0x100 + i)) = memRead s.mem (0x100 + i)) ∧
    (∀ i, i < 67 → rd (BitVec.ofNat 9 (0x180 + i)) = memRead s.mem (0x180 + i)) ∧
    (∀ a : Addr, a = 0x00B#9 ∨ (0x017#9 ≤ a ∧ a ≤ 0x03F#9) ∨ a = 0x07F#9 ∨ (0x0C3#9 ≤ a ∧ a ≤ 0x0FF#9) ∨
      (0x140#9 ≤ a ∧ a ≤ 0x17F#9) ∨ 0x1C3#9 ≤ a → rd a = 0x00#8)

/-- WR to any address other than CTRL completes: it stores the writable bits of its own register, or its own byte of
TXPAYLOAD, and changes nothing else; at a read-only or a reserved address it changes nothing (44_host_bus.md R146,
10_state.md R44). -/
def Obligations.WriteStoresItsRegisterOnly : Prop :=
  ∀ (s : State) (a : Addr) (v : Byte), a ≠ 0x000#9 → memWf s.mem → ∃ t,
    exec (.wr a v) s = .next t ∧
    t.now = s.now ∧ t.tx = s.tx ∧ t.rx = s.rx ∧ t.hold = s.hold ∧ t.ev = s.ev ∧ t.syncLow = s.syncLow ∧
    t.inputs = s.inputs ∧ t.busRdata = s.busRdata ∧ t.emitted = s.emitted ∧
    t.host = { s.host with
      irqEn := if a = 0x003#9 then v.extractLsb' 0 3 else s.host.irqEn
      txCmd := if a = 0x004#9 then v.extractLsb' 0 4 else s.host.txCmd
      txLen := if a = 0x005#9 then v.extractLsb' 0 7 else s.host.txLen
      bitPer := t.host.bitPer
      quiet := t.host.quiet } ∧
    (∀ k, k < 3 → t.host.bitPer.extractLsb' (8 * k) 8 =
      if a.toNat = 0x008 + k then v else s.host.bitPer.extractLsb' (8 * k) 8) ∧
    (∀ k, k < 4 → t.host.quiet.extractLsb' (8 * k) 8 =
      if a.toNat = 0x00C + k then v else s.host.quiet.extractLsb' (8 * k) 8) ∧
    (∀ b : Nat, memRead t.mem b =
      if b = a.toNat ∧ 0x040 ≤ b ∧ b ≤ 0x07E then v else memRead s.mem b)

/-- After WR, a read of the address gives the stored bits with the reserved bits 0, and a read of every other address
gives what it gave before (10_state.md R28-R30, R33, R34, R40, R44; 44_host_bus.md R146). -/
def Obligations.ReadBackAfterWrite : Prop :=
  ∀ (s : State) (a : Addr) (v : Byte), a ≠ 0x000#9 → memWf s.mem → ∃ t,
    exec (.wr a v) s = .next t ∧ (∀ b : Addr, b ≠ a → t.busRead b = s.busRead b) ∧
    t.busRead a =
      (if a = 0x003#9 then v &&& 0x07#8
      else if a = 0x004#9 then v &&& 0x0F#8
      else if a = 0x005#9 then v &&& 0x7F#8
      else if (0x008#9 ≤ a ∧ a ≤ 0x00A#9) ∨ (0x00C#9 ≤ a ∧ a ≤ 0x00F#9) ∨ (0x040#9 ≤ a ∧ a ≤ 0x07E#9) then v
      else s.busRead a)

/-! ### CTRL commands -/

/-- RXON and RXOFF store RX_EN and change nothing else (44_host_bus.md R153). -/
def Obligations.ReceiverEnableStoresOneBit : Prop :=
  ∀ s : State,
    exec .rxon s = .next { s with host := { s.host with rxEn := true } } ∧
    exec .rxoff s = .next { s with host := { s.host with rxEn := false } }

/-- RX_ACK, ERR_CLR and TXDONE_CLR, each with every combination of the command bits its word may carry: RX_READY,
ERRFLAGS and TX_DONE are cleared where their bit is set, RX_EN is stored, nothing else changes (44_host_bus.md R147,
R150, R151, R152). -/
def Obligations.ClearCommandsClearTheirFlag : Prop :=
  ∀ (s : State) (e c d : Bool),
    exec (.rxAck e c d) s = .next { s with
      hold := { s.hold with ready := false }
      host := { s.host with rxEn := e, errFlags := if c then 0x00#8 else s.host.errFlags }
      tx := { s.tx with done := if d then false else s.tx.done } } ∧
    exec (.errClr e d) s = .next { s with
      host := { s.host with rxEn := e, errFlags := 0x00#8 }
      tx := { s.tx with done := if d then false else s.tx.done } } ∧
    exec (.txDoneClr e) s = .next { s with
      host := { s.host with rxEn := e }
      tx := { s.tx with done := false } }

/-- TX_START on an idle transmitter with TXLEN at most 63 completes: TXWIRE holds the wire frame and then zeros, TXWLEN its
length, and the frame begins; the other bits of its byte act as R147 says; every other element is unchanged
(44_host_bus.md R147, R148; 40_codec.md R94; 41_transmitter.md R103). -/
def Obligations.TransmitStartEncodesAndBegins : Prop :=
  ∀ (s : State) (e o k c d : Bool), memWf s.mem → s.tx.ph = .txIdle → s.host.txLen.toNat ≤ 63 → ∃ t,
    exec (.txStart e o k c d) s = .next t ∧
    t.tx = {
      ph := .start, idx := 0#7, bit := 0#3, ones := 0#10, n := s.host.txLen + 4#7
      p := if s.host.bitPer < 2#24 then 2#24 else s.host.bitPer
      dl := s.now + (if s.host.bitPer < 2#24 then 2#24 else s.host.bitPer).setWidth 32
      txd := false, done := if d then false else s.tx.done } ∧
    t.host = { s.host with
      rxEn := e, errFlags := if c then 0x00#8 else s.host.errFlags, txWLen := s.host.txLen + 4#7 } ∧
    t.hold = { s.hold with ready := if k then false else s.hold.ready } ∧
    t.bufBytes .txWire = wireFrame s.host.txCmd s.host.txLen ((s.bufBytes .txPayload).take s.host.txLen.toNat)
      ++ List.replicate (63 - s.host.txLen.toNat) 0x00#8 ∧
    (∀ a : Nat, a < 0x080 ∨ 0x0C3 ≤ a → memRead t.mem a = memRead s.mem a) ∧
    t.now = s.now ∧ t.rx = s.rx ∧ t.ev = s.ev ∧ t.syncLow = s.syncLow ∧ t.inputs = s.inputs ∧
    t.busRdata = s.busRdata ∧ t.emitted = s.emitted

/-- ENC_ONLY on an idle transmitter with TXLEN at most 63 completes: TXWIRE and TXWLEN are written byte by byte as ENCODE
says, the line and the transmitter are not touched but for TX_DONE where its clear bit is set, and every other element
is unchanged (44_host_bus.md R147, R149; 40_codec.md R94; 30_encoding.md R75-R78). -/
def Obligations.EncodeOnlyWritesWireFrame : Prop :=
  ∀ (s : State) (e k c d : Bool), memWf s.mem → s.tx.ph = .txIdle → s.host.txLen.toNat ≤ 63 → ∃ t,
    exec (.encOnly e k c d) s = .next t ∧
    (t.bufByte .txWire 0).toNat = 4 * s.host.txCmd.toNat ∧
    (t.bufByte .txWire 1).toNat = 2 * s.host.txLen.toNat ∧
    (∀ i, i < s.host.txLen.toNat → t.bufByte .txWire (2 + i) = s.bufByte .txPayload i) ∧
    256 * (t.bufByte .txWire (s.host.txLen.toNat + 2)).toNat + (t.bufByte .txWire (s.host.txLen.toNat + 3)).toNat
      = bitWeight ((t.bufBytes .txWire).take (s.host.txLen.toNat + 2)) ∧
    (∀ i, s.host.txLen.toNat + 4 ≤ i → t.bufByte .txWire i = 0x00#8) ∧
    t.host = { s.host with
      rxEn := e, errFlags := if c then 0x00#8 else s.host.errFlags, txWLen := s.host.txLen + 4#7 } ∧
    t.hold = { s.hold with ready := if k then false else s.hold.ready } ∧
    t.tx = { s.tx with done := if d then false else s.tx.done } ∧
    (∀ a : Nat, a < 0x080 ∨ 0x0C3 ≤ a → memRead t.mem a = memRead s.mem a) ∧
    t.now = s.now ∧ t.rx = s.rx ∧ t.ev = s.ev ∧ t.syncLow = s.syncLow ∧ t.inputs = s.inputs ∧
    t.busRdata = s.busRdata ∧ t.emitted = s.emitted

/-- PayloadTooLarge: with TXLEN above 63 and the transmitter idle, TX_START and ENC_ONLY set TX_TOO_LARGE and change
nothing else, but for the other command bits of their byte, ERR_CLR before the flag; with TXLEN at most 63 neither sets
any flag (40_codec.md R95; 60_exceptions.md R163; 44_host_bus.md R147). -/
def Obligations.PayloadTooLargeIsRejected : Prop :=
  ∀ (s : State) (e o k c d : Bool), s.tx.ph = .txIdle →
    (63 < s.host.txLen.toNat →
      let rejected : State := { s with
        hold := { s.hold with ready := if k then false else s.hold.ready }
        host := { s.host with rxEn := e, errFlags := (if c then 0x00#8 else s.host.errFlags) ||| 0x01#8 }
        tx := { s.tx with done := if d then false else s.tx.done } }
      exec (.txStart e o k c d) s = .next rejected ∧ exec (.encOnly e k c d) s = .next rejected) ∧
    (s.host.txLen.toNat ≤ 63 → ∃ t u,
      exec (.txStart e o k c d) s = .next t ∧ exec (.encOnly e k c d) s = .next u ∧
      t.host.errFlags = (if c then 0x00#8 else s.host.errFlags) ∧
      u.host.errFlags = (if c then 0x00#8 else s.host.errFlags))

/-- While a frame is being sent TX_START and ENC_ONLY are ignored, with no flag: only the other command bits of their byte
act (44_host_bus.md R148, R149; 41_transmitter.md R115; 70_reset_and_hazards.md R181). -/
def Obligations.BusyTransmitterIgnoresEncodeCommands : Prop :=
  ∀ (s : State) (e o k c d : Bool), s.tx.ph ≠ .txIdle →
    let ignored : State := { s with
      hold := { s.hold with ready := if k then false else s.hold.ready }
      host := { s.host with rxEn := e, errFlags := if c then 0x00#8 else s.host.errFlags }
      tx := { s.tx with done := if d then false else s.tx.done } }
    exec (.txStart e o k c d) s = .next ignored ∧ exec (.encOnly e k c d) s = .next ignored

/-! ### Frame commands -/

/-- Every frame command, 0 to 7 and the unassigned 8 to 15, completes in every state: the holding registers take the frame
in RXWIRE with that command, RX_READY is set, RX_VALID says that the checksums agree, RX_OVERRUN and set where they apply, and one Dispatch event is emitted (43_dispatch.md R131, R135-R143; 40_codec.md R97, R98). That a
command code is an operation with this meaning is the model's reading (log 5). -/
def Obligations.FrameCommandDeliversFrame : Prop :=
  ∀ (i : Instr) (cmd : BitVec 4) (s : State), frameCode i = some cmd → memWf s.mem → ∃ t,
    exec i s = .next t ∧
    t.hold.ready = true ∧ t.hold.cmd = cmd ∧ t.hold.len = s.rx.len.extractLsb' 0 6 ∧
    t.hold.csrHi = s.bufByte .rxWire (s.rx.len.toNat + 2) ∧ t.hold.csrLo = s.bufByte .rxWire (s.rx.len.toNat + 3) ∧
    t.hold.cscHi ++ t.hold.cscLo
      = BitVec.ofNat 16 (bitWeight ((s.bufBytes .rxWire).take (s.rx.len.toNat + 2))) ∧
    (t.hold.valid = true ↔ t.hold.csrHi ++ t.hold.csrLo = t.hold.cscHi ++ t.hold.cscLo) ∧
    (∀ j, j < 64 → t.bufByte .rxPayload j =
      if j < s.rx.len.toNat then s.bufByte .rxWire (2 + j) else 0x00#8) ∧
    t.host.errFlags = s.host.errFlags ||| (if s.hold.ready then 0x80#8 else 0x00#8)
      ||| (if t.hold.valid then 0x00#8 else 0x40#8) ∧
    t.ev = { dispatch := true, valid := t.hold.valid, syncErr := s.ev.syncErr } ∧
    t.emitted = s.emitted
      ++ [.dispatch cmd s.rx.len (payloadOf (s.bufBytes .rxWire) s.rx.len.toNat) t.hold.valid]

/-- The frame of every frame command: the receiver becomes frame-idle after a valid frame and enters Recovery after an
invalid one; of memory only RXPAYLOAD changes, of the host registers only ERRFLAGS, and nothing else
(42_receiver.md R125; 60_exceptions.md R158, R159; 43_dispatch.md R131). That a command code is an operation with this
meaning, in every state, is the model's reading (log 5). -/
def Obligations.FrameCommandChangesNothingElse : Prop :=
  ∀ (i : Instr) (cmd : BitVec 4) (s : State), frameCode i = some cmd → memWf s.mem → ∃ t,
    exec i s = .next t ∧
    t.rx = (if t.hold.valid then { s.rx with st := .idle, idx := 0#7, bit := 0#4 }
      else { s.rx with st := .recovery, idx := 0#7, bit := 0#4, qStart := s.now, q := s.host.quiet }) ∧
    t.host = { s.host with errFlags := t.host.errFlags } ∧
    (∀ a : Nat, a < 0x100 ∨ 0x140 ≤ a → memRead t.mem a = memRead s.mem a) ∧
    t.now = s.now ∧ t.tx = s.tx ∧ t.syncLow = s.syncLow ∧ t.inputs = s.inputs ∧ t.busRdata = s.busRdata

/-- A frame whose checksum fails is dispatched with valid = 0 and enters Recovery in the same cycle, with the flag
RX_CHECKSUM, without EV_SYNCERR and without a SyncError event (60_exceptions.md R158; 42_receiver.md R125). -/
def Obligations.ChecksumFailureEntersRecoverySilently : Prop :=
  ∀ (line : Bool) (s : State), frameAccepted line s = true → s.frameValid = false → ∃ t,
    rxStep line s = .next t ∧
    t.rx = { s.rx with st := .recovery, idx := 0#7, bit := 0#4, qStart := s.now, q := s.host.quiet } ∧
    t.hold.valid = false ∧ t.hold.cmd = (s.bufByte .rxWire 0).extractLsb' 2 4 ∧ t.host.errFlags[6] = true ∧
    t.ev = { dispatch := true, valid := false, syncErr := s.ev.syncErr } ∧
    (∀ e, Event.syncError e ∈ t.emitted → Event.syncError e ∈ s.emitted)

/-- The codec's round trip: encode a command and a payload, put the wire frame in a receiver's RXWIRE with the length its
header gives, and the operation of its header byte 0 delivers the command, the length, the payload with its
terminator, and valid = 1, and leaves the receiver frame-idle (40_codec.md R94, R96-R99). That the delivery is the
meaning of the command's operation is the model's reading (log 5). -/
def Obligations.EncodedFrameIsDeliveredUnchanged : Prop :=
  ∀ (s r : State) (i : Instr), memWf s.mem → memWf r.mem → s.host.txLen.toNat ≤ 63 →
    r.bufBytes .rxWire = (encodeFrame s).bufBytes .txWire →
    r.rx.len = headerLength (r.bufByte .rxWire 1) →
    decode [r.bufByte .rxWire 0] = .ok i → ∃ t,
    exec i r = .next t ∧ t.hold.valid = true ∧ t.hold.cmd = s.host.txCmd ∧
    t.hold.len.toNat = s.host.txLen.toNat ∧
    (∀ j, j < 64 → t.bufByte .rxPayload j =
      if j < s.host.txLen.toNat then s.bufByte .txPayload j else 0x00#8) ∧
    t.rx.st = .idle ∧ t.rx.idx = 0#7

/-! ### Receiver errors and recovery -/

/-- Taking a sync failure: its flag (none for RxSync, whose flags are set before), EV_SYNCERR, one SyncError event, and the
entry to Recovery with the quiescence period latched; nothing else changes (60_exceptions.md R157, R159). -/
def Obligations.AbortTakesSyncFailure : Prop :=
  ∀ (s : State) (e : SyncFailure),
    abortFrame e s = { s with
      host := { s.host with errFlags := s.host.errFlags |||
        (match e with | .rxFraming => 0x02#8 | .rxLength => 0x04#8 | .rxTimeout => 0x08#8 | .rxSync => 0x00#8) }
      ev := { s.ev with syncErr := true }
      emitted := s.emitted ++ [.syncError e]
      rx := { s.rx with st := .recovery, idx := 0#7, bit := 0#4, qStart := s.now, q := s.host.quiet } }

/-- The Recovery poll: a LOW restarts the wait, RX_Q cycles without a LOW return to frame-idle Idle, and nothing else
happens (60_exceptions.md R160). -/
def Obligations.RecoveryPollWaitsForQuiescence : Prop :=
  ∀ (s : State) (line : Bool), s.host.rxEn = true → s.rx.st = .recovery →
    rxStep line s = .next (
      if line = false then { s with rx := { s.rx with qStart := s.now } }
      else if s.rx.q ≤ s.now - s.rx.qStart then { s with rx := { s.rx with st := .idle } }
      else s)

/-- RXHOLD: with RX_EN = 0 every poll makes the receiver frame-idle and changes nothing else, so RX_ACTIVE and
RX_RECOVERING are 0 (42_receiver.md R117). -/
def Obligations.DisabledReceiverIsHeldIdle : Prop :=
  ∀ (s : State) (line : Bool), s.host.rxEn = false → ∃ t,
    rxStep line s = .next t ∧ t = { s with rx := { s.rx with st := .idle, idx := 0#7, bit := 0#4 } } ∧
    t.rxActive = false ∧ t.rxRecovering = false

/-- Frame-idle Idle: a LOW line latches the period and its half, clears RXWIRE and the working state, and sets the first
sample; a HIGH line changes nothing (42_receiver.md R118; 10_state.md R33). -/
def Obligations.StartEdgeBeginsFreshFrame : Prop :=
  ∀ s : State, memWf s.mem → s.host.rxEn = true → s.rx.st = .idle → s.rx.idx = 0#7 →
    rxStep true s = .next s ∧
    ∃ t, rxStep false s = .next t ∧ t = { s with rx := t.rx, mem := t.mem } ∧
      t.rx.st = .receivingBits ∧ t.rx.idx = 0#7 ∧ t.rx.bit = 0#4 ∧ t.rx.byte = 0#8 ∧ t.rx.ones = 0#10 ∧
      t.rx.len = 0#7 ∧ t.rx.pbit = false ∧ t.rx.qStart = s.rx.qStart ∧ t.rx.q = s.rx.q ∧
      t.rx.p.toNat = max s.host.bitPer.toNat 2 ∧ t.rx.h.toNat = t.rx.p.toNat / 2 ∧
      t.rx.dl = s.now + BitVec.ofNat 32 (t.rx.h.toNat + t.rx.p.toNat) ∧
      (∀ a : Nat, memRead t.mem a = if 0x180 ≤ a ∧ a ≤ 0x1C2 then 0x00#8 else memRead s.mem a)

/-- Inter-byte Idle: a LOW line starts the next byte of the frame in flight, before any timeout; a HIGH line with the
deadline due aborts with RxTimeout; else nothing (42_receiver.md R119; 60_exceptions.md R162 (c)). -/
def Obligations.NextByteEdgeBeatsTimeout : Prop :=
  ∀ s : State, s.host.rxEn = true → s.rx.st = .idle → s.rx.idx ≠ 0#7 →
    rxStep false s = .next { s with rx := { s.rx with
      bit := 0#4, byte := 0#8, st := .receivingBits
      dl := s.now + BitVec.ofNat 32 (s.rx.h.toNat + s.rx.p.toNat) } } ∧
    rxStep true s = .next (if due s.now s.rx.dl then abortFrame .rxTimeout s else s)

/-- Every state that waits for a sample changes nothing until its deadline is due (42_receiver.md R120-R125). -/
def Obligations.SamplingStatesWaitForDeadline : Prop :=
  ∀ (s : State) (line : Bool), s.host.rxEn = true → due s.now s.rx.dl = false →
    s.rx.st ≠ .idle → s.rx.st ≠ .recovery → rxStep line s = .next s

/-- Eight samples of a byte, each at its deadline, assemble the byte least-significant bit first and end in VerifyStop1,
one period after the last sample (42_receiver.md R120; 20_memory.md R57). -/
def Obligations.EightSamplesAssembleByte : Prop :=
  ∀ (s : State) (b : Byte), s.host.rxEn = true → s.rx.st = .receivingBits → s.rx.bit = 0#4 → s.rx.byte = 0#8 →
    (List.range 8).foldl
      (fun o i => andThen o fun u => rxStep (b.getLsbD i) { u with now := u.rx.dl }) (.next s : Outcome)
      = .next { s with
          now := s.rx.dl + 7#32 * s.rx.p.setWidth 32
          rx := { s.rx with
            st := .verifyStop1, bit := 8#4, byte := b, dl := s.rx.dl + 8#32 * s.rx.p.setWidth 32 } }

/-- The stop checks: a LOW stop 1 or stop 2 aborts with RxFraming; a HIGH stop 1 schedules stop 2 (42_receiver.md R121,
R122). -/
def Obligations.LowStopBitIsFramingError : Prop :=
  ∀ s : State, s.host.rxEn = true → due s.now s.rx.dl = true →
    (s.rx.st = .verifyStop1 ∨ s.rx.st = .verifyStop2 → rxStep false s = .next (abortFrame .rxFraming s)) ∧
    (s.rx.st = .verifyStop1 →
      rxStep true s = .next { s with rx := { s.rx with dl := s.now + s.rx.p.setWidth 32, st := .verifyStop2 } })

/-- The byte commit at a HIGH stop 2: the byte goes to RXWIRE[RX_IDX] and nowhere else, its bits are counted, the index is
raised; the second byte gives RX_LEN, and a length above 63 aborts with RxLength; the last byte of the frame leads to
the parity slot, any other to inter-byte Idle with a timeout of two periods (42_receiver.md R123; 40_codec.md R96). -/
def Obligations.CommitStoresByteAndDecodesHeader : Prop :=
  ∀ s : State, memWf s.mem → s.host.rxEn = true → due s.now s.rx.dl = true → s.rx.st = .verifyStop2 →
    s.rx.idx.toNat < 67 → ∃ t k len,
    rxStep true s = .next t ∧ k = s.rx.idx.toNat + 1 ∧
    len = (if k = 2 then s.rx.byte.extractLsb' 1 7 else s.rx.len) ∧
    (∀ a : Nat, memRead t.mem a = if a = 0x180 + s.rx.idx.toNat then s.rx.byte else memRead s.mem a) ∧
    t.rx.ones = s.rx.ones + BitVec.ofNat 10 (popcount8 s.rx.byte) ∧ t.rx.len = len ∧
    t.rx.byte = s.rx.byte ∧ t.rx.pbit = s.rx.pbit ∧ t.rx.p = s.rx.p ∧ t.rx.h = s.rx.h ∧
    t.now = s.now ∧ t.tx = s.tx ∧ t.hold = s.hold ∧ t.syncLow = s.syncLow ∧ t.inputs = s.inputs ∧
    t.busRdata = s.busRdata ∧
    (if k = 2 ∧ 63 < len.toNat then
      t.rx.st = .recovery ∧ t.rx.idx = 0#7 ∧ t.rx.bit = 0#4 ∧ t.rx.dl = s.rx.dl ∧ t.rx.qStart = s.now ∧
        t.rx.q = s.host.quiet ∧ t.host = { s.host with errFlags := s.host.errFlags ||| 0x04#8 } ∧
        t.ev = { s.ev with syncErr := true } ∧ t.emitted = s.emitted ++ [.syncError .rxLength]
    else
      t.rx.idx.toNat = k ∧ t.rx.bit = s.rx.bit ∧ t.rx.qStart = s.rx.qStart ∧ t.rx.q = s.rx.q ∧ t.host = s.host ∧
        t.ev = s.ev ∧ t.emitted = s.emitted ∧
        (if 3 ≤ k ∧ k = len.toNat + 4 then
          t.rx.st = .verifyFrameParity ∧ t.rx.dl = s.now + s.rx.p.setWidth 32
        else t.rx.st = .idle ∧ t.rx.dl = s.now + BitVec.ofNat 32 (2 * s.rx.p.toNat)))

/-- The parity sample, and one period later the final checks: a LOW final stop or a wrong parity sets each flag that
applies and aborts once, with no dispatch (42_receiver.md R124, R125; 60_exceptions.md R162 (b)). -/
def Obligations.FinalChecksReportBothFailures : Prop :=
  ∀ (s : State) (line : Bool), s.host.rxEn = true → due s.now s.rx.dl = true →
    (s.rx.st = .verifyFrameParity →
      rxStep line s = .next { s with rx := { s.rx with
        pbit := line, dl := s.now + s.rx.p.setWidth 32, st := .verifyFinalStop } }) ∧
    (s.rx.st = .verifyFinalStop → (line = false ∨ s.rx.pbit ≠ s.rx.ones[0]) →
      rxStep line s = .next (abortFrame .rxSync { s with host := { s.host with
        errFlags := s.host.errFlags ||| (if line then 0x00#8 else 0x20#8)
          ||| (if s.rx.pbit = s.rx.ones[0] then 0x00#8 else 0x10#8) } }))

/-! ### Whole-machine rules -/

/-- An error flag once set stays set over every cycle that is neither a reset cycle nor a CTRL write with ERR_CLR
(10_state.md R27). -/
def Obligations.ErrorFlagsAreSticky : Prop :=
  ∀ (s t : State) (k : Nat), step s = .next t → s.input.rst = false →
    ¬ (s.input.bus[18] = true ∧ s.input.bus[17] = true ∧ s.input.bus.extractLsb' 8 9 = 0#9 ∧
      s.input.bus[4] = true) →
    s.host.errFlags.getLsbD k = true → t.host.errFlags.getLsbD k = true

/-- The event registers after a cycle say exactly what the cycle emitted: at most one event; EV_DISPATCH with EV_VALID for
a Dispatch, EV_SYNCERR for a SyncError, and all three 0 for none (10_state.md R52; 43_dispatch.md R132;
60_exceptions.md R157, R162 (a), R165). -/
def Obligations.EventRegistersMatchEmittedEvents : Prop :=
  ∀ s t : State, step s = .next t →
    (t.emitted = [] ∧ t.ev = { dispatch := false, valid := false, syncErr := false }) ∨
    (∃ cmd len payload valid, t.emitted = [.dispatch cmd len payload valid] ∧
      t.ev = { dispatch := true, valid := valid, syncErr := false }) ∨
    (∃ e, t.emitted = [.syncError e] ∧ t.ev = { dispatch := false, valid := false, syncErr := true })

/-- The holding registers and RXPAYLOAD change only in a cycle that dispatches, or in a reset cycle, but that a CTRL write
with RX_ACK (bit 3) clears RX_READY, and nothing else does (43_dispatch.md R133, R134; 44_host_bus.md R150; 10_state.md
R35-R38, R42). -/
def Obligations.OnlyDispatchWritesHoldingRegisters : Prop :=
  ∀ s t : State, step s = .next t → s.input.rst = false → t.ev.dispatch = false →
    t.hold = { s.hold with ready :=
      if s.input.bus[18] = true ∧ s.input.bus[17] = true ∧ s.input.bus.extractLsb' 8 9 = 0#9 ∧ s.input.bus[3] = true
        then false else s.hold.ready } ∧
    (∀ a : Nat, 0x100 ≤ a → a < 0x140 → memRead t.mem a = memRead s.mem a)

/-- While a frame is being sent nothing but reset affects it: two cycles from states that agree on NOW, the transmitter
and TXWIRE, whatever else differs (host registers, TXPAYLOAD, receiver, bus access, line), leave the same transmitter
but for TX_DONE's clear, and TXWIRE as it was (41_transmitter.md R115; 70_reset_and_hazards.md R179). -/
def Obligations.FrameInFlightIsIsolatedFromHost : Prop :=
  ∀ s t s' t' : State, step s = .next t → step s' = .next t' → s.input.rst = false → s'.input.rst = false →
    s.tx.ph ≠ .txIdle → s.tx = s'.tx → s.now = s'.now → s.bufBytes .txWire = s'.bufBytes .txWire →
    t.tx = { t'.tx with done := t.tx.done } ∧ t.bufBytes .txWire = s.bufBytes .txWire

/-- NOW counts every cycle that is not a reset cycle, modulo 2^32, resets to 0, and no host read shows it
(10_state.md R21). -/
def Obligations.NowCountsCyclesUnseen : Prop :=
  State.reset.now = 0#32 ∧
  (∀ s t : State, step s = .next t → s.input.rst = false → t.now.toNat = (s.now.toNat + 1) % 2 ^ 32) ∧
  (∀ (s : State) (n : Time) (a : Addr), ({ s with now := n }).busRead a = s.busRead a)

/-- The synchronizer is a shift chain: all stages reset to 1; in each non-reset cycle stage 1 takes `rxd` and stage k takes
stage k - 1; the line of the cycle is the last stage at its start, or `rxd` where there is no stage
(10_state.md R47). -/
def Obligations.SynchronizerIsShiftChain : Prop :=
  (∀ k, State.reset.syncStage k = true) ∧
  (∀ s t : State, step s = .next t → s.input.rst = false → SyncLegal s →
    (1 ≤ Config.syncStages → t.syncStage 1 = s.input.rxd) ∧
    (∀ k, 2 ≤ k → k ≤ Config.syncStages → t.syncStage k = s.syncStage (k - 1))) ∧
  (∀ (s : State) (rxd : Bool), SyncLegal s →
    s.line rxd = if Config.syncStages = 0 then rxd else s.syncStage Config.syncStages)

/-- The `irq` output is the OR of the three enabled sources, and it is 0 after reset. RX_ACK alone, ERR_CLR alone and
TXDONE_CLR alone each make their own source's term 0 and leave the other two terms as they were; the byte with all three
makes `irq` 0 (60_exceptions.md R164). -/
def Obligations.InterruptIsLevelOfEnabledSources : Prop :=
  (∀ s : State, s.irq = true ↔
    (s.host.irqEn[0] = true ∧ s.hold.ready = true) ∨
    (s.host.irqEn[1] = true ∧ s.host.errFlags ≠ 0x00#8) ∨
    (s.host.irqEn[2] = true ∧ s.tx.done = true)) ∧
  State.reset.irq = false ∧
  (∀ (s : State) (e : Bool), ∃ t, exec (.rxAck e false false) s = .next t ∧
    t.irq = ((s.host.irqEn[1] && s.host.errFlags != 0x00#8) || (s.host.irqEn[2] && s.tx.done))) ∧
  (∀ (s : State) (e : Bool), ∃ t, exec (.errClr e false) s = .next t ∧
    t.irq = ((s.host.irqEn[0] && s.hold.ready) || (s.host.irqEn[2] && s.tx.done))) ∧
  (∀ (s : State) (e : Bool), ∃ t, exec (.txDoneClr e) s = .next t ∧
    t.irq = ((s.host.irqEn[0] && s.hold.ready) || (s.host.irqEn[1] && s.host.errFlags != 0x00#8))) ∧
  (∀ (s : State) (e : Bool), ∃ t, exec (.rxAck e true true) s = .next t ∧ t.irq = false)

/-- The deadline test first holds in the cycle in which NOW is the deadline, for every deadline less than 2^31 cycles
ahead, across the wrap of NOW (10_state.md R22, R23). -/
def Obligations.DeadlineFirstDueAtItsCycle : Prop :=
  ∀ (now : Time) (k : Nat), k < 2 ^ 31 →
    (∀ j, j < k → due (now + BitVec.ofNat 32 j) (now + BitVec.ofNat 32 k) = false) ∧
    (∀ j, j < 2 ^ 31 → due (now + BitVec.ofNat 32 (k + j)) (now + BitVec.ofNat 32 k) = true)

/-- The checksum is a sum: it is invariant under every permutation of its bytes (40_codec.md R100 (a), R92). -/
def Obligations.ChecksumIgnoresByteOrder : Prop :=
  ∀ xs ys : List Byte, xs.Perm ys → bitWeight xs = bitWeight ys ∧ checksum xs = checksum ys

/-- A corruption of bytes 0 to L + 1 that changes their total weight changes the computed checksum, so that the frame with
its checksum bytes intact is delivered with valid = 0 (40_codec.md R100 (b)). That the delivery is the meaning of the
command's operation is the model's reading (log 5). -/
def Obligations.WeightChangeIsDetected : Prop :=
  ∀ (s : State) (sent : List Byte) (i : Instr), memWf s.mem → s.rx.len.toNat ≤ 63 →
    sent.length = s.rx.len.toNat + 2 →
    s.bufByte .rxWire (s.rx.len.toNat + 2) ++ s.bufByte .rxWire (s.rx.len.toNat + 3) = checksum sent →
    bitWeight ((s.bufBytes .rxWire).take (s.rx.len.toNat + 2)) ≠ bitWeight sent →
    decode [s.bufByte .rxWire 0] = .ok i → ∃ t, exec i s = .next t ∧ t.hold.valid = false

/-- Flipping bits changes the parity of the weight of a frame exactly when the number of flipped bits is odd
(40_codec.md R100 (d)). -/
def Obligations.OddFlipsChangeFrameParity : Prop :=
  ∀ flips bytes : List Byte, flips.length = bytes.length →
    bitWeight (List.zipWith (· ^^^ ·) bytes flips) % 2 = (bitWeight bytes + bitWeight flips) % 2

/-! ### Invariants that every cycle keeps -/

/-- Every cycle keeps the buffers in their one canonical form (the model's form, log 8). -/
def Obligations.MemoryStaysCanonical : Prop :=
  ∀ s t : State, memWf s.mem → step s = .next t → memWf t.mem

/-- TXD is 1 after reset, and every cycle keeps it 1 wherever the transmitter is idle (10_state.md R46). -/
def Obligations.IdleTransmitterDrivesHigh : Prop :=
  State.reset.tx.txd = true ∧
  ∀ s t : State, (s.tx.ph = .txIdle → s.tx.txd = true) → step s = .next t → t.tx.ph = .txIdle → t.tx.txd = true

/-- Every cycle keeps a legal transmitter legal: the line holds the value of the current slot of the frame, the deadline is
within one period, the indices are in bounds and TX_ONES counts the bits sent (10_state.md R45, R46;
41_transmitter.md R102-R111; 30_encoding.md R81, R82). -/
def Obligations.TransmitterStaysLegal : Prop :=
  ∀ s t : State, memWf s.mem → TxLegal s → step s = .next t → TxLegal t

/-- Every cycle keeps a legal receiver legal: the indices are in bounds, no length above 63 is used, the period is latched
with its half, RX_ONES is the weight of the bytes committed, and each deadline is near (10_state.md R50;
42_receiver.md R118-R125, R127; 40_codec.md R96, R101). -/
def Obligations.ReceiverStaysLegal : Prop :=
  ∀ s t : State, memWf s.mem → RxLegal s → step s = .next t → RxLegal t

/-- Every cycle keeps legal holding registers legal: RXPAYLOAD is 0x00 from the terminator on, the computed checksum is at
most 520, RX_VALID says that the checksums agree (10_state.md R26, R42; 30_encoding.md R79; 40_codec.md R97, R98). -/
def Obligations.HoldingRegistersStayLegal : Prop :=
  ∀ s t : State, memWf s.mem → RxLegal s → HoldLegal s → step s = .next t → HoldLegal t

/-- From every legal state, every run of any number of cycles, whatever the host, the line and the reset input do, ends in
a legal state: no cycle stops (the five invariants together). -/
def Obligations.EveryRunFromLegalStateStaysLegal : Prop :=
  ∀ (k : Nat) (s : State), Legal s → ∃ t, Host.Core.run Sys2Proof.core k s = .next t ∧ Legal t

/-! ### The line schedule -/

/-- The transition at the end of each slot, with the deadline moved on by TX_P from the old deadline; idle or not due, the
transmitter holds (41_transmitter.md R104-R111). -/
def Obligations.TransmitterSlotTransitions : Prop :=
  ∀ (s : State) (b : Byte), b = s.bufByte .txWire s.tx.idx.toNat →
    (s.tx.ph = .txIdle ∨ due s.now s.tx.dl = false → txStep s = s) ∧
    (due s.now s.tx.dl = true →
      (s.tx.ph = .start → txStep s = { s with tx := { s.tx with
        txd := b[0], ones := s.tx.ones + BitVec.ofNat 10 (b[0]).toNat, bit := 0#3, ph := .data
        dl := s.tx.dl + s.tx.p.setWidth 32 } }) ∧
      (s.tx.ph = .data → s.tx.bit.toNat < 7 → txStep s = { s with tx := { s.tx with
        txd := b.getLsbD (s.tx.bit.toNat + 1)
        ones := s.tx.ones + BitVec.ofNat 10 (b.getLsbD (s.tx.bit.toNat + 1)).toNat, bit := s.tx.bit + 1#3
        dl := s.tx.dl + s.tx.p.setWidth 32 } }) ∧
      (s.tx.ph = .data → s.tx.bit.toNat = 7 → txStep s = { s with tx := { s.tx with
        txd := true, ph := .stop1, dl := s.tx.dl + s.tx.p.setWidth 32 } }) ∧
      (s.tx.ph = .stop1 → txStep s = { s with tx := { s.tx with
        txd := true, ph := .stop2, dl := s.tx.dl + s.tx.p.setWidth 32 } }) ∧
      (s.tx.ph = .stop2 → s.tx.idx.toNat + 1 < s.tx.n.toNat → txStep s = { s with tx := { s.tx with
        idx := s.tx.idx + 1#7, txd := false, ph := .start, dl := s.tx.dl + s.tx.p.setWidth 32 } }) ∧
      (s.tx.ph = .stop2 → ¬ s.tx.idx.toNat + 1 < s.tx.n.toNat → txStep s = { s with tx := { s.tx with
        txd := s.tx.ones[0], ph := .parity, dl := s.tx.dl + s.tx.p.setWidth 32 } }) ∧
      (s.tx.ph = .parity → txStep s = { s with tx := { s.tx with
        txd := true, ph := .guard, dl := s.tx.dl + s.tx.p.setWidth 32 } }) ∧
      (s.tx.ph = .guard → txStep s = { s with tx := { s.tx with txd := true, ph := .txIdle, done := true } }))

/-- The closed-form line schedule. Suppose TX_START is accepted in a cycle, with N = TXLEN + 4 and P the effective period.
Then, whatever the host and the line do afterwards short of a reset, c cycles after the next one begins `txd` is slot
c / P of the frame for every c below (11 N + 2) P, STATUS.TX_BUSY being 1, and after (11 N + 2) P cycles the
transmitter is idle, `txd` is 1 and TX_DONE is 1 (41_transmitter.md R112, R113; 30_encoding.md R81, R82). -/
def Obligations.TransmitterFollowsLineSchedule : Prop :=
  ∀ (s u : State) (e o k c d : Bool) (j n p : Nat) (w : List Byte), memWf s.mem → s.tx.ph = .txIdle →
    s.host.txLen.toNat ≤ 63 → decodeBus s.input.bus = .ok (.txStart e o k c d) → NoReset s (j + 1) →
    n = s.host.txLen.toNat + 4 → p = max s.host.bitPer.toNat 2 →
    w = wireFrame s.host.txCmd s.host.txLen ((s.bufBytes .txPayload).take s.host.txLen.toNat) →
    Host.Core.run Sys2Proof.core (j + 1) s = .next u →
    (j < (11 * n + 2) * p → u.txBusy = true ∧ u.txdPort = (frameSlots w).getD (j / p) true) ∧
    (j = (11 * n + 2) * p → u.txBusy = false ∧ u.txdPort = true ∧ u.tx.done = true)

/-- The round trip over the line. A frame-idle, enabled receiver, its chain HIGH, sees on `rxd` the slots of the wire frame of
a command and a payload, each for P cycles, while no host access and no reset comes. It dispatches once, in the cycle
that R126 gives: SYNC_STAGES + H + (11 N + 1) P cycles after the start bit begins on `rxd`; no cycle before emits an
event. The frame is valid, the command, the length and the payload are those sent, no error flag is set but RX_OVERRUN
where a frame was still held, and the receiver is frame-idle (40_codec.md R99; 42_receiver.md R118-R126). -/
def Obligations.WellTimedFrameIsDeliveredOnce : Prop :=
  ∀ (s : State) (cmd : BitVec 4) (len : BitVec 7) (payload : List Byte) (rest : List CycleInput) (n p k : Nat),
    memWf s.mem → s.host.rxEn = true → s.rx.st = .idle → s.rx.idx = 0#7 → s.syncLow = [] →
    payload.length = len.toNat → len.toNat ≤ 63 → n = len.toNat + 4 → p = max s.host.bitPer.toNat 2 →
    s.inputs = lineInputs (frameLevels (wireFrame cmd len payload) p ++ List.replicate Config.syncStages true) ++ rest →
    k = Config.syncStages + p / 2 + (11 * n + 1) * p →
    (∀ j u, 0 < j → j ≤ k → Host.Core.run Sys2Proof.core j s = .next u → u.emitted = []) ∧
    ∃ t, Host.Core.run Sys2Proof.core (k + 1) s = .next t ∧ t.emitted = [.dispatch cmd len payload true] ∧
      t.hold.ready = true ∧ t.hold.valid = true ∧ t.hold.cmd = cmd ∧ t.hold.len.toNat = len.toNat ∧
      (∀ j, j < 64 → t.bufByte .rxPayload j = payload.getD j 0x00#8) ∧
      t.host = { s.host with errFlags := s.host.errFlags ||| (if s.hold.ready then 0x80#8 else 0x00#8) } ∧
      t.rx.st = .idle ∧ t.rx.idx = 0#7

/-! ### The synchronizer, and the race of RX_ACK with a dispatch -/

/-- Every cycle keeps the synchronizer's list of LOW stages legal: rising, and each a stage that exists. The list is the
model's own form of the chain (log 7; 10_state.md R47). -/
def Obligations.SynchronizerStaysLegal : Prop :=
  ∀ s t : State, SyncLegal s → step s = .next t → SyncLegal t

/-- The RX_ACK and dispatch race: in a cycle whose access is a CTRL write with RX_ACK and which dispatches a frame, the
acknowledgement is applied first, so RX_READY ends the cycle at 1 and no overrun is recorded, whatever the other bits of
the byte (43_dispatch.md R131; 44_host_bus.md R150; 20_memory.md R67). -/
def Obligations.AcknowledgeBeforeDispatchAvoidsOverrun : Prop :=
  ∀ s t : State, step s = .next t → s.input.rst = false →
    s.input.bus[18] = true → s.input.bus[17] = true → s.input.bus.extractLsb' 8 9 = 0#9 → s.input.bus[3] = true →
    t.ev.dispatch = true →
    t.hold.ready = true ∧
      t.host.errFlags[7] = (if s.input.bus[4] = true then false else s.host.errFlags[7])
end

