-- ==== Sys2Proof/Laws/Memory.lean ====
section
/-! SUPPORT. The laws of the buffers: a read after a write, the canonical form, and the same for whole buffers. -/

namespace Sys2Proof.Machine

theorem memRead_eq_unlisted {m : List Host.Cell} {a : Nat} (h : ∀ c ∈ m, a < c.1) : memRead m a = unlistedByte := by
  induction m with
  | nil => rfl
  | cons c m ih =>
    have hc := h c (by simp)
    simp only [memRead]
    rw [if_neg (by omega)]
    exact ih fun d hd => h d (by simp [hd])

/-- A read of the address written gives the byte written. -/
theorem memRead_memWrite_same {m : List Host.Cell} (hm : m.Pairwise (fun c d => c.1 < d.1)) (a : Nat) (v : Byte) :
    memRead (memWrite m a v) a = v := by
  induction m with
  | nil => by_cases hv : v = unlistedByte <;> simp [memWrite, memRead, hv]
  | cons c m ih =>
    obtain ⟨hc, hm'⟩ := List.pairwise_cons.1 hm
    rcases Nat.lt_trichotomy a c.1 with h | h | h
    · by_cases hv : v = unlistedByte
      · simp only [memWrite, if_pos h, if_pos hv]
        rw [memRead_eq_unlisted, hv]
        intro d hd
        rcases List.mem_cons.1 hd with rfl | hd
        · exact h
        · exact Nat.lt_trans h (hc d hd)
      · simp [memWrite, h, hv, memRead]
    · subst h
      by_cases hv : v = unlistedByte
      · simp only [memWrite, lt_irrefl, if_false, if_true, if_pos hv]
        rw [memRead_eq_unlisted hc, hv]
      · simp [memWrite, hv, memRead]
    · have h1 : ¬ a < c.1 := by omega
      have h2 : ¬ a = c.1 := by omega
      have h3 : ¬ c.1 = a := by omega
      simp [memWrite, h1, h2, memRead, h3, ih hm']

/-- A read of another address gives what it gave before. -/
theorem memRead_memWrite_ne (m : List Host.Cell) {a b : Nat} (h : b ≠ a) (v : Byte) :
    memRead (memWrite m a v) b = memRead m b := by
  induction m with
  | nil => by_cases hv : v = unlistedByte <;> simp [memWrite, memRead, hv, h.symm]
  | cons c m ih =>
    by_cases h1 : a < c.1
    · by_cases hv : v = unlistedByte <;> simp [memWrite, memRead, h1, hv, h.symm]
    · by_cases h2 : a = c.1
      · subst h2
        by_cases hv : v = unlistedByte <;> simp [memWrite, memRead, hv, h.symm]
      · simp [memWrite, memRead, h1, h2, ih]

theorem mem_memWrite {m : List Host.Cell} {a : Nat} {v : Byte} {c : Host.Cell} (h : c ∈ memWrite m a v) :
    c ∈ m ∨ (c = (a, v) ∧ v ≠ unlistedByte) := by
  induction m with
  | nil =>
    by_cases hv : v = unlistedByte
    · simp [memWrite, hv] at h
    · simp only [memWrite, if_neg hv, List.mem_singleton] at h
      exact .inr ⟨h, hv⟩
  | cons d m ih =>
    simp only [memWrite] at h
    split_ifs at h with h1 hv h2 hv
    · exact .inl h
    · rcases List.mem_cons.1 h with h | h
      · exact .inr ⟨h, hv⟩
      · exact .inl h
    · exact .inl (List.mem_cons_of_mem _ h)
    · rcases List.mem_cons.1 h with h | h
      · exact .inr ⟨h, hv⟩
      · exact .inl (List.mem_cons_of_mem _ h)
    · rcases List.mem_cons.1 h with h | h
      · exact .inl (by simp [h])
      · rcases ih h with h | h
        · exact .inl (List.mem_cons_of_mem _ h)
        · exact .inr h

/-- A write to an address of a buffer keeps the canonical form. -/
theorem memWf_memWrite {m : List Host.Cell} (hm : memWf m) {a : Nat} (ha : isBufferAddr a = true) (v : Byte) :
    memWf (memWrite m a v) := by
  refine ⟨?_, fun c hc => ?_⟩
  · have hp := hm.1
    clear hm
    induction m with
    | nil => by_cases hv : v = unlistedByte <;> simp [memWrite, hv]
    | cons d m ih =>
      obtain ⟨hd, hm'⟩ := List.pairwise_cons.1 hp
      simp only [memWrite]
      split_ifs with h1 hv h2 hv
      · exact hp
      · refine List.pairwise_cons.2 ⟨fun c hc => ?_, hp⟩
        rcases List.mem_cons.1 hc with rfl | hc
        · exact h1
        · exact Nat.lt_trans h1 (hd c hc)
      · exact hm'
      · exact List.pairwise_cons.2 ⟨fun c hc => by have := hd c hc; simp_all, hm'⟩
      · refine List.pairwise_cons.2 ⟨fun c hc => ?_, ih hm'⟩
        rcases mem_memWrite hc with hc | ⟨rfl, _⟩
        · exact hd c hc
        · show d.1 < a
          omega
  · rcases mem_memWrite hc with hc | ⟨rfl, hv⟩
    · exact hm.2 c hc
    · exact ⟨hv, ha⟩

/-- Writing bytes at rising addresses leaves every other address alone. -/
theorem memRead_memWriteBytes_out (m : List Host.Cell) (a : Nat) (vs : List Byte) {b : Nat}
    (h : b < a ∨ a + vs.length ≤ b) : memRead (memWriteBytes m a vs) b = memRead m b := by
  induction vs generalizing m a with
  | nil => rfl
  | cons v vs ih =>
    simp only [List.length_cons] at h
    simp only [memWriteBytes]
    rw [ih _ _ (by omega), memRead_memWrite_ne _ (by omega)]

/-- Writing bytes inside buffers keeps the canonical form. -/
theorem memWf_memWriteBytes {m : List Host.Cell} (hm : memWf m) (a : Nat) (vs : List Byte)
    (h : ∀ i, i < vs.length → isBufferAddr (a + i) = true) : memWf (memWriteBytes m a vs) := by
  induction vs generalizing m a with
  | nil => exact hm
  | cons v vs ih =>
    refine ih (memWf_memWrite hm (h 0 (by simp)) v) (a + 1) fun i hi => ?_
    have := h (i + 1) (by simpa using hi)
    rwa [show a + (i + 1) = a + 1 + i by omega] at this

/-- A read of an address written gives its byte. -/
theorem memRead_memWriteBytes_in {m : List Host.Cell} (hm : memWf m) (a : Nat) (vs : List Byte)
    (h : ∀ i, i < vs.length → isBufferAddr (a + i) = true) {i : Nat} (hi : i < vs.length) :
    memRead (memWriteBytes m a vs) (a + i) = vs.getD i unlistedByte := by
  induction vs generalizing m a i with
  | nil => simp at hi
  | cons v vs ih =>
    have hw := memWf_memWrite hm (h 0 (by simp)) v
    have h' : ∀ i, i < vs.length → isBufferAddr (a + 1 + i) = true := fun i hi => by
      have := h (i + 1) (by simpa using hi)
      rwa [show a + (i + 1) = a + 1 + i by omega] at this
    cases i with
    | zero =>
      simp only [memWriteBytes, Nat.add_zero, List.getD_cons_zero]
      rw [memRead_memWriteBytes_out _ _ _ (by omega), memRead_memWrite_same hm.1]
    | succ i =>
      simp only [memWriteBytes, List.getD_cons_succ]
      rw [show a + (i + 1) = a + 1 + i by omega]
      exact ih hw (a + 1) h' (by simpa using hi)

/-! ### Buffers -/

theorem covers_iff (b : Buffer) (a : Nat) : b.covers a = true ↔ b.base ≤ a ∧ a < b.base + b.size := by
  simp [Buffer.covers]

theorem isBufferAddr_iff (a : Nat) :
    isBufferAddr a = true ↔ (0x040 ≤ a ∧ a < 0x07F) ∨ (0x080 ≤ a ∧ a < 0x0C3) ∨ (0x100 ≤ a ∧ a < 0x140)
      ∨ (0x180 ≤ a ∧ a < 0x1C3) := by
  simp only [isBufferAddr, Bool.or_eq_true, covers_iff, or_assoc]
  rfl

theorem isBufferAddr_base_add (b : Buffer) {i : Nat} (h : i < b.size) : isBufferAddr (b.base + i) = true := by
  rw [isBufferAddr_iff]
  cases b <;> simp only [Buffer.base, Buffer.size] at h ⊢ <;> omega

/-- Distinct buffers hold distinct addresses. -/
theorem buffers_disjoint {b c : Buffer} (hbc : c ≠ b) {i j : Nat} (hi : i < c.size) (hj : j < b.size) :
    c.base + i ≠ b.base + j := by
  cases b <;> cases c <;> simp [Buffer.base, Buffer.size] at hbc hi hj ⊢ <;> omega

/-- The bytes that `fillBuf` writes are as many as the buffer has. -/
theorem fill_length (b : Buffer) (vs : List Byte) :
    (vs.take b.size ++ List.replicate (b.size - vs.length) unlistedByte).length = b.size := by
  simp only [List.length_append, List.length_take, List.length_replicate]
  omega

theorem fill_getD (n : Nat) (vs : List Byte) {i : Nat} (hi : i < n) :
    (vs.take n ++ List.replicate (n - vs.length) unlistedByte).getD i unlistedByte = vs.getD i unlistedByte := by
  by_cases h : i < vs.length
  · simp [List.getD_eq_getElem?_getD, List.getElem?_append, hi, h]
  · rw [List.getD_eq_default vs _ (by omega)]
    simp only [List.getD_eq_getElem?_getD, List.getElem?_append, List.length_take, List.getElem?_replicate]
    rw [if_neg (by omega)]
    split <;> rfl

theorem memWf_fillBuf {s : State} (hm : memWf s.mem) (b : Buffer) (vs : List Byte) : memWf (s.fillBuf b vs).mem :=
  memWf_memWriteBytes hm _ _ fun _ hi => isBufferAddr_base_add b (by rwa [fill_length] at hi)

/-- A filled buffer reads the bytes given, then 0x00. -/
theorem bufByte_fillBuf_same {s : State} (hm : memWf s.mem) (b : Buffer) (vs : List Byte) {i : Nat}
    (hi : i < b.size) : (s.fillBuf b vs).bufByte b i = vs.getD i unlistedByte := by
  unfold State.bufByte State.fillBuf
  rw [if_pos hi, memRead_memWriteBytes_in hm _ _ (fun _ h => isBufferAddr_base_add b (by rwa [fill_length] at h))
    (by rwa [fill_length]), fill_getD _ _ hi]

/-- Filling one buffer leaves the others alone. -/
theorem bufByte_fillBuf_ne (s : State) {b c : Buffer} (hbc : c ≠ b) (vs : List Byte) (i : Nat) :
    (s.fillBuf b vs).bufByte c i = s.bufByte c i := by
  unfold State.bufByte State.fillBuf
  split
  · next hi =>
    apply memRead_memWriteBytes_out
    rw [fill_length]
    cases b <;> cases c <;> simp [Buffer.base, Buffer.size] at hbc hi ⊢ <;> omega
  · rfl

theorem memWf_setBufByte {s : State} (hm : memWf s.mem) (b : Buffer) (i : Nat) (v : Byte) :
    memWf (s.setBufByte b i v).mem := by
  simp only [State.setBufByte]
  split
  · next h => exact memWf_memWrite hm (isBufferAddr_base_add b h) v
  · exact hm

theorem bufByte_setBufByte_same {s : State} (hm : memWf s.mem) (b : Buffer) {i : Nat} (hi : i < b.size) (v : Byte) :
    (s.setBufByte b i v).bufByte b i = v := by
  simp only [State.setBufByte, State.bufByte, if_pos hi]
  exact memRead_memWrite_same hm.1 _ _

/-- Writing one byte of a buffer leaves its other bytes and the other buffers alone. -/
theorem bufByte_setBufByte_ne (s : State) {b c : Buffer} {i j : Nat} (h : c ≠ b ∨ j ≠ i) (v : Byte) :
    (s.setBufByte b i v).bufByte c j = s.bufByte c j := by
  simp only [State.setBufByte, State.bufByte]
  split
  · next hj =>
    split
    · next hi =>
      apply memRead_memWrite_ne
      by_cases hbc : c = b
      · subst hbc
        have := h.resolve_left (by simp)
        omega
      · exact buffers_disjoint hbc hj hi
    · rfl
  · rfl

/-- What `bufBytes` depends on: the bytes of the buffer. -/
theorem bufBytes_congr {s t : State} {b : Buffer} (h : ∀ i, i < b.size → s.bufByte b i = t.bufByte b i) :
    s.bufBytes b = t.bufBytes b :=
  List.map_congr_left fun i hi => h i (List.mem_range.1 hi)

@[simp] theorem bufBytes_length (s : State) (b : Buffer) : (s.bufBytes b).length = b.size := by
  simp [State.bufBytes]

theorem bufBytes_getD (s : State) (b : Buffer) (i : Nat) : (s.bufBytes b).getD i unlistedByte = s.bufByte b i := by
  unfold State.bufBytes
  by_cases h : i < b.size
  · simp [List.getD_eq_getElem?_getD, h]
  · rw [List.getD_eq_default _ _ (by simpa using h)]
    simp [State.bufByte, h]

/-- A filled buffer holds exactly the bytes given and 0x00 up to its size. -/
theorem bufBytes_fillBuf_same {s : State} (hm : memWf s.mem) (b : Buffer) (vs : List Byte) (h : vs.length ≤ b.size) :
    (s.fillBuf b vs).bufBytes b = vs ++ List.replicate (b.size - vs.length) unlistedByte := by
  apply List.ext_getElem
  · simp
    omega
  · intro i h1 h2
    rw [bufBytes_length] at h1
    have e := bufByte_fillBuf_same hm b vs h1
    have f := fill_getD b.size vs h1
    rw [List.take_of_length_le h] at f
    simp only [State.bufBytes, List.getElem_map, List.getElem_range, e, ← f]
    rw [List.getD_eq_getElem _ _ h2]

/-- The memory after reset lists nothing, which is canonical. -/
theorem memWf_reset : memWf State.reset.mem := ⟨List.Pairwise.nil, fun _ h => by cases h⟩

end Sys2Proof.Machine
end

