-- ==== Sys2Proof/Laws/State.lean ====
section
/-! SUPPORT. The fields that each named update leaves unchanged, true by rfl, and the fields the short ones set. -/

namespace Sys2Proof.Machine

/-! `raiseFlag` -/

@[simp] theorem raiseFlag_now (e : ErrCode) (s : State) : (raiseFlag e s).now = s.now := rfl
@[simp] theorem raiseFlag_tx (e : ErrCode) (s : State) : (raiseFlag e s).tx = s.tx := rfl
@[simp] theorem raiseFlag_rx (e : ErrCode) (s : State) : (raiseFlag e s).rx = s.rx := rfl
@[simp] theorem raiseFlag_hold (e : ErrCode) (s : State) : (raiseFlag e s).hold = s.hold := rfl
@[simp] theorem raiseFlag_ev (e : ErrCode) (s : State) : (raiseFlag e s).ev = s.ev := rfl
@[simp] theorem raiseFlag_syncLow (e : ErrCode) (s : State) : (raiseFlag e s).syncLow = s.syncLow := rfl
@[simp] theorem raiseFlag_mem (e : ErrCode) (s : State) : (raiseFlag e s).mem = s.mem := rfl
@[simp] theorem raiseFlag_inputs (e : ErrCode) (s : State) : (raiseFlag e s).inputs = s.inputs := rfl
@[simp] theorem raiseFlag_busRdata (e : ErrCode) (s : State) : (raiseFlag e s).busRdata = s.busRdata := rfl
@[simp] theorem raiseFlag_emitted (e : ErrCode) (s : State) : (raiseFlag e s).emitted = s.emitted := rfl

/-! `fillBuf` -/

@[simp] theorem fillBuf_now (s : State) (b : Buffer) (vs : List Byte) : (s.fillBuf b vs).now = s.now := rfl
@[simp] theorem fillBuf_host (s : State) (b : Buffer) (vs : List Byte) : (s.fillBuf b vs).host = s.host := rfl
@[simp] theorem fillBuf_tx (s : State) (b : Buffer) (vs : List Byte) : (s.fillBuf b vs).tx = s.tx := rfl
@[simp] theorem fillBuf_rx (s : State) (b : Buffer) (vs : List Byte) : (s.fillBuf b vs).rx = s.rx := rfl
@[simp] theorem fillBuf_hold (s : State) (b : Buffer) (vs : List Byte) : (s.fillBuf b vs).hold = s.hold := rfl
@[simp] theorem fillBuf_ev (s : State) (b : Buffer) (vs : List Byte) : (s.fillBuf b vs).ev = s.ev := rfl
@[simp] theorem fillBuf_syncLow (s : State) (b : Buffer) (vs : List Byte) : (s.fillBuf b vs).syncLow = s.syncLow := rfl
@[simp] theorem fillBuf_inputs (s : State) (b : Buffer) (vs : List Byte) : (s.fillBuf b vs).inputs = s.inputs := rfl
@[simp] theorem fillBuf_busRdata (s : State) (b : Buffer) (vs : List Byte) : (s.fillBuf b vs).busRdata = s.busRdata := rfl
@[simp] theorem fillBuf_emitted (s : State) (b : Buffer) (vs : List Byte) : (s.fillBuf b vs).emitted = s.emitted := rfl

/-! `txBegin` -/

@[simp] theorem txBegin_now (s : State) : (txBegin s).now = s.now := rfl
@[simp] theorem txBegin_host (s : State) : (txBegin s).host = s.host := rfl
@[simp] theorem txBegin_rx (s : State) : (txBegin s).rx = s.rx := rfl
@[simp] theorem txBegin_hold (s : State) : (txBegin s).hold = s.hold := rfl
@[simp] theorem txBegin_ev (s : State) : (txBegin s).ev = s.ev := rfl
@[simp] theorem txBegin_syncLow (s : State) : (txBegin s).syncLow = s.syncLow := rfl
@[simp] theorem txBegin_mem (s : State) : (txBegin s).mem = s.mem := rfl
@[simp] theorem txBegin_inputs (s : State) : (txBegin s).inputs = s.inputs := rfl
@[simp] theorem txBegin_busRdata (s : State) : (txBegin s).busRdata = s.busRdata := rfl
@[simp] theorem txBegin_emitted (s : State) : (txBegin s).emitted = s.emitted := rfl

/-! `rxAck` -/

@[simp] theorem rxAck_now (s : State) : (rxAck s).now = s.now := rfl
@[simp] theorem rxAck_host (s : State) : (rxAck s).host = s.host := rfl
@[simp] theorem rxAck_tx (s : State) : (rxAck s).tx = s.tx := rfl
@[simp] theorem rxAck_rx (s : State) : (rxAck s).rx = s.rx := rfl
@[simp] theorem rxAck_ev (s : State) : (rxAck s).ev = s.ev := rfl
@[simp] theorem rxAck_syncLow (s : State) : (rxAck s).syncLow = s.syncLow := rfl
@[simp] theorem rxAck_mem (s : State) : (rxAck s).mem = s.mem := rfl
@[simp] theorem rxAck_inputs (s : State) : (rxAck s).inputs = s.inputs := rfl
@[simp] theorem rxAck_busRdata (s : State) : (rxAck s).busRdata = s.busRdata := rfl
@[simp] theorem rxAck_emitted (s : State) : (rxAck s).emitted = s.emitted := rfl

/-! `errClr` -/

@[simp] theorem errClr_now (s : State) : (errClr s).now = s.now := rfl
@[simp] theorem errClr_tx (s : State) : (errClr s).tx = s.tx := rfl
@[simp] theorem errClr_rx (s : State) : (errClr s).rx = s.rx := rfl
@[simp] theorem errClr_hold (s : State) : (errClr s).hold = s.hold := rfl
@[simp] theorem errClr_ev (s : State) : (errClr s).ev = s.ev := rfl
@[simp] theorem errClr_syncLow (s : State) : (errClr s).syncLow = s.syncLow := rfl
@[simp] theorem errClr_mem (s : State) : (errClr s).mem = s.mem := rfl
@[simp] theorem errClr_inputs (s : State) : (errClr s).inputs = s.inputs := rfl
@[simp] theorem errClr_busRdata (s : State) : (errClr s).busRdata = s.busRdata := rfl
@[simp] theorem errClr_emitted (s : State) : (errClr s).emitted = s.emitted := rfl

/-! `txDoneClr` -/

@[simp] theorem txDoneClr_now (s : State) : (txDoneClr s).now = s.now := rfl
@[simp] theorem txDoneClr_host (s : State) : (txDoneClr s).host = s.host := rfl
@[simp] theorem txDoneClr_rx (s : State) : (txDoneClr s).rx = s.rx := rfl
@[simp] theorem txDoneClr_hold (s : State) : (txDoneClr s).hold = s.hold := rfl
@[simp] theorem txDoneClr_ev (s : State) : (txDoneClr s).ev = s.ev := rfl
@[simp] theorem txDoneClr_syncLow (s : State) : (txDoneClr s).syncLow = s.syncLow := rfl
@[simp] theorem txDoneClr_mem (s : State) : (txDoneClr s).mem = s.mem := rfl
@[simp] theorem txDoneClr_inputs (s : State) : (txDoneClr s).inputs = s.inputs := rfl
@[simp] theorem txDoneClr_busRdata (s : State) : (txDoneClr s).busRdata = s.busRdata := rfl
@[simp] theorem txDoneClr_emitted (s : State) : (txDoneClr s).emitted = s.emitted := rfl

/-! `setRxEn` -/

@[simp] theorem setRxEn_now (e : Bool) (s : State) : (setRxEn e s).now = s.now := rfl
@[simp] theorem setRxEn_tx (e : Bool) (s : State) : (setRxEn e s).tx = s.tx := rfl
@[simp] theorem setRxEn_rx (e : Bool) (s : State) : (setRxEn e s).rx = s.rx := rfl
@[simp] theorem setRxEn_hold (e : Bool) (s : State) : (setRxEn e s).hold = s.hold := rfl
@[simp] theorem setRxEn_ev (e : Bool) (s : State) : (setRxEn e s).ev = s.ev := rfl
@[simp] theorem setRxEn_syncLow (e : Bool) (s : State) : (setRxEn e s).syncLow = s.syncLow := rfl
@[simp] theorem setRxEn_mem (e : Bool) (s : State) : (setRxEn e s).mem = s.mem := rfl
@[simp] theorem setRxEn_inputs (e : Bool) (s : State) : (setRxEn e s).inputs = s.inputs := rfl
@[simp] theorem setRxEn_busRdata (e : Bool) (s : State) : (setRxEn e s).busRdata = s.busRdata := rfl
@[simp] theorem setRxEn_emitted (e : Bool) (s : State) : (setRxEn e s).emitted = s.emitted := rfl

/-! `enterRecovery` -/

@[simp] theorem enterRecovery_now (s : State) : (enterRecovery s).now = s.now := rfl
@[simp] theorem enterRecovery_host (s : State) : (enterRecovery s).host = s.host := rfl
@[simp] theorem enterRecovery_tx (s : State) : (enterRecovery s).tx = s.tx := rfl
@[simp] theorem enterRecovery_hold (s : State) : (enterRecovery s).hold = s.hold := rfl
@[simp] theorem enterRecovery_ev (s : State) : (enterRecovery s).ev = s.ev := rfl
@[simp] theorem enterRecovery_syncLow (s : State) : (enterRecovery s).syncLow = s.syncLow := rfl
@[simp] theorem enterRecovery_mem (s : State) : (enterRecovery s).mem = s.mem := rfl
@[simp] theorem enterRecovery_inputs (s : State) : (enterRecovery s).inputs = s.inputs := rfl
@[simp] theorem enterRecovery_busRdata (s : State) : (enterRecovery s).busRdata = s.busRdata := rfl
@[simp] theorem enterRecovery_emitted (s : State) : (enterRecovery s).emitted = s.emitted := rfl

/-! `frameIdle` -/

@[simp] theorem frameIdle_now (s : State) : (frameIdle s).now = s.now := rfl
@[simp] theorem frameIdle_host (s : State) : (frameIdle s).host = s.host := rfl
@[simp] theorem frameIdle_tx (s : State) : (frameIdle s).tx = s.tx := rfl
@[simp] theorem frameIdle_hold (s : State) : (frameIdle s).hold = s.hold := rfl
@[simp] theorem frameIdle_ev (s : State) : (frameIdle s).ev = s.ev := rfl
@[simp] theorem frameIdle_syncLow (s : State) : (frameIdle s).syncLow = s.syncLow := rfl
@[simp] theorem frameIdle_mem (s : State) : (frameIdle s).mem = s.mem := rfl
@[simp] theorem frameIdle_inputs (s : State) : (frameIdle s).inputs = s.inputs := rfl
@[simp] theorem frameIdle_busRdata (s : State) : (frameIdle s).busRdata = s.busRdata := rfl
@[simp] theorem frameIdle_emitted (s : State) : (frameIdle s).emitted = s.emitted := rfl

/-! `extractPayload` -/

@[simp] theorem extractPayload_now (s : State) : (extractPayload s).now = s.now := rfl
@[simp] theorem extractPayload_host (s : State) : (extractPayload s).host = s.host := rfl
@[simp] theorem extractPayload_tx (s : State) : (extractPayload s).tx = s.tx := rfl
@[simp] theorem extractPayload_rx (s : State) : (extractPayload s).rx = s.rx := rfl
@[simp] theorem extractPayload_hold (s : State) : (extractPayload s).hold = s.hold := rfl
@[simp] theorem extractPayload_ev (s : State) : (extractPayload s).ev = s.ev := rfl
@[simp] theorem extractPayload_syncLow (s : State) : (extractPayload s).syncLow = s.syncLow := rfl
@[simp] theorem extractPayload_inputs (s : State) : (extractPayload s).inputs = s.inputs := rfl
@[simp] theorem extractPayload_busRdata (s : State) : (extractPayload s).busRdata = s.busRdata := rfl
@[simp] theorem extractPayload_emitted (s : State) : (extractPayload s).emitted = s.emitted := rfl

/-! `beginCycle` -/

@[simp] theorem beginCycle_now (s : State) : (beginCycle s).now = s.now := rfl
@[simp] theorem beginCycle_host (s : State) : (beginCycle s).host = s.host := rfl
@[simp] theorem beginCycle_tx (s : State) : (beginCycle s).tx = s.tx := rfl
@[simp] theorem beginCycle_rx (s : State) : (beginCycle s).rx = s.rx := rfl
@[simp] theorem beginCycle_hold (s : State) : (beginCycle s).hold = s.hold := rfl
@[simp] theorem beginCycle_ev (s : State) : (beginCycle s).ev = s.ev := rfl
@[simp] theorem beginCycle_syncLow (s : State) : (beginCycle s).syncLow = s.syncLow := rfl
@[simp] theorem beginCycle_mem (s : State) : (beginCycle s).mem = s.mem := rfl

/-! `clearEvents` -/

@[simp] theorem clearEvents_now (s : State) : (clearEvents s).now = s.now := rfl
@[simp] theorem clearEvents_host (s : State) : (clearEvents s).host = s.host := rfl
@[simp] theorem clearEvents_tx (s : State) : (clearEvents s).tx = s.tx := rfl
@[simp] theorem clearEvents_rx (s : State) : (clearEvents s).rx = s.rx := rfl
@[simp] theorem clearEvents_hold (s : State) : (clearEvents s).hold = s.hold := rfl
@[simp] theorem clearEvents_syncLow (s : State) : (clearEvents s).syncLow = s.syncLow := rfl
@[simp] theorem clearEvents_mem (s : State) : (clearEvents s).mem = s.mem := rfl
@[simp] theorem clearEvents_inputs (s : State) : (clearEvents s).inputs = s.inputs := rfl
@[simp] theorem clearEvents_busRdata (s : State) : (clearEvents s).busRdata = s.busRdata := rfl
@[simp] theorem clearEvents_emitted (s : State) : (clearEvents s).emitted = s.emitted := rfl

/-! `endCycle` -/

@[simp] theorem endCycle_host (rxd : Bool) (s : State) : (endCycle rxd s).host = s.host := rfl
@[simp] theorem endCycle_tx (rxd : Bool) (s : State) : (endCycle rxd s).tx = s.tx := rfl
@[simp] theorem endCycle_rx (rxd : Bool) (s : State) : (endCycle rxd s).rx = s.rx := rfl
@[simp] theorem endCycle_hold (rxd : Bool) (s : State) : (endCycle rxd s).hold = s.hold := rfl
@[simp] theorem endCycle_ev (rxd : Bool) (s : State) : (endCycle rxd s).ev = s.ev := rfl
@[simp] theorem endCycle_mem (rxd : Bool) (s : State) : (endCycle rxd s).mem = s.mem := rfl
@[simp] theorem endCycle_inputs (rxd : Bool) (s : State) : (endCycle rxd s).inputs = s.inputs := rfl
@[simp] theorem endCycle_busRdata (rxd : Bool) (s : State) : (endCycle rxd s).busRdata = s.busRdata := rfl
@[simp] theorem endCycle_emitted (rxd : Bool) (s : State) : (endCycle rxd s).emitted = s.emitted := rfl

/-! `txStep` -/

@[simp] theorem txStep_now (s : State) : (txStep s).now = s.now := rfl
@[simp] theorem txStep_host (s : State) : (txStep s).host = s.host := rfl
@[simp] theorem txStep_rx (s : State) : (txStep s).rx = s.rx := rfl
@[simp] theorem txStep_hold (s : State) : (txStep s).hold = s.hold := rfl
@[simp] theorem txStep_ev (s : State) : (txStep s).ev = s.ev := rfl
@[simp] theorem txStep_syncLow (s : State) : (txStep s).syncLow = s.syncLow := rfl
@[simp] theorem txStep_mem (s : State) : (txStep s).mem = s.mem := rfl
@[simp] theorem txStep_inputs (s : State) : (txStep s).inputs = s.inputs := rfl
@[simp] theorem txStep_busRdata (s : State) : (txStep s).busRdata = s.busRdata := rfl
@[simp] theorem txStep_emitted (s : State) : (txStep s).emitted = s.emitted := rfl

/-! `hdrDecode` -/

@[simp] theorem hdrDecode_now (s : State) : (hdrDecode s).now = s.now := rfl
@[simp] theorem hdrDecode_host (s : State) : (hdrDecode s).host = s.host := rfl
@[simp] theorem hdrDecode_tx (s : State) : (hdrDecode s).tx = s.tx := rfl
@[simp] theorem hdrDecode_hold (s : State) : (hdrDecode s).hold = s.hold := rfl
@[simp] theorem hdrDecode_ev (s : State) : (hdrDecode s).ev = s.ev := rfl
@[simp] theorem hdrDecode_syncLow (s : State) : (hdrDecode s).syncLow = s.syncLow := rfl
@[simp] theorem hdrDecode_mem (s : State) : (hdrDecode s).mem = s.mem := rfl
@[simp] theorem hdrDecode_inputs (s : State) : (hdrDecode s).inputs = s.inputs := rfl
@[simp] theorem hdrDecode_busRdata (s : State) : (hdrDecode s).busRdata = s.busRdata := rfl
@[simp] theorem hdrDecode_emitted (s : State) : (hdrDecode s).emitted = s.emitted := rfl

/-! What the short updates set -/

@[simp] theorem raiseFlag_errFlags (e : ErrCode) (s : State) :
    (raiseFlag e s).host.errFlags = setErrBit s.host.errFlags e := rfl
@[simp] theorem setRxEn_rxEn (e : Bool) (s : State) : (setRxEn e s).host.rxEn = e := rfl
@[simp] theorem errClr_errFlags (s : State) : (errClr s).host.errFlags = 0x00#8 := rfl
@[simp] theorem rxAck_ready (s : State) : (rxAck s).hold.ready = false := rfl
@[simp] theorem txDoneClr_done (s : State) : (txDoneClr s).tx.done = false := rfl
@[simp] theorem enterRecovery_st (s : State) : (enterRecovery s).rx.st = .recovery := rfl
@[simp] theorem enterRecovery_qStart (s : State) : (enterRecovery s).rx.qStart = s.now := rfl
@[simp] theorem enterRecovery_q (s : State) : (enterRecovery s).rx.q = s.host.quiet := rfl
@[simp] theorem enterRecovery_idx (s : State) : (enterRecovery s).rx.idx = 0#7 := rfl
@[simp] theorem frameIdle_st (s : State) : (frameIdle s).rx.st = .idle := rfl
@[simp] theorem frameIdle_idx (s : State) : (frameIdle s).rx.idx = 0#7 := rfl
@[simp] theorem txStep_tx (s : State) : (txStep s).tx = txAdvance s := rfl
@[simp] theorem endCycle_now (rxd : Bool) (s : State) : (endCycle rxd s).now = s.now + 1#32 := rfl
@[simp] theorem endCycle_syncLow (rxd : Bool) (s : State) : (endCycle rxd s).syncLow = shiftSync rxd s.syncLow := rfl
@[simp] theorem beginCycle_busRdata (s : State) : (beginCycle s).busRdata = 0x00#8 := rfl
@[simp] theorem beginCycle_emitted (s : State) : (beginCycle s).emitted = [] := rfl
@[simp] theorem beginCycle_inputs (s : State) : (beginCycle s).inputs = s.inputs.tail := rfl
@[simp] theorem clearEvents_ev (s : State) :
    (clearEvents s).ev = { dispatch := false, valid := false, syncErr := false } := rfl

/-- A buffer's bytes are those of the memory alone. -/
theorem bufByte_eq_of_mem {s t : State} (h : s.mem = t.mem) (b : Buffer) (i : Nat) : s.bufByte b i = t.bufByte b i := by
  unfold State.bufByte
  rw [h]

theorem bufBytes_eq_of_mem {s t : State} (h : s.mem = t.mem) (b : Buffer) : s.bufBytes b = t.bufBytes b := by
  unfold State.bufBytes
  exact List.map_congr_left fun i _ => bufByte_eq_of_mem h b i

end Sys2Proof.Machine
end

