-- ==== Sys2Proof/Laws/Ops.lean ====
section
/-! SUPPORT. One lemma per shared operation that says what it can do: the fields that an operation with cases leaves
unchanged, the cases of ENCODE, TX_START, the command byte, DISPATCH, the engines and the step. -/

namespace Sys2Proof.Machine

/-! ### Fields that operations with cases leave unchanged -/

@[simp] theorem raiseFlagIf_now (c : Bool) (e : ErrCode) (s : State) : (raiseFlagIf c e s).now = s.now := by cases c <;> rfl
@[simp] theorem raiseFlagIf_tx (c : Bool) (e : ErrCode) (s : State) : (raiseFlagIf c e s).tx = s.tx := by cases c <;> rfl
@[simp] theorem raiseFlagIf_rx (c : Bool) (e : ErrCode) (s : State) : (raiseFlagIf c e s).rx = s.rx := by cases c <;> rfl
@[simp] theorem raiseFlagIf_hold (c : Bool) (e : ErrCode) (s : State) : (raiseFlagIf c e s).hold = s.hold := by cases c <;> rfl
@[simp] theorem raiseFlagIf_ev (c : Bool) (e : ErrCode) (s : State) : (raiseFlagIf c e s).ev = s.ev := by cases c <;> rfl
@[simp] theorem raiseFlagIf_syncLow (c : Bool) (e : ErrCode) (s : State) : (raiseFlagIf c e s).syncLow = s.syncLow := by cases c <;> rfl
@[simp] theorem raiseFlagIf_mem (c : Bool) (e : ErrCode) (s : State) : (raiseFlagIf c e s).mem = s.mem := by cases c <;> rfl
@[simp] theorem raiseFlagIf_inputs (c : Bool) (e : ErrCode) (s : State) : (raiseFlagIf c e s).inputs = s.inputs := by cases c <;> rfl
@[simp] theorem raiseFlagIf_busRdata (c : Bool) (e : ErrCode) (s : State) : (raiseFlagIf c e s).busRdata = s.busRdata := by cases c <;> rfl
@[simp] theorem raiseFlagIf_emitted (c : Bool) (e : ErrCode) (s : State) : (raiseFlagIf c e s).emitted = s.emitted := by cases c <;> rfl

@[simp] theorem setBufByte_now (s : State) (b : Buffer) (i : Nat) (v : Byte) : (s.setBufByte b i v).now = s.now := rfl
@[simp] theorem setBufByte_host (s : State) (b : Buffer) (i : Nat) (v : Byte) : (s.setBufByte b i v).host = s.host := rfl
@[simp] theorem setBufByte_tx (s : State) (b : Buffer) (i : Nat) (v : Byte) : (s.setBufByte b i v).tx = s.tx := rfl
@[simp] theorem setBufByte_rx (s : State) (b : Buffer) (i : Nat) (v : Byte) : (s.setBufByte b i v).rx = s.rx := rfl
@[simp] theorem setBufByte_hold (s : State) (b : Buffer) (i : Nat) (v : Byte) : (s.setBufByte b i v).hold = s.hold := rfl
@[simp] theorem setBufByte_ev (s : State) (b : Buffer) (i : Nat) (v : Byte) : (s.setBufByte b i v).ev = s.ev := rfl
@[simp] theorem setBufByte_syncLow (s : State) (b : Buffer) (i : Nat) (v : Byte) : (s.setBufByte b i v).syncLow = s.syncLow := rfl
@[simp] theorem setBufByte_inputs (s : State) (b : Buffer) (i : Nat) (v : Byte) : (s.setBufByte b i v).inputs = s.inputs := rfl
@[simp] theorem setBufByte_busRdata (s : State) (b : Buffer) (i : Nat) (v : Byte) : (s.setBufByte b i v).busRdata = s.busRdata := rfl
@[simp] theorem setBufByte_emitted (s : State) (b : Buffer) (i : Nat) (v : Byte) : (s.setBufByte b i v).emitted = s.emitted := rfl

@[simp] theorem abortFlag_now (e : SyncFailure) (s : State) : (abortFlag e s).now = s.now := by cases e <;> rfl
@[simp] theorem abortFlag_tx (e : SyncFailure) (s : State) : (abortFlag e s).tx = s.tx := by cases e <;> rfl
@[simp] theorem abortFlag_rx (e : SyncFailure) (s : State) : (abortFlag e s).rx = s.rx := by cases e <;> rfl
@[simp] theorem abortFlag_hold (e : SyncFailure) (s : State) : (abortFlag e s).hold = s.hold := by cases e <;> rfl
@[simp] theorem abortFlag_ev (e : SyncFailure) (s : State) : (abortFlag e s).ev = s.ev := by cases e <;> rfl
@[simp] theorem abortFlag_syncLow (e : SyncFailure) (s : State) : (abortFlag e s).syncLow = s.syncLow := by cases e <;> rfl
@[simp] theorem abortFlag_mem (e : SyncFailure) (s : State) : (abortFlag e s).mem = s.mem := by cases e <;> rfl
@[simp] theorem abortFlag_inputs (e : SyncFailure) (s : State) : (abortFlag e s).inputs = s.inputs := by cases e <;> rfl
@[simp] theorem abortFlag_busRdata (e : SyncFailure) (s : State) : (abortFlag e s).busRdata = s.busRdata := by cases e <;> rfl
@[simp] theorem abortFlag_emitted (e : SyncFailure) (s : State) : (abortFlag e s).emitted = s.emitted := by cases e <;> rfl

@[simp] theorem abortFrame_now (e : SyncFailure) (s : State) : (abortFrame e s).now = s.now := by cases e <;> rfl
@[simp] theorem abortFrame_tx (e : SyncFailure) (s : State) : (abortFrame e s).tx = s.tx := by cases e <;> rfl
@[simp] theorem abortFrame_hold (e : SyncFailure) (s : State) : (abortFrame e s).hold = s.hold := by cases e <;> rfl
@[simp] theorem abortFrame_syncLow (e : SyncFailure) (s : State) : (abortFrame e s).syncLow = s.syncLow := by cases e <;> rfl
@[simp] theorem abortFrame_mem (e : SyncFailure) (s : State) : (abortFrame e s).mem = s.mem := by cases e <;> rfl
@[simp] theorem abortFrame_inputs (e : SyncFailure) (s : State) : (abortFrame e s).inputs = s.inputs := by cases e <;> rfl
@[simp] theorem abortFrame_busRdata (e : SyncFailure) (s : State) : (abortFrame e s).busRdata = s.busRdata := by cases e <;> rfl

@[simp] theorem recoveryPoll_now (line : Bool) (s : State) : (recoveryPoll line s).now = s.now := by
  unfold recoveryPoll; split_ifs <;> rfl
@[simp] theorem recoveryPoll_host (line : Bool) (s : State) : (recoveryPoll line s).host = s.host := by
  unfold recoveryPoll; split_ifs <;> rfl
@[simp] theorem recoveryPoll_tx (line : Bool) (s : State) : (recoveryPoll line s).tx = s.tx := by
  unfold recoveryPoll; split_ifs <;> rfl
@[simp] theorem recoveryPoll_hold (line : Bool) (s : State) : (recoveryPoll line s).hold = s.hold := by
  unfold recoveryPoll; split_ifs <;> rfl
@[simp] theorem recoveryPoll_ev (line : Bool) (s : State) : (recoveryPoll line s).ev = s.ev := by
  unfold recoveryPoll; split_ifs <;> rfl
@[simp] theorem recoveryPoll_syncLow (line : Bool) (s : State) : (recoveryPoll line s).syncLow = s.syncLow := by
  unfold recoveryPoll; split_ifs <;> rfl
@[simp] theorem recoveryPoll_mem (line : Bool) (s : State) : (recoveryPoll line s).mem = s.mem := by
  unfold recoveryPoll; split_ifs <;> rfl
@[simp] theorem recoveryPoll_inputs (line : Bool) (s : State) : (recoveryPoll line s).inputs = s.inputs := by
  unfold recoveryPoll; split_ifs <;> rfl
@[simp] theorem recoveryPoll_busRdata (line : Bool) (s : State) : (recoveryPoll line s).busRdata = s.busRdata := by
  unfold recoveryPoll; split_ifs <;> rfl
@[simp] theorem recoveryPoll_emitted (line : Bool) (s : State) : (recoveryPoll line s).emitted = s.emitted := by
  unfold recoveryPoll; split_ifs <;> rfl

@[simp] theorem encodeFrame_now (s : State) : (encodeFrame s).now = s.now := by
  unfold encodeFrame; split <;> rfl
@[simp] theorem encodeFrame_tx (s : State) : (encodeFrame s).tx = s.tx := by
  unfold encodeFrame; split <;> rfl
@[simp] theorem encodeFrame_rx (s : State) : (encodeFrame s).rx = s.rx := by
  unfold encodeFrame; split <;> rfl
@[simp] theorem encodeFrame_hold (s : State) : (encodeFrame s).hold = s.hold := by
  unfold encodeFrame; split <;> rfl
@[simp] theorem encodeFrame_ev (s : State) : (encodeFrame s).ev = s.ev := by
  unfold encodeFrame; split <;> rfl
@[simp] theorem encodeFrame_syncLow (s : State) : (encodeFrame s).syncLow = s.syncLow := by
  unfold encodeFrame; split <;> rfl
@[simp] theorem encodeFrame_inputs (s : State) : (encodeFrame s).inputs = s.inputs := by
  unfold encodeFrame; split <;> rfl
@[simp] theorem encodeFrame_busRdata (s : State) : (encodeFrame s).busRdata = s.busRdata := by
  unfold encodeFrame; split <;> rfl
@[simp] theorem encodeFrame_emitted (s : State) : (encodeFrame s).emitted = s.emitted := by
  unfold encodeFrame; split <;> rfl

@[simp] theorem encOnly_now (s : State) : (encOnly s).now = s.now := by
  unfold encOnly; split <;> simp
@[simp] theorem encOnly_tx (s : State) : (encOnly s).tx = s.tx := by
  unfold encOnly; split <;> simp
@[simp] theorem encOnly_rx (s : State) : (encOnly s).rx = s.rx := by
  unfold encOnly; split <;> simp
@[simp] theorem encOnly_hold (s : State) : (encOnly s).hold = s.hold := by
  unfold encOnly; split <;> simp
@[simp] theorem encOnly_ev (s : State) : (encOnly s).ev = s.ev := by
  unfold encOnly; split <;> simp
@[simp] theorem encOnly_syncLow (s : State) : (encOnly s).syncLow = s.syncLow := by
  unfold encOnly; split <;> simp
@[simp] theorem encOnly_inputs (s : State) : (encOnly s).inputs = s.inputs := by
  unfold encOnly; split <;> simp
@[simp] theorem encOnly_busRdata (s : State) : (encOnly s).busRdata = s.busRdata := by
  unfold encOnly; split <;> simp
@[simp] theorem encOnly_emitted (s : State) : (encOnly s).emitted = s.emitted := by
  unfold encOnly; split <;> simp

@[simp] theorem txStart_now (s : State) : (txStart s).now = s.now := by
  unfold txStart; split_ifs <;> simp
@[simp] theorem txStart_rx (s : State) : (txStart s).rx = s.rx := by
  unfold txStart; split_ifs <;> simp
@[simp] theorem txStart_hold (s : State) : (txStart s).hold = s.hold := by
  unfold txStart; split_ifs <;> simp
@[simp] theorem txStart_ev (s : State) : (txStart s).ev = s.ev := by
  unfold txStart; split_ifs <;> simp
@[simp] theorem txStart_syncLow (s : State) : (txStart s).syncLow = s.syncLow := by
  unfold txStart; split_ifs <;> simp
@[simp] theorem txStart_inputs (s : State) : (txStart s).inputs = s.inputs := by
  unfold txStart; split_ifs <;> simp
@[simp] theorem txStart_busRdata (s : State) : (txStart s).busRdata = s.busRdata := by
  unfold txStart; split_ifs <;> simp
@[simp] theorem txStart_emitted (s : State) : (txStart s).emitted = s.emitted := by
  unfold txStart; split_ifs <;> simp

@[simp] theorem ctrlWrite_now (v : Byte) (s : State) : (ctrlWrite v s).now = s.now := by
  simp only [ctrlWrite, runIf]; split_ifs <;> simp
@[simp] theorem ctrlWrite_rx (v : Byte) (s : State) : (ctrlWrite v s).rx = s.rx := by
  simp only [ctrlWrite, runIf]; split_ifs <;> simp
@[simp] theorem ctrlWrite_ev (v : Byte) (s : State) : (ctrlWrite v s).ev = s.ev := by
  simp only [ctrlWrite, runIf]; split_ifs <;> simp
@[simp] theorem ctrlWrite_syncLow (v : Byte) (s : State) : (ctrlWrite v s).syncLow = s.syncLow := by
  simp only [ctrlWrite, runIf]; split_ifs <;> simp
@[simp] theorem ctrlWrite_inputs (v : Byte) (s : State) : (ctrlWrite v s).inputs = s.inputs := by
  simp only [ctrlWrite, runIf]; split_ifs <;> simp
@[simp] theorem ctrlWrite_busRdata (v : Byte) (s : State) : (ctrlWrite v s).busRdata = s.busRdata := by
  simp only [ctrlWrite, runIf]; split_ifs <;> simp
@[simp] theorem ctrlWrite_emitted (v : Byte) (s : State) : (ctrlWrite v s).emitted = s.emitted := by
  simp only [ctrlWrite, runIf]; split_ifs <;> simp

@[simp] theorem busWrite_now (s : State) (a : Addr) (v : Byte) : (s.busWrite a v).now = s.now := by
  unfold State.busWrite; split <;> (try split) <;> rfl
@[simp] theorem busWrite_tx (s : State) (a : Addr) (v : Byte) : (s.busWrite a v).tx = s.tx := by
  unfold State.busWrite; split <;> (try split) <;> rfl
@[simp] theorem busWrite_rx (s : State) (a : Addr) (v : Byte) : (s.busWrite a v).rx = s.rx := by
  unfold State.busWrite; split <;> (try split) <;> rfl
@[simp] theorem busWrite_hold (s : State) (a : Addr) (v : Byte) : (s.busWrite a v).hold = s.hold := by
  unfold State.busWrite; split <;> (try split) <;> rfl
@[simp] theorem busWrite_ev (s : State) (a : Addr) (v : Byte) : (s.busWrite a v).ev = s.ev := by
  unfold State.busWrite; split <;> (try split) <;> rfl
@[simp] theorem busWrite_syncLow (s : State) (a : Addr) (v : Byte) : (s.busWrite a v).syncLow = s.syncLow := by
  unfold State.busWrite; split <;> (try split) <;> rfl
@[simp] theorem busWrite_inputs (s : State) (a : Addr) (v : Byte) : (s.busWrite a v).inputs = s.inputs := by
  unfold State.busWrite; split <;> (try split) <;> rfl
@[simp] theorem busWrite_busRdata (s : State) (a : Addr) (v : Byte) : (s.busWrite a v).busRdata = s.busRdata := by
  unfold State.busWrite; split <;> (try split) <;> rfl
@[simp] theorem busWrite_emitted (s : State) (a : Addr) (v : Byte) : (s.busWrite a v).emitted = s.emitted := by
  unfold State.busWrite; split <;> (try split) <;> rfl

@[simp] theorem dispatchFrame_now (cmd : BitVec 4) (s : State) : (dispatchFrame cmd s).now = s.now := by
  simp [dispatchFrame]
@[simp] theorem dispatchFrame_tx (cmd : BitVec 4) (s : State) : (dispatchFrame cmd s).tx = s.tx := by
  simp [dispatchFrame]
@[simp] theorem dispatchFrame_rx (cmd : BitVec 4) (s : State) : (dispatchFrame cmd s).rx = s.rx := by
  simp [dispatchFrame]
@[simp] theorem dispatchFrame_syncLow (cmd : BitVec 4) (s : State) : (dispatchFrame cmd s).syncLow = s.syncLow := by
  simp [dispatchFrame]
@[simp] theorem dispatchFrame_inputs (cmd : BitVec 4) (s : State) : (dispatchFrame cmd s).inputs = s.inputs := by
  simp [dispatchFrame]
@[simp] theorem dispatchFrame_busRdata (cmd : BitVec 4) (s : State) : (dispatchFrame cmd s).busRdata = s.busRdata := by
  simp [dispatchFrame]

@[simp] theorem deliverFrame_now (cmd : BitVec 4) (s : State) : (deliverFrame cmd s).now = s.now := by
  unfold deliverFrame; split <;> simp
@[simp] theorem deliverFrame_tx (cmd : BitVec 4) (s : State) : (deliverFrame cmd s).tx = s.tx := by
  unfold deliverFrame; split <;> simp
@[simp] theorem deliverFrame_syncLow (cmd : BitVec 4) (s : State) : (deliverFrame cmd s).syncLow = s.syncLow := by
  unfold deliverFrame; split <;> simp
@[simp] theorem deliverFrame_inputs (cmd : BitVec 4) (s : State) : (deliverFrame cmd s).inputs = s.inputs := by
  unfold deliverFrame; split <;> simp
@[simp] theorem deliverFrame_busRdata (cmd : BitVec 4) (s : State) : (deliverFrame cmd s).busRdata = s.busRdata := by
  unfold deliverFrame; split <;> simp

@[simp] theorem commitStore_now (s : State) : (commitStore s).now = s.now := by
  simp [commitStore]
@[simp] theorem commitStore_host (s : State) : (commitStore s).host = s.host := by
  simp [commitStore]
@[simp] theorem commitStore_tx (s : State) : (commitStore s).tx = s.tx := by
  simp [commitStore]
@[simp] theorem commitStore_hold (s : State) : (commitStore s).hold = s.hold := by
  simp [commitStore]
@[simp] theorem commitStore_ev (s : State) : (commitStore s).ev = s.ev := by
  simp [commitStore]
@[simp] theorem commitStore_syncLow (s : State) : (commitStore s).syncLow = s.syncLow := by
  simp [commitStore]
@[simp] theorem commitStore_inputs (s : State) : (commitStore s).inputs = s.inputs := by
  simp [commitStore]
@[simp] theorem commitStore_busRdata (s : State) : (commitStore s).busRdata = s.busRdata := by
  simp [commitStore]
@[simp] theorem commitStore_emitted (s : State) : (commitStore s).emitted = s.emitted := by
  simp [commitStore]

@[simp] theorem commitNext_now (s : State) : (commitNext s).now = s.now := by
  unfold commitNext; split <;> rfl
@[simp] theorem commitNext_host (s : State) : (commitNext s).host = s.host := by
  unfold commitNext; split <;> rfl
@[simp] theorem commitNext_tx (s : State) : (commitNext s).tx = s.tx := by
  unfold commitNext; split <;> rfl
@[simp] theorem commitNext_hold (s : State) : (commitNext s).hold = s.hold := by
  unfold commitNext; split <;> rfl
@[simp] theorem commitNext_ev (s : State) : (commitNext s).ev = s.ev := by
  unfold commitNext; split <;> rfl
@[simp] theorem commitNext_syncLow (s : State) : (commitNext s).syncLow = s.syncLow := by
  unfold commitNext; split <;> rfl
@[simp] theorem commitNext_mem (s : State) : (commitNext s).mem = s.mem := by
  unfold commitNext; split <;> rfl
@[simp] theorem commitNext_inputs (s : State) : (commitNext s).inputs = s.inputs := by
  unfold commitNext; split <;> rfl
@[simp] theorem commitNext_busRdata (s : State) : (commitNext s).busRdata = s.busRdata := by
  unfold commitNext; split <;> rfl
@[simp] theorem commitNext_emitted (s : State) : (commitNext s).emitted = s.emitted := by
  unfold commitNext; split <;> rfl

@[simp] theorem commitByte_now (s : State) : (commitByte s).now = s.now := by
  simp only [commitByte]; split_ifs <;> simp
@[simp] theorem commitByte_tx (s : State) : (commitByte s).tx = s.tx := by
  simp only [commitByte]; split_ifs <;> simp
@[simp] theorem commitByte_hold (s : State) : (commitByte s).hold = s.hold := by
  simp only [commitByte]; split_ifs <;> simp
@[simp] theorem commitByte_syncLow (s : State) : (commitByte s).syncLow = s.syncLow := by
  simp only [commitByte]; split_ifs <;> simp
@[simp] theorem commitByte_inputs (s : State) : (commitByte s).inputs = s.inputs := by
  simp only [commitByte]; split_ifs <;> simp
@[simp] theorem commitByte_busRdata (s : State) : (commitByte s).busRdata = s.busRdata := by
  simp only [commitByte]; split_ifs <;> simp

@[simp] theorem rxPoll_now (line : Bool) (s : State) : (rxPoll line s).now = s.now := by
  unfold rxPoll rxHold rxFrameIdle rxByteIdle rxReceivingBits rxVerifyStop1 rxVerifyStop2 rxVerifyFrameParity
    rxVerifyFinalStop
  split_ifs <;> (try split) <;> simp
@[simp] theorem rxPoll_tx (line : Bool) (s : State) : (rxPoll line s).tx = s.tx := by
  unfold rxPoll rxHold rxFrameIdle rxByteIdle rxReceivingBits rxVerifyStop1 rxVerifyStop2 rxVerifyFrameParity
    rxVerifyFinalStop
  split_ifs <;> (try split) <;> simp
@[simp] theorem rxPoll_hold (line : Bool) (s : State) : (rxPoll line s).hold = s.hold := by
  unfold rxPoll rxHold rxFrameIdle rxByteIdle rxReceivingBits rxVerifyStop1 rxVerifyStop2 rxVerifyFrameParity
    rxVerifyFinalStop
  split_ifs <;> (try split) <;> simp
@[simp] theorem rxPoll_syncLow (line : Bool) (s : State) : (rxPoll line s).syncLow = s.syncLow := by
  unfold rxPoll rxHold rxFrameIdle rxByteIdle rxReceivingBits rxVerifyStop1 rxVerifyStop2 rxVerifyFrameParity
    rxVerifyFinalStop
  split_ifs <;> (try split) <;> simp
@[simp] theorem rxPoll_inputs (line : Bool) (s : State) : (rxPoll line s).inputs = s.inputs := by
  unfold rxPoll rxHold rxFrameIdle rxByteIdle rxReceivingBits rxVerifyStop1 rxVerifyStop2 rxVerifyFrameParity
    rxVerifyFinalStop
  split_ifs <;> (try split) <;> simp
@[simp] theorem rxPoll_busRdata (line : Bool) (s : State) : (rxPoll line s).busRdata = s.busRdata := by
  unfold rxPoll rxHold rxFrameIdle rxByteIdle rxReceivingBits rxVerifyStop1 rxVerifyStop2 rxVerifyFrameParity
    rxVerifyFinalStop
  split_ifs <;> (try split) <;> simp

/-! ### The error flags -/

/-- Setting an error flag sets its bit and keeps the others. -/
theorem setErrBit_getLsbD (f : Byte) (e : ErrCode) (k : Nat) :
    (setErrBit f e).getLsbD k = (f.getLsbD k || decide (k = e.bit)) := by
  unfold setErrBit
  by_cases hk : k < 8
  · have : k = 0 ∨ k = 1 ∨ k = 2 ∨ k = 3 ∨ k = 4 ∨ k = 5 ∨ k = 6 ∨ k = 7 := by omega
    rcases this with rfl | rfl | rfl | rfl | rfl | rfl | rfl | rfl <;> cases e <;> simp [ErrCode.bit]
  · have h1 : k ≠ e.bit := by cases e <;> simp only [ErrCode.bit] <;> omega
    rw [BitVec.getLsbD_of_ge _ _ (by omega), BitVec.getLsbD_of_ge _ _ (by omega)]
    simp [h1]

/-! ### Bits of a register -/

/-- The bits of a register after one of its bytes is replaced. -/
theorem setByte_getLsbD {n : Nat} (r : BitVec n) (k : Nat) (v : Byte) {i : Nat} (hi : i < n) :
    (setByte r k v).getLsbD i = if 8 * k ≤ i ∧ i < 8 * k + 8 then v.getLsbD (i - 8 * k) else r.getLsbD i := by
  unfold setByte
  simp only [BitVec.getLsbD_or, BitVec.getLsbD_shiftLeft, BitVec.getLsbD_ushiftRight, BitVec.getLsbD_setWidth, hi,
    decide_true, Bool.true_and]
  rcases (by omega : i < 8 * k ∨ (8 * k ≤ i ∧ i < 8 * k + 8) ∨ 8 * k + 8 ≤ i) with h | h | h
  · rw [if_neg (by omega)]
    simp [h, show i < 8 * k + 8 by omega]
  · rw [if_pos h]
    simp [h.2, show ¬ i < 8 * k by omega, show i - 8 * k < n by omega]
  · rw [if_neg (by omega), show 8 * k + 8 + (i - (8 * k + 8)) = i by omega]
    simp [show ¬ i < 8 * k + 8 by omega, show ¬ i < 8 * k by omega, v.getLsbD_of_ge _ (by omega : 8 ≤ i - 8 * k)]

/-- Byte `j` of a register after byte `k` is replaced. -/
theorem extract_setByte {n : Nat} (r : BitVec n) (k j : Nat) (v : Byte) (hj : 8 * j + 8 ≤ n) :
    (setByte r k v).extractLsb' (8 * j) 8 = if j = k then v else r.extractLsb' (8 * j) 8 := by
  apply BitVec.eq_of_getLsbD_eq
  intro i hi
  rw [BitVec.getLsbD_extractLsb', setByte_getLsbD _ _ _ (by omega)]
  by_cases h : j = k
  · subst h
    simp [hi]
  · rw [if_neg h, if_neg (by omega), BitVec.getLsbD_extractLsb']

/-- The bits of a byte after one of them is sampled. -/
theorem setSample_getLsbD (b : Byte) {k : Nat} (hk : k < 8) (line : Bool) {i : Nat} (hi : i < 8) :
    (setSample b k line).getLsbD i = if i = k then line else b.getLsbD i := by
  have hcase : i = 0 ∨ i = 1 ∨ i = 2 ∨ i = 3 ∨ i = 4 ∨ i = 5 ∨ i = 6 ∨ i = 7 := by omega
  have kcase : k = 0 ∨ k = 1 ∨ k = 2 ∨ k = 3 ∨ k = 4 ∨ k = 5 ∨ k = 6 ∨ k = 7 := by omega
  rcases hcase with rfl | rfl | rfl | rfl | rfl | rfl | rfl | rfl <;>
    rcases kcase with rfl | rfl | rfl | rfl | rfl | rfl | rfl | rfl <;> cases line <;> simp [setSample]

/-! ### Deadlines -/

/-- A deadline that is now is due (10_state.md R22). -/
theorem due_self (d : Time) : due d d = true := by simp [due]

/-- A deadline ahead by less than 2^31 cycles is due exactly when it is now (10_state.md R22). -/
theorem due_iff_eq {now d : Time} (h : (d - now).toNat < 2 ^ 31) : due now d = true ↔ now = d := by
  simp only [due, decide_eq_true_eq]
  constructor
  · intro h'
    bv_omega
  · rintro rfl
    simp

/-- A deadline ahead that is not due comes one cycle closer. -/
theorem ahead_of_not_due {now d : Time} {k : Nat} (hk : k ≤ 2 ^ 31) (h : (d - now).toNat < k)
    (hd : due now d = false) : (d - (now + 1#32)).toNat + 1 = (d - now).toNat := by
  have hne : now ≠ d := fun e => by subst e; simp [due_self] at hd
  clear hd
  bv_omega

/-! ### ENCODE -/

/-- ENCODE fails exactly where TXLEN is above 63 (40_codec.md R94). -/
theorem encodeFails_iff (s : State) : s.encodeFails = true ↔ 63 < s.host.txLen.toNat := by
  unfold State.encodeFails
  rw [decide_eq_true_eq]
  rfl

theorem encodeFails_false_iff (s : State) : s.encodeFails = false ↔ s.host.txLen.toNat ≤ 63 := by
  rw [← Bool.not_eq_true, encodeFails_iff]
  omega

/-- ENCODE fails with the flag TX_TOO_LARGE and nothing else (40_codec.md R95). -/
theorem encodeFrame_fail {s : State} (h : s.encodeFails = true) : encodeFrame s = raiseFlag .txTooLarge s := by
  simp [encodeFrame, h]

/-- The length of a wire frame is that of its payload and four. -/
@[simp] theorem wireFrame_length (c : BitVec 4) (n : BitVec 7) (p : List Byte) :
    (wireFrame c n p).length = p.length + 4 := by
  simp [wireFrame]

/-- TXPAYLOAD[0..L-1] has L bytes where ENCODE does not fail. -/
theorem txPayloadBytes_length {s : State} (h : s.encodeFails = false) :
    s.txPayloadBytes.length = s.host.txLen.toNat := by
  rw [encodeFails_false_iff] at h
  simp only [State.txPayloadBytes, List.length_take, bufBytes_length, Buffer.size]
  omega

/-- What ENCODE writes (40_codec.md R94). -/
theorem encodeFrame_ok {s : State} (hm : memWf s.mem) (h : s.encodeFails = false) :
    (encodeFrame s).host = { s.host with txWLen := s.host.txLen + 4#7 } ∧
    (encodeFrame s).bufBytes .txWire = wireFrame s.host.txCmd s.host.txLen s.txPayloadBytes
      ++ List.replicate (63 - s.host.txLen.toNat) unlistedByte ∧
    (∀ b i, b ≠ .txWire → (encodeFrame s).bufByte b i = s.bufByte b i) ∧ memWf (encodeFrame s).mem := by
  have hl := txPayloadBytes_length h
  have e : encodeFrame s = { (s.fillBuf .txWire (wireFrame s.host.txCmd s.host.txLen s.txPayloadBytes)) with
      host := { s.host with txWLen := s.host.txLen + 4#7 } } := by
    simp [encodeFrame, h]
  have hmem : (encodeFrame s).mem
      = (s.fillBuf .txWire (wireFrame s.host.txCmd s.host.txLen s.txPayloadBytes)).mem := by rw [e]
  rw [encodeFails_false_iff] at h
  refine ⟨by rw [e], ?_, fun b i hb => ?_, by rw [hmem]; exact memWf_fillBuf hm _ _⟩
  · rw [bufBytes_eq_of_mem hmem, bufBytes_fillBuf_same hm]
    · simp only [wireFrame_length, hl, Buffer.size]
      congr 2
      omega
    · simp only [wireFrame_length, hl, Buffer.size]
      omega
  · rw [bufByte_eq_of_mem hmem, bufByte_fillBuf_ne _ hb]

/-! ### The register space -/

/-- Above the registers, and at the reserved 0x00B, a read shows a buffer byte or 0x00 (10_state.md R24, R44). -/
theorem busRead_of_ge (s : State) (a : Addr) (h : 0x017 ≤ a.toNat ∨ a.toNat = 0x00B) :
    s.busRead a = if isBufferAddr a.toNat = true then memRead s.mem a.toNat else 0x00#8 := by
  unfold State.busRead
  generalize a.toNat = n at h ⊢
  split <;> first | rfl | (exfalso; omega)

/-- A read of a buffer address shows its byte (10_state.md R40-R43). -/
theorem busRead_buffer {s : State} {a : Addr} (h : isBufferAddr a.toNat = true) :
    s.busRead a = memRead s.mem a.toNat := by
  have h' := (isBufferAddr_iff _).1 h
  rw [busRead_of_ge s a (by omega), if_pos h]

/-- A write to an address that is no writable register writes a byte of TXPAYLOAD or nothing (44_host_bus.md R146). -/
theorem busWrite_of_ge (s : State) (a : Addr) (v : Byte)
    (h : 0x010 ≤ a.toNat ∨ a.toNat < 3 ∨ a.toNat = 6 ∨ a.toNat = 7 ∨ a.toNat = 0x00B) :
    s.busWrite a v
      = if Buffer.txPayload.covers a.toNat = true then { s with mem := memWrite s.mem a.toNat v } else s := by
  unfold State.busWrite
  generalize a.toNat = n at h ⊢
  split <;> first | rfl | (exfalso; omega)

/-- A write keeps the buffers in canonical form. -/
theorem memWf_busWrite {s : State} (hm : memWf s.mem) (a : Addr) (v : Byte) : memWf (s.busWrite a v).mem := by
  unfold State.busWrite
  split <;> first | exact hm | skip
  split
  · next h => exact memWf_memWrite hm (by simp [isBufferAddr, h]) v
  · exact hm

/-- The bits of a byte put together from single bits. -/
theorem statusBits (d r a v y b : Bool) :
    let w : Byte := 0#2 ++ BitVec.ofBool d ++ BitVec.ofBool r ++ BitVec.ofBool a ++ BitVec.ofBool v ++ BitVec.ofBool y
      ++ BitVec.ofBool b
    w[0] = b ∧ w[1] = y ∧ w[2] = v ∧ w[3] = a ∧ w[4] = r ∧ w[5] = d ∧ w[6] = false ∧ w[7] = false := by
  revert d r a v y b
  decide

/-- The bits of STATUS (10_state.md R26). -/
theorem status_bits (s : State) :
    s.status[0] = s.txBusy ∧ s.status[1] = s.hold.ready ∧ s.status[2] = s.hold.valid ∧ s.status[3] = s.rxActive ∧
    s.status[4] = s.rxRecovering ∧ s.status[5] = s.tx.done ∧ s.status[6] = false ∧ s.status[7] = false :=
  statusBits _ _ _ _ _ _

/-! ### The commands -/

/-- TX_START is ignored while a frame is being sent (44_host_bus.md R148). -/
theorem txStart_busy {s : State} (h : s.tx.ph ≠ .txIdle) : txStart s = s := by
  simp [txStart, State.txBusy, h]

/-- TX_START with a failing ENCODE sets the flag and starts nothing (44_host_bus.md R148; 40_codec.md R95). -/
theorem txStart_fail {s : State} (h : s.tx.ph = .txIdle) (hf : s.encodeFails = true) :
    txStart s = raiseFlag .txTooLarge s := by
  simp [txStart, State.txBusy, h, hf, encodeFrame]

/-- TX_START accepted: ENCODE, then TXBEGIN (44_host_bus.md R148). -/
theorem txStart_ok {s : State} (h : s.tx.ph = .txIdle) (hf : s.encodeFails = false) :
    txStart s = txBegin (encodeFrame s) := by
  simp [txStart, State.txBusy, h, hf]

/-- ENC_ONLY is ignored while a frame is being sent (44_host_bus.md R149). -/
theorem encOnly_busy {s : State} (h : s.tx.ph ≠ .txIdle) : encOnly s = s := by
  simp [encOnly, State.txBusy, h]

/-- ENC_ONLY on an idle transmitter is ENCODE (44_host_bus.md R149). -/
theorem encOnly_idle {s : State} (h : s.tx.ph = .txIdle) : encOnly s = encodeFrame s := by
  simp [encOnly, State.txBusy, h]

/-- The command byte without an encode command stores RX_EN and clears what its bits say (44_host_bus.md R147). -/
theorem ctrlWrite_clears (e k c d : Bool) (s : State) :
    ctrlWrite (ctrlByte e false false k c d) s = { s with
      hold := { s.hold with ready := if k then false else s.hold.ready }
      host := { s.host with rxEn := e, errFlags := if c then 0x00#8 else s.host.errFlags }
      tx := { s.tx with done := if d then false else s.tx.done } } := by
  cases e <;> cases k <;> cases c <;> cases d <;> rfl

/-- The command byte with TX_START runs it last, and ENC_ONLY not at all (44_host_bus.md R147). -/
theorem ctrlWrite_txStart (e o k c d : Bool) (s : State) :
    ctrlWrite (ctrlByte e true o k c d) s = txStart (ctrlWrite (ctrlByte e false false k c d) s) := by
  cases e <;> cases o <;> cases k <;> cases c <;> cases d <;> rfl

/-- The command byte with ENC_ONLY alone runs it last (44_host_bus.md R147). -/
theorem ctrlWrite_encOnly (e k c d : Bool) (s : State) :
    ctrlWrite (ctrlByte e false true k c d) s = encOnly (ctrlWrite (ctrlByte e false false k c d) s) := by
  cases e <;> cases k <;> cases c <;> cases d <;> rfl

/-- Only bits 5:0 of a command byte count (44_host_bus.md R147). -/
theorem ctrlWrite_bits (v : Byte) (s : State) :
    ctrlWrite v s = ctrlWrite (ctrlByte (v[0]) (v[1]) (v[2]) (v[3]) (v[4]) (v[5])) s := by
  have h : ∀ a b c d e f : Bool, (ctrlByte a b c d e f)[0] = a ∧ (ctrlByte a b c d e f)[1] = b ∧
      (ctrlByte a b c d e f)[2] = c ∧ (ctrlByte a b c d e f)[3] = d ∧ (ctrlByte a b c d e f)[4] = e ∧
      (ctrlByte a b c d e f)[5] = f := by decide
  obtain ⟨h0, h1, h2, h3, h4, h5⟩ := h (v[0]) (v[1]) (v[2]) (v[3]) (v[4]) (v[5])
  simp only [ctrlWrite, h0, h1, h2, h3, h4, h5]

/-! ### Delivery -/

/-- What a conditional flag does to the host registers. -/
theorem raiseFlagIf_host (c : Bool) (e : ErrCode) (s : State) :
    (raiseFlagIf c e s).host
      = { s.host with errFlags := if c then setErrBit s.host.errFlags e else s.host.errFlags } := by
  cases c <;> rfl

/-- DISPATCH sets RX_OVERRUN where a frame was still held, and RX_CHECKSUM where this one is not valid (43_dispatch.md
R131). -/
theorem dispatchFrame_host (cmd : BitVec 4) (s : State) :
    (dispatchFrame cmd s).host = { s.host with
      errFlags := s.host.errFlags ||| (if s.hold.ready then 0x80#8 else 0x00#8)
        ||| (if s.frameValid then 0x00#8 else 0x40#8) } := by
  simp only [dispatchFrame, raiseFlagIf_host]
  generalize s.frameValid = v
  cases s.hold.ready <;> cases v <;> simp [setErrBit, ErrCode.bit, extractPayload]

theorem dispatchFrame_mem (cmd : BitVec 4) (s : State) : (dispatchFrame cmd s).mem = (extractPayload s).mem := by
  simp [dispatchFrame]

theorem dispatchFrame_ev (cmd : BitVec 4) (s : State) :
    (dispatchFrame cmd s).ev = { s.ev with dispatch := true, valid := s.frameValid } := by
  simp [dispatchFrame, extractPayload]

theorem dispatchFrame_emitted (cmd : BitVec 4) (s : State) :
    (dispatchFrame cmd s).emitted
      = s.emitted ++ [.dispatch cmd s.rx.len s.rxFramePayload s.frameValid] := by
  simp [dispatchFrame, extractPayload]

/-- The end of a frame changes only the receiver's own state (42_receiver.md R125; 60_exceptions.md R158). -/
theorem deliverFrame_eq (cmd : BitVec 4) (s : State) :
    deliverFrame cmd s = { dispatchFrame cmd s with
      rx := if s.frameValid then { s.rx with st := .idle, idx := 0#7, bit := 0#4 }
        else { s.rx with st := .recovery, idx := 0#7, bit := 0#4, qStart := s.now, q := s.host.quiet } } := by
  unfold deliverFrame
  split
  · simp [frameIdle]
  · next h => simp [h, enterRecovery, dispatchFrame_host]

/-- The high byte of a checksum put together from two bytes. -/
theorem append_high (a b : Byte) : (a ++ b : BitVec 16).extractLsb' 8 8 = a := by
  apply BitVec.eq_of_getLsbD_eq
  intro i hi
  simp only [BitVec.getLsbD_append, BitVec.getLsbD_extractLsb']
  rw [if_neg (by omega), decide_eq_true (by omega), Bool.true_and]
  congr 1
  omega

/-- The low byte of a checksum put together from two bytes. -/
theorem append_low (a b : Byte) : (a ++ b : BitVec 16).extractLsb' 0 8 = b := by
  apply BitVec.eq_of_getLsbD_eq
  intro i hi
  simp only [BitVec.getLsbD_append, BitVec.getLsbD_extractLsb']
  rw [if_pos (by omega), decide_eq_true (by omega), Bool.true_and]
  congr 1
  omega

/-- A checksum is put together from its two bytes. -/
theorem high_append_low (v : BitVec 16) : v.extractLsb' 8 8 ++ v.extractLsb' 0 8 = v := by
  apply BitVec.eq_of_getLsbD_eq
  intro i hi
  simp only [BitVec.getLsbD_append, BitVec.getLsbD_extractLsb']
  split_ifs <;> (rw [decide_eq_true (by omega), Bool.true_and]; congr 1; omega)

/-- Byte `j` of the payload of the working frame (40_codec.md R98). -/
theorem rxFramePayload_getD (s : State) (j : Nat) :
    s.rxFramePayload.getD j unlistedByte
      = if j < s.rx.len.toNat then s.bufByte .rxWire (2 + j) else unlistedByte := by
  unfold State.rxFramePayload
  rw [← bufBytes_getD]
  simp only [List.getD_eq_getElem?_getD, List.getElem?_take, List.getElem?_drop]
  split <;> rfl

/-- Outside a buffer, filling it changes no address. -/
theorem memRead_fillBuf_out (s : State) (b : Buffer) (vs : List Byte) {a : Nat}
    (h : a < b.base ∨ b.base + b.size ≤ a) : memRead (s.fillBuf b vs).mem a = memRead s.mem a :=
  memRead_memWriteBytes_out _ _ _ (by rwa [fill_length])

/-- Outside TXWIRE, ENCODE changes no address. -/
theorem memRead_encodeFrame_out (s : State) {a : Nat} (h : a < 0x080 ∨ 0x0C3 ≤ a) :
    memRead (encodeFrame s).mem a = memRead s.mem a := by
  unfold encodeFrame
  split
  · rfl
  · exact memRead_fillBuf_out s .txWire _ h

/-! ### The operations -/

/-- Every operation of the table answers a next state, of one of four shapes. -/
theorem exec_cases (i : Instr) (s : State) :
    (∃ a, i = .rd a ∧ exec i s = .next { s with busRdata := s.busRead a }) ∨
    (∃ a v, i = .wr a v ∧ a ≠ ctrlAddr ∧ exec i s = .next (s.busWrite a v)) ∨
    (∃ v, exec i s = .next (ctrlWrite v s)) ∨
    (∃ c, exec i s = .next (deliverFrame c s)) := by
  cases i with
  | rd a => exact .inl ⟨a, rfl, rfl⟩
  | wr a v =>
    by_cases h : a = ctrlAddr
    · exact .inr (.inr (.inl ⟨v, by simp [exec, execWr, h]⟩))
    · exact .inr (.inl ⟨a, v, rfl, h, by simp [exec, execWr, h]⟩)
  | rxon => exact .inr (.inr (.inl ⟨_, rfl⟩))
  | rxoff => exact .inr (.inr (.inl ⟨_, rfl⟩))
  | txStart _ _ _ _ _ => exact .inr (.inr (.inl ⟨_, rfl⟩))
  | encOnly _ _ _ _ => exact .inr (.inr (.inl ⟨_, rfl⟩))
  | rxAck _ _ _ => exact .inr (.inr (.inl ⟨_, rfl⟩))
  | errClr _ _ => exact .inr (.inr (.inl ⟨_, rfl⟩))
  | txDoneClr _ => exact .inr (.inr (.inl ⟨_, rfl⟩))
  | cmd0Ping => exact .inr (.inr (.inr ⟨_, rfl⟩))
  | cmd1Burst => exact .inr (.inr (.inr ⟨_, rfl⟩))
  | cmd2Display => exact .inr (.inr (.inr ⟨_, rfl⟩))
  | cmd3Temp => exact .inr (.inr (.inr ⟨_, rfl⟩))
  | cmd4Toggle => exact .inr (.inr (.inr ⟨_, rfl⟩))
  | cmd5Setfreq => exact .inr (.inr (.inr ⟨_, rfl⟩))
  | cmd6Stats => exact .inr (.inr (.inr ⟨_, rfl⟩))
  | cmd7Samples => exact .inr (.inr (.inr ⟨_, rfl⟩))
  | cmdUnassigned _ => exact .inr (.inr (.inr ⟨_, rfl⟩))

/-- The operation of header byte 0 delivers the frame with the command in bits 5:2 (30_encoding.md R76, R87). -/
theorem exec_decodeHeader (b : Byte) (s : State) :
    exec (decodeHeader b) s = .next (deliverFrame (headerCommand b) s) := by
  have key : ∀ b : Byte, exec (decodeHeader b) s = .next (deliverFrame (headerCommand b) s) ∨
      headerCommand b ≠ b.extractLsb' 2 4 := by
    intro b
    left
    unfold decodeHeader headerCommand
    have hlt := (b.extractLsb' 2 4).isLt
    generalize hc : b.extractLsb' 2 4 = c at hlt
    have hlow : b.extractLsb' 2 3 = c.extractLsb' 0 3 := by
      subst hc
      ext i hi
      have : i < 4 := by omega
      simp [BitVec.getElem_extractLsb', this]
    rw [hlow]
    clear hc hlow hlt
    revert c
    have split16 : ∀ c : BitVec 4, c = 0 ∨ c = 1 ∨ c = 2 ∨ c = 3 ∨ c = 4 ∨ c = 5 ∨ c = 6 ∨ c = 7 ∨ c = 8 ∨ c = 9
        ∨ c = 10 ∨ c = 11 ∨ c = 12 ∨ c = 13 ∨ c = 14 ∨ c = 15 := by decide
    intro c
    rcases split16 c with h | h | h | h | h | h | h | h | h | h | h | h | h | h | h | h <;> subst h <;> rfl
  exact (key b).resolve_right (by simp [headerCommand])

/-- A transaction decodes to a bus operation, never to a frame command (30_encoding.md R85, R86). -/
theorem decodeBus_cases (w : BusWord) :
    (w[18] = false ∧ decodeBus w = .error .noAccess) ∨
    (w[18] = true ∧ w[17] = false ∧ decodeBus w = .ok (.rd (w.extractLsb' 8 9))) ∨
    (w[18] = true ∧ w[17] = true ∧ w.extractLsb' 8 9 ≠ ctrlAddr ∧
      decodeBus w = .ok (.wr (w.extractLsb' 8 9) (w.extractLsb' 0 8))) ∨
    (w[18] = true ∧ w[17] = true ∧ w.extractLsb' 8 9 = ctrlAddr ∧
      decodeBus w = .ok (decodeCtrl (w.extractLsb' 0 8))) := by
  unfold decodeBus
  split_ifs with h1 h2 h3
  · exact .inr (.inr (.inr ⟨h1, h2, h3, rfl⟩))
  · exact .inr (.inr (.inl ⟨h1, h2, h3, rfl⟩))
  · exact .inr (.inl ⟨h1, by simpa using h2, rfl⟩)
  · exact .inl ⟨by simpa using h1, rfl⟩

/-- A CTRL byte runs as the command byte it is (44_host_bus.md R147). -/
theorem exec_decodeCtrl (v : Byte) (s : State) : exec (decodeCtrl v) s = .next (ctrlWrite v s) := by
  rw [ctrlWrite_bits]
  unfold decodeCtrl
  generalize v[0] = e
  generalize v[1] = st
  generalize v[2] = o
  generalize v[3] = k
  generalize v[4] = c
  generalize v[5] = d
  cases st <;> cases o <;> cases k <;> cases c <;> cases d <;> cases e <;> rfl

/-- What the host's access can do in a cycle: nothing, a read, a write, a command byte (20_memory.md R67). -/
theorem busPhase_cases (w : BusWord) (s : State) :
    (w[18] = false ∧ busPhase w s = .next s) ∨
    (w[18] = true ∧ w[17] = false ∧
      busPhase w s = .next { s with busRdata := s.busRead (w.extractLsb' 8 9) }) ∨
    (w[18] = true ∧ w[17] = true ∧ w.extractLsb' 8 9 ≠ ctrlAddr ∧
      busPhase w s = .next (s.busWrite (w.extractLsb' 8 9) (w.extractLsb' 0 8))) ∨
    (w[18] = true ∧ w[17] = true ∧ w.extractLsb' 8 9 = ctrlAddr ∧
      busPhase w s = .next (ctrlWrite (w.extractLsb' 0 8) s)) := by
  rcases decodeBus_cases w with ⟨h1, h⟩ | ⟨h1, h2, h⟩ | ⟨h1, h2, h3, h⟩ | ⟨h1, h2, h3, h⟩
  · exact .inl ⟨h1, by simp [busPhase, h]⟩
  · exact .inr (.inl ⟨h1, h2, by simp [busPhase, h, exec, execRd]⟩)
  · exact .inr (.inr (.inl ⟨h1, h2, h3, by simp [busPhase, h, exec, execWr, h3]⟩))
  · exact .inr (.inr (.inr ⟨h1, h2, h3, by simp [busPhase, h, exec_decodeCtrl]⟩))

/-! ### The engines and the step -/

/-- What a receiver poll does: it delivers an accepted frame, or changes the state as `rxPoll` says. -/
theorem rxStep_eq (line : Bool) (s : State) :
    rxStep line s = .next (if frameAccepted line s = true then deliverFrame (headerCommand (s.bufByte .rxWire 0)) s
      else rxPoll line s) := by
  unfold rxStep
  split_ifs <;> simp [exec_decodeHeader]

/-- What a cycle can do: a reset cycle, or the phases of 20_memory.md R67 one after the other. -/
theorem step_cases {s t : State} (h : step s = .next t) :
    (s.input.rst = true ∧ t = resetCycle s) ∨
    (s.input.rst = false ∧ ∃ s1 s3, busPhase s.input.bus (beginCycle s) = .next s1 ∧
      rxStep (s.line s.input.rxd) (clearEvents (txStep s1)) = .next s3 ∧ t = endCycle s.input.rxd s3) := by
  unfold step cycle at h
  cases hr : s.input.rst with
  | true =>
    rw [hr] at h
    exact .inl ⟨rfl, by simpa using h.symm⟩
  | false =>
    rw [hr] at h
    refine .inr ⟨rfl, ?_⟩
    simp only [Bool.false_eq_true, if_false, runCycle] at h
    obtain ⟨s1, h1⟩ : ∃ s1, busPhase s.input.bus (beginCycle s) = .next s1 := by
      rcases busPhase_cases s.input.bus (beginCycle s) with ⟨-, h⟩ | ⟨-, -, h⟩ | ⟨-, -, -, h⟩ | ⟨-, -, -, h⟩ <;> exact ⟨_, h⟩
    rw [h1] at h
    simp only [andThen, enginePhase, rxStep_eq] at h
    exact ⟨s1, _, h1, rxStep_eq _ _, by simpa using h.symm⟩

/-- A cycle always has a next state (60_exceptions.md R161). -/
theorem step_next (s : State) : ∃ t, step s = .next t := by
  unfold step cycle
  split
  · exact ⟨_, rfl⟩
  · unfold runCycle
    rcases busPhase_cases s.input.bus (beginCycle s) with ⟨-, h⟩ | ⟨-, -, h⟩ | ⟨-, -, -, h⟩ | ⟨-, -, -, h⟩ <;> rw [h] <;>
      simp [andThen, enginePhase, rxStep_eq]

end Sys2Proof.Machine
end

