-- ==== Sys2Proof/Laws/Codec.lean ====
section
/-! SUPPORT. The laws of the codec: weights, the bytes of a wire frame, what ENCODE leaves in TXWIRE, and the slots of a
frame on the line. -/

namespace Sys2Proof.Machine

/-! ### Weights -/

theorem popcount8_le (b : Byte) : popcount8 b ≤ 8 := by
  have h : ∀ x : Bool, x.toNat ≤ 1 := by decide
  unfold popcount8
  have h0 := h b[0]
  have h1 := h b[1]
  have h2 := h b[2]
  have h3 := h b[3]
  have h4 := h b[4]
  have h5 := h b[5]
  have h6 := h b[6]
  have h7 := h b[7]
  omega

theorem bitWeight_le (bs : List Byte) : bitWeight bs ≤ 8 * bs.length := by
  induction bs with
  | nil => simp [bitWeight]
  | cons b bs ih =>
    have := popcount8_le b
    simp only [bitWeight, List.length_cons]
    omega

theorem bitWeight_append (xs ys : List Byte) : bitWeight (xs ++ ys) = bitWeight xs + bitWeight ys := by
  induction xs with
  | nil => simp [bitWeight]
  | cons b bs ih => simp [bitWeight, ih, Nat.add_assoc]

/-- The weight of one byte more of a buffer. -/
theorem bitWeight_take_succ (bs : List Byte) {i : Nat} (h : i < bs.length) :
    bitWeight (bs.take (i + 1)) = bitWeight (bs.take i) + popcount8 (bs.getD i unlistedByte) := by
  rw [List.take_succ_eq_append_getElem h, bitWeight_append, List.getD_eq_getElem _ _ h]
  simp [bitWeight]

/-! ### The wire frame -/

/-- The header and the payload of a wire frame: what its checksum covers (30_encoding.md R75). -/
def frameBody (c : BitVec 4) (n : BitVec 7) (p : List Byte) : List Byte := packCommand c :: packLength n :: p

/-- The command that ENCODE packs is the one the receiver reads (30_encoding.md R78). -/
@[simp] theorem headerCommand_packCommand (c : BitVec 4) : headerCommand (packCommand c) = c := by
  revert c
  decide

/-- The length that ENCODE packs is the one the receiver reads (30_encoding.md R78). -/
@[simp] theorem headerLength_packLength (n : BitVec 7) : headerLength (packLength n) = n := by
  revert n
  decide

theorem wireFrame_eq (c : BitVec 4) (n : BitVec 7) (p : List Byte) :
    wireFrame c n p = frameBody c n p
      ++ [(checksum (frameBody c n p)).extractLsb' 8 8, (checksum (frameBody c n p)).extractLsb' 0 8] := rfl

@[simp] theorem frameBody_length (c : BitVec 4) (n : BitVec 7) (p : List Byte) :
    (frameBody c n p).length = p.length + 2 := rfl

/-- The body is what comes before the checksum. -/
theorem wireFrame_take (c : BitVec 4) (n : BitVec 7) (p : List Byte) :
    (wireFrame c n p).take (p.length + 2) = frameBody c n p := by
  rw [wireFrame_eq, List.take_append_of_le_length (by simp), List.take_of_length_le (by simp)]

/-- Byte 2 + i of a wire frame is byte i of its payload. -/
theorem wireFrame_getD_payload (c : BitVec 4) (n : BitVec 7) (p : List Byte) {i : Nat} (h : i < p.length) :
    (wireFrame c n p).getD (2 + i) unlistedByte = p.getD i unlistedByte := by
  rw [wireFrame_eq]
  simp only [List.getD_eq_getElem?_getD]
  rw [List.getElem?_append_left (by simp; omega), Nat.add_comm]
  rfl

/-- The bytes after the body of a wire frame are its checksum, the high byte first. -/
theorem wireFrame_getD_checksum (c : BitVec 4) (n : BitVec 7) (p : List Byte) (j : Nat) :
    (wireFrame c n p).getD (p.length + 2 + j) unlistedByte
      = [(checksum (frameBody c n p)).extractLsb' 8 8, (checksum (frameBody c n p)).extractLsb' 0 8].getD j
        unlistedByte := by
  rw [wireFrame_eq]
  simp only [List.getD_eq_getElem?_getD]
  rw [List.getElem?_append_right (by simp)]
  congr 2
  simp

/-- TXWIRE after a successful ENCODE, byte by byte (40_codec.md R94). -/
theorem bufByte_encodeFrame {s : State} (hm : memWf s.mem) (h : s.encodeFails = false) (i : Nat) :
    (encodeFrame s).bufByte .txWire i
      = (wireFrame s.host.txCmd s.host.txLen s.txPayloadBytes).getD i unlistedByte := by
  obtain ⟨-, h2, -, -⟩ := encodeFrame_ok hm h
  rw [← bufBytes_getD, h2]
  simp only [List.getD_eq_getElem?_getD, List.getElem?_append]
  split
  · rfl
  · next hi =>
    rw [List.getElem?_eq_none (Nat.le_of_not_lt hi), List.getElem?_replicate]
    split <;> rfl

/-- The wire frame that a successful ENCODE leaves in TXWIRE. -/
theorem take_encodeFrame {s : State} (hm : memWf s.mem) (h : s.encodeFails = false) :
    ((encodeFrame s).bufBytes .txWire).take (s.host.txLen.toNat + 4)
      = wireFrame s.host.txCmd s.host.txLen s.txPayloadBytes := by
  obtain ⟨-, h2, -, -⟩ := encodeFrame_ok hm h
  have hl := txPayloadBytes_length h
  rw [h2, List.take_append_of_le_length (by simp [hl]), List.take_of_length_le (by simp [hl])]

/-- Byte `i` of the payload that ENCODE packs. -/
theorem txPayloadBytes_getD (s : State) (i : Nat) :
    s.txPayloadBytes.getD i unlistedByte
      = if i < s.host.txLen.toNat then s.bufByte .txPayload i else unlistedByte := by
  unfold State.txPayloadBytes
  rw [← bufBytes_getD]
  simp only [List.getD_eq_getElem?_getD, List.getElem?_take]
  split <;> rfl

/-! ### The slots of a frame -/

@[simp] theorem byteSlots_length (b : Byte) : (byteSlots b).length = 11 := rfl

@[simp] theorem bytesSlots_length (bs : List Byte) : (bytesSlots bs).length = 11 * bs.length := by
  induction bs with
  | nil => rfl
  | cons b bs ih =>
    simp only [bytesSlots, List.length_append, byteSlots_length, ih, List.length_cons]
    omega

@[simp] theorem frameSlots_length (bs : List Byte) : (frameSlots bs).length = 11 * bs.length + 2 := by
  simp [frameSlots]

/-- Slot j of byte i of a frame. -/
theorem bytesSlots_getD (bs : List Byte) {i j : Nat} (hi : i < bs.length) (hj : j < 11) :
    (bytesSlots bs).getD (11 * i + j) true = (byteSlots (bs.getD i unlistedByte)).getD j true := by
  induction bs generalizing i with
  | nil => simp at hi
  | cons b bs ih =>
    simp only [bytesSlots, List.getD_eq_getElem?_getD]
    cases i with
    | zero =>
      rw [List.getElem?_append_left (by simp; omega)]
      simp
    | succ i =>
      rw [List.getElem?_append_right (by simp; omega)]
      have := ih (i := i) (by simpa using hi)
      simp only [List.getD_eq_getElem?_getD] at this
      rw [byteSlots_length, show 11 * (i + 1) + j - 11 = 11 * i + j by omega, this]
      simp

/-- A slot of a byte of a frame. -/
theorem frameSlots_getD_byte (bs : List Byte) {i j : Nat} (hi : i < bs.length) (hj : j < 11) :
    (frameSlots bs).getD (11 * i + j) true = (byteSlots (bs.getD i unlistedByte)).getD j true := by
  rw [← bytesSlots_getD bs hi hj]
  unfold frameSlots
  simp only [List.getD_eq_getElem?_getD]
  rw [List.getElem?_append_left (by simp; omega)]

/-- The parity slot of a frame (30_encoding.md R82). -/
theorem frameSlots_getD_parity (bs : List Byte) :
    (frameSlots bs).getD (11 * bs.length) true = decide (bitWeight bs % 2 = 1) := by
  unfold frameSlots
  simp only [List.getD_eq_getElem?_getD]
  rw [List.getElem?_append_right (by simp)]
  simp

/-- The guard slot of a frame (30_encoding.md R82). -/
theorem frameSlots_getD_guard (bs : List Byte) : (frameSlots bs).getD (11 * bs.length + 1) true = true := by
  unfold frameSlots
  simp only [List.getD_eq_getElem?_getD]
  rw [List.getElem?_append_right (by simp)]
  simp

/-- Data slot 1 + k of a byte is its bit k (30_encoding.md R81). -/
theorem byteSlots_getD_data (b : Byte) {k : Nat} (hk : k < 8) : (byteSlots b).getD (1 + k) true = b.getLsbD k := by
  have : k = 0 ∨ k = 1 ∨ k = 2 ∨ k = 3 ∨ k = 4 ∨ k = 5 ∨ k = 6 ∨ k = 7 := by omega
  rcases this with rfl | rfl | rfl | rfl | rfl | rfl | rfl | rfl <;> rfl

end Sys2Proof.Machine
end

