-- ==== Sys2Proof/Laws/Cycle.lean ====
section
/-! SUPPORT. What the phases of a cycle can do, said once each: the poll, the byte commit, the transmitter's step, the
command byte on the transmitter; and that every phase keeps the buffers in canonical form. -/

namespace Sys2Proof.Machine

/-! ### The poll -/

/-- Everything a poll that delivers no frame can do (42_receiver.md R116-R125; 60_exceptions.md R157, R160). -/
theorem rxPoll_cases (line : Bool) (s : State) :
    (rxPoll line s = s ∧
      ((s.rx.st = .idle ∧ s.rx.idx = 0#7) ∨ s.rxDue = false ∨ frameAccepted line s = true)) ∨
    (s.host.rxEn = false ∧ rxPoll line s = frameIdle s) ∨
    (s.rx.st = .idle ∧ s.rx.idx = 0#7 ∧ rxPoll line s = rxFrameIdle false s) ∨
    (s.rx.st = .idle ∧ s.rx.idx ≠ 0#7 ∧ rxPoll line s = rxByteIdle false s) ∨
    (s.rx.st = .idle ∧ s.rx.idx ≠ 0#7 ∧ s.rxDue = true ∧ rxPoll line s = abortFrame .rxTimeout s) ∨
    (s.rx.st = .receivingBits ∧ s.rxDue = true ∧ rxPoll line s = { s with rx := { s.rx with
      byte := setSample s.rx.byte s.rx.bit.toNat line
      bit := s.rx.bit + 1#4
      dl := s.now + s.rx.p.setWidth 32
      st := if s.rx.bit + 1#4 = 8#4 then .verifyStop1 else .receivingBits } }) ∨
    (s.rx.st = .verifyStop1 ∧ s.rxDue = true ∧ rxPoll line s = { s with rx := { s.rx with
      dl := s.now + s.rx.p.setWidth 32, st := .verifyStop2 } }) ∨
    ((s.rx.st = .verifyStop1 ∨ s.rx.st = .verifyStop2) ∧ s.rxDue = true ∧
      rxPoll line s = abortFrame .rxFraming s) ∨
    (s.rx.st = .verifyStop2 ∧ s.rxDue = true ∧ rxPoll line s = commitByte s) ∨
    (s.rx.st = .verifyFrameParity ∧ s.rxDue = true ∧ rxPoll line s = { s with rx := { s.rx with
      pbit := line, dl := s.now + s.rx.p.setWidth 32, st := .verifyFinalStop } }) ∨
    (s.rx.st = .verifyFinalStop ∧ s.rxDue = true ∧ ∃ c d,
      rxPoll line s = abortFrame .rxSync (raiseFlagIf c .rxParity (raiseFlagIf d .rxFinalStop s))) ∨
    (s.rx.st = .recovery ∧ rxPoll line s = recoveryPoll line s) := by
  unfold rxPoll
  split
  · next h => exact .inr (.inl ⟨h, rfl⟩)
  · next hen =>
    have hen : s.host.rxEn = true := by simpa using hen
    split <;> rename_i hst
    · split
      · next h =>
        cases line
        · exact .inr (.inr (.inl ⟨hst, h, rfl⟩))
        · exact .inl ⟨rfl, .inl ⟨hst, h⟩⟩
      · next h =>
        cases line
        · exact .inr (.inr (.inr (.inl ⟨hst, h, rfl⟩)))
        · cases hd : s.rxDue
          · exact .inl ⟨by simp [rxByteIdle, hd], .inr (.inl rfl)⟩
          · exact .inr (.inr (.inr (.inr (.inl ⟨hst, h, rfl, by simp [rxByteIdle, hd]⟩))))
    · cases hd : s.rxDue
      · exact .inl ⟨by simp [rxReceivingBits, hd], .inr (.inl rfl)⟩
      · exact .inr (.inr (.inr (.inr (.inr (.inl ⟨hst, rfl, by simp [rxReceivingBits, hd]⟩)))))
    · cases hd : s.rxDue
      · exact .inl ⟨by simp [rxVerifyStop1, hd], .inr (.inl rfl)⟩
      · cases line
        · exact .inr (.inr (.inr (.inr (.inr (.inr (.inr (.inl ⟨.inl hst, rfl, by simp [rxVerifyStop1, hd]⟩)))))))
        · exact .inr (.inr (.inr (.inr (.inr (.inr (.inl ⟨hst, rfl, by simp [rxVerifyStop1, hd]⟩))))))
    · cases hd : s.rxDue
      · exact .inl ⟨by simp [rxVerifyStop2, hd], .inr (.inl rfl)⟩
      · cases line
        · exact .inr (.inr (.inr (.inr (.inr (.inr (.inr (.inl ⟨.inr hst, rfl, by simp [rxVerifyStop2, hd]⟩)))))))
        · exact .inr (.inr (.inr (.inr (.inr (.inr (.inr (.inr (.inl
            ⟨hst, rfl, by simp [rxVerifyStop2, hd]⟩))))))))
    · cases hd : s.rxDue
      · exact .inl ⟨by simp [rxVerifyFrameParity, hd], .inr (.inl rfl)⟩
      · exact .inr (.inr (.inr (.inr (.inr (.inr (.inr (.inr (.inr (.inl
          ⟨hst, rfl, by simp [rxVerifyFrameParity, hd]⟩)))))))))
    · cases hd : s.rxDue
      · exact .inl ⟨by simp [rxVerifyFinalStop, hd], .inr (.inl rfl)⟩
      · cases hk : line && s.parityOk
        · exact .inr (.inr (.inr (.inr (.inr (.inr (.inr (.inr (.inr (.inr (.inl
            ⟨hst, rfl, !s.parityOk, !line, by simp [rxVerifyFinalStop, hd, hk]⟩))))))))))
        · have hk' : line = true ∧ s.parityOk = true := by simpa using hk
          exact .inl ⟨by simp [rxVerifyFinalStop, hd, hk], .inr (.inr (by simp [frameAccepted, hen, hst, hd, hk']))⟩
    · exact .inr (.inr (.inr (.inr (.inr (.inr (.inr (.inr (.inr (.inr (.inr ⟨hst, rfl⟩))))))))))

/-- The start edge of a frame: RXWIRE is cleared, the working state is fresh, nothing else changes (42_receiver.md
R118). -/
theorem rxFrameIdle_low (s : State) :
    rxFrameIdle false s = { s with
      mem := (s.fillBuf .rxWire []).mem
      rx := { s.rx with
        p := effectivePeriod s.host.bitPer
        h := halfPeriod (effectivePeriod s.host.bitPer)
        ones := 0#10
        len := 0#7
        pbit := false
        bit := 0#4
        byte := 0#8
        dl := firstSample s.now (halfPeriod (effectivePeriod s.host.bitPer)) (effectivePeriod s.host.bitPer)
        st := .receivingBits } } := by
  simp [rxFrameIdle]

/-- The receiver after the byte is stored (42_receiver.md R123). -/
theorem commitStore_rx (s : State) :
    (commitStore s).rx = { s.rx with
      ones := s.rx.ones + BitVec.ofNat 10 (popcount8 s.rx.byte), idx := s.rx.idx + 1#7 } := rfl

/-- Memory after the byte is stored: that byte of RXWIRE and no other (42_receiver.md R123). -/
theorem memRead_commitStore {s : State} (hm : memWf s.mem) (h : s.rx.idx.toNat < 67) (a : Nat) :
    memRead (commitStore s).mem a
      = if a = 0x180 + s.rx.idx.toNat then s.rx.byte else memRead s.mem a := by
  have e : (commitStore s).mem = memWrite s.mem (0x180 + s.rx.idx.toNat) s.rx.byte := if_pos h
  rw [e]
  split
  · next e => rw [e]; exact memRead_memWrite_same hm.1 _ _
  · next e => exact memRead_memWrite_ne _ e _

/-- The inter-byte timeout of two periods (42_receiver.md R123). -/
theorem ibt_eq (p : BitVec 24) :
    BitVec.ofNat 32 Config.ibtFactor * p.setWidth 32 = BitVec.ofNat 32 (2 * p.toNat) := by
  apply BitVec.eq_of_toNat_eq
  simp [Config.ibtFactor]

/-- The parity slot follows the last byte (42_receiver.md R123). -/
theorem commitNext_last {s : State} (h : 3 ≤ s.rx.idx.toNat ∧ s.rx.idx.toNat = s.rx.len.toNat + 4) :
    commitNext s
      = { s with rx := { s.rx with dl := s.now + s.rx.p.setWidth 32, st := .verifyFrameParity } } := if_pos h

/-- The next byte's start edge follows any other byte (42_receiver.md R123). -/
theorem commitNext_more {s : State} (h : ¬ (3 ≤ s.rx.idx.toNat ∧ s.rx.idx.toNat = s.rx.len.toNat + 4)) :
    commitNext s
      = { s with rx := { s.rx with dl := s.now + BitVec.ofNat 32 (2 * s.rx.p.toNat), st := .idle } } := by
  rw [← ibt_eq]
  exact if_neg h

/-- The header decode of the second byte reads the byte just stored (40_codec.md R96). -/
theorem hdrDecode_commitStore {s : State} (hm : memWf s.mem) (h : s.rx.idx.toNat = 1) :
    hdrDecode (commitStore s)
      = { commitStore s with rx := { (commitStore s).rx with len := headerLength s.rx.byte } } := by
  have e : (commitStore s).bufByte .rxWire 1 = s.rx.byte := by
    unfold State.bufByte
    rw [if_pos (by decide)]
    show memRead _ 0x181 = _
    rw [memRead_commitStore hm (by omega), if_pos (by omega)]
  simp only [hdrDecode, e]

/-- Everything a byte commit can do (42_receiver.md R123; 40_codec.md R96). -/
theorem commitByte_cases {s : State} (hm : memWf s.mem) :
    (s.rx.idx.toNat = 1 ∧ 63 < (headerLength s.rx.byte).toNat ∧ commitByte s = abortFrame .rxLength
      { commitStore s with rx := { (commitStore s).rx with len := headerLength s.rx.byte } }) ∨
    (s.rx.idx.toNat = 1 ∧ (headerLength s.rx.byte).toNat ≤ 63 ∧ commitByte s = commitNext
      { commitStore s with rx := { (commitStore s).rx with len := headerLength s.rx.byte } }) ∨
    (s.rx.idx.toNat ≠ 1 ∧ commitByte s = commitNext (commitStore s)) := by
  have e2 : (commitStore s).rx.idx = 2#7 ↔ s.rx.idx.toNat = 1 := by
    rw [commitStore_rx]
    bv_omega
  by_cases h1 : s.rx.idx.toNat = 1
  · simp only [commitByte, if_pos (e2.2 h1), hdrDecode_commitStore hm h1]
    by_cases h : 63 < (headerLength s.rx.byte).toNat
    · exact .inl ⟨h1, h, if_pos h⟩
    · exact .inr (.inl ⟨h1, by omega, if_neg h⟩)
  · exact .inr (.inr ⟨h1, by simp only [commitByte, if_neg (mt e2.1 h1)]⟩)

theorem abortFrame_host (e : SyncFailure) (s : State) :
    (abortFrame e s).host = { s.host with errFlags := (abortFrame e s).host.errFlags } := by
  cases e <;> rfl

/-- The receiver's step changes no host register but ERRFLAGS (10_state.md R27; 44_host_bus.md R146). -/
theorem rxStep_host {line : Bool} {s t : State} (h : rxStep line s = .next t) :
    t.host = { s.host with errFlags := t.host.errFlags } := by
  rw [rxStep_eq] at h
  cases h
  split
  · rw [deliverFrame_eq]
    simp only [dispatchFrame_host]
  · rcases rxPoll_cases line s with ⟨h, -⟩ | ⟨-, h⟩ | ⟨-, -, h⟩ | ⟨-, -, h⟩ | ⟨-, -, -, h⟩ | ⟨-, -, h⟩ | ⟨-, -, h⟩ |
      ⟨-, -, h⟩ | ⟨-, -, h⟩ | ⟨-, -, h⟩ | ⟨-, -, c, d, h⟩ | ⟨-, h⟩ <;> rw [h]
    · rfl
    · rw [rxFrameIdle_low]
    · rfl
    · exact abortFrame_host _ _
    · exact abortFrame_host _ _
    · simp only [commitByte]
      split_ifs
      · rw [abortFrame_host]
        simp [hdrDecode]
      · simp [hdrDecode]
      · simp
    · rw [abortFrame_host, raiseFlagIf_host, raiseFlagIf_host]
    · simp

/-! ### The transmitter -/

/-- A poll and a delivery leave the transmitter alone. -/
theorem rxStep_tx {line : Bool} {s t : State} (h : rxStep line s = .next t) : t.tx = s.tx := by
  rw [rxStep_eq] at h
  cases h
  split <;> simp

/-- A poll and a delivery leave NOW alone. -/
theorem rxStep_now {line : Bool} {s t : State} (h : rxStep line s = .next t) : t.now = s.now := by
  rw [rxStep_eq] at h
  cases h
  split <;> simp

/-- Everything a command byte can do, with `u` the state after its clears: nothing more, an encode, or a frame start
(44_host_bus.md R147-R149). -/
theorem ctrlWrite_cases (v : Byte) (s : State) : ∃ u,
    u = { s with
      hold := { s.hold with ready := if v[3] then false else s.hold.ready }
      host := { s.host with rxEn := v[0], errFlags := if v[4] then 0x00#8 else s.host.errFlags }
      tx := { s.tx with done := if v[5] then false else s.tx.done } } ∧
    (ctrlWrite v s = u ∨
      (s.tx.ph = .txIdle ∧ ctrlWrite v s = encodeFrame u) ∨
      (s.tx.ph = .txIdle ∧ s.encodeFails = false ∧ ctrlWrite v s = txBegin (encodeFrame u))) := by
  refine ⟨_, rfl, ?_⟩
  rw [ctrlWrite_bits]
  generalize v[0] = e
  generalize v[1] = st
  generalize v[2] = o
  generalize v[3] = k
  generalize v[4] = c
  generalize v[5] = d
  by_cases hi : s.tx.ph = .txIdle
  · cases st with
    | false =>
      cases o with
      | false => exact .inl (ctrlWrite_clears e k c d s)
      | true =>
        rw [ctrlWrite_encOnly, ctrlWrite_clears, encOnly_idle (by exact hi)]
        exact .inr (.inl ⟨hi, rfl⟩)
    | true =>
      rw [ctrlWrite_txStart, ctrlWrite_clears]
      cases hf : s.encodeFails with
      | true =>
        rw [txStart_fail (by exact hi) (by exact hf), ← encodeFrame_fail (by exact hf)]
        exact .inr (.inl ⟨hi, rfl⟩)
      | false =>
        rw [txStart_ok (by exact hi) (by exact hf)]
        exact .inr (.inr ⟨hi, rfl, rfl⟩)
  · left
    cases st with
    | false =>
      cases o with
      | false => exact ctrlWrite_clears e k c d s
      | true => rw [ctrlWrite_encOnly, ctrlWrite_clears, encOnly_busy (by exact hi)]
    | true => rw [ctrlWrite_txStart, ctrlWrite_clears, txStart_busy (by exact hi)]

/-! ### The receiver and the rest of the state -/

/-- The state with the elements replaced that the receiver neither reads nor writes. -/
def State.withEnv (s : State) (tx : Tx) (low : List Nat) (inputs : List CycleInput) (rd : Byte) : State :=
  { s with tx := tx, syncLow := low, inputs := inputs, busRdata := rd }

theorem withEnv_raiseFlagIf (s : State) (tx : Tx) (low : List Nat) (inputs : List CycleInput) (rd : Byte) (c : Bool)
    (e : ErrCode) :
    raiseFlagIf c e (s.withEnv tx low inputs rd) = (raiseFlagIf c e s).withEnv tx low inputs rd := by
  cases c <;> rfl

theorem withEnv_abortFrame (s : State) (tx : Tx) (low : List Nat) (inputs : List CycleInput) (rd : Byte)
    (e : SyncFailure) : abortFrame e (s.withEnv tx low inputs rd) = (abortFrame e s).withEnv tx low inputs rd := by
  cases e <;> rfl

theorem withEnv_commitNext (s : State) (tx : Tx) (low : List Nat) (inputs : List CycleInput) (rd : Byte) :
    commitNext (s.withEnv tx low inputs rd) = (commitNext s).withEnv tx low inputs rd := by
  by_cases h : 3 ≤ s.rx.idx.toNat ∧ s.rx.idx.toNat = s.rx.len.toNat + 4
  · rw [commitNext_last h, commitNext_last (by exact h)]
    rfl
  · rw [commitNext_more h, commitNext_more (by exact h)]
    rfl

theorem withEnv_commitByte (s : State) (tx : Tx) (low : List Nat) (inputs : List CycleInput) (rd : Byte) :
    commitByte (s.withEnv tx low inputs rd) = (commitByte s).withEnv tx low inputs rd := by
  have h1 : commitStore (s.withEnv tx low inputs rd) = (commitStore s).withEnv tx low inputs rd := rfl
  have h2 : ∀ u : State, hdrDecode (u.withEnv tx low inputs rd) = (hdrDecode u).withEnv tx low inputs rd := fun _ => rfl
  have h3 : ∀ u : State, (u.withEnv tx low inputs rd).rx = u.rx := fun _ => rfl
  simp only [commitByte, h1, h2, h3, withEnv_abortFrame, withEnv_commitNext]
  split_ifs <;> rfl

theorem withEnv_deliverFrame (s : State) (tx : Tx) (low : List Nat) (inputs : List CycleInput) (rd : Byte)
    (c : BitVec 4) :
    deliverFrame c (s.withEnv tx low inputs rd) = (deliverFrame c s).withEnv tx low inputs rd := by
  have h : dispatchFrame c (s.withEnv tx low inputs rd) = (dispatchFrame c s).withEnv tx low inputs rd := by
    have h1 : extractPayload (s.withEnv tx low inputs rd) = (extractPayload s).withEnv tx low inputs rd := by
      unfold extractPayload
      rw [show (s.withEnv tx low inputs rd).rxFramePayload = s.rxFramePayload from rfl]
      simp only [State.fillBuf, State.withEnv]
    have h2 : (s.withEnv tx low inputs rd).frameValid = s.frameValid := rfl
    have h3 : (s.withEnv tx low inputs rd).hold = s.hold := rfl
    simp only [dispatchFrame, h1, h2, h3, withEnv_raiseFlagIf]
    rfl
  rw [deliverFrame_eq, deliverFrame_eq, h]
  rfl

theorem withEnv_rxPoll (s : State) (tx : Tx) (low : List Nat) (inputs : List CycleInput) (rd : Byte) (line : Bool) :
    rxPoll line (s.withEnv tx low inputs rd) = (rxPoll line s).withEnv tx low inputs rd := by
  have hd : (s.withEnv tx low inputs rd).rxDue = s.rxDue := rfl
  have hp : (s.withEnv tx low inputs rd).parityOk = s.parityOk := rfl
  cases hen : s.host.rxEn with
  | false => simp only [rxPoll, if_pos hen, if_pos (show (s.withEnv tx low inputs rd).host.rxEn = false from hen)]; rfl
  | true =>
    have hen' : ¬ s.host.rxEn = false := by simp [hen]
    unfold rxPoll
    rw [if_neg hen', if_neg (by exact hen')]
    have hrx : (s.withEnv tx low inputs rd).rx = s.rx := rfl
    rw [hrx]
    cases s.rx.st with
    | idle =>
      dsimp only
      by_cases hi : s.rx.idx = 0#7
      · rw [if_pos hi, if_pos hi]
        cases line with
        | false =>
          rw [rxFrameIdle_low, rxFrameIdle_low]
          simp [State.fillBuf, State.withEnv]
        | true => rfl
      · rw [if_neg hi, if_neg hi]
        simp only [rxByteIdle, hd, withEnv_abortFrame]
        cases line <;> cases s.rxDue <;> rfl
    | receivingBits =>
      simp only [rxReceivingBits, hd]
      cases s.rxDue <;> rfl
    | verifyStop1 =>
      simp only [rxVerifyStop1, hd, withEnv_abortFrame]
      cases line <;> cases s.rxDue <;> rfl
    | verifyStop2 =>
      simp only [rxVerifyStop2, hd, withEnv_abortFrame, withEnv_commitByte]
      cases line <;> cases s.rxDue <;> rfl
    | verifyFrameParity =>
      simp only [rxVerifyFrameParity, hd]
      cases s.rxDue <;> rfl
    | verifyFinalStop =>
      simp only [rxVerifyFinalStop, hd, hp, withEnv_raiseFlagIf, withEnv_abortFrame]
      cases line <;> cases s.parityOk <;> cases s.rxDue <;> rfl
    | recovery =>
      cases line with
      | false => rfl
      | true =>
        by_cases h : s.rx.q.toNat ≤ (s.now - s.rx.qStart).toNat
        · have e : ∀ u : State, u.rx = s.rx → u.now = s.now →
              recoveryPoll true u = { u with rx := { u.rx with st := .idle } } := by
            intro u h1 h2
            simp only [recoveryPoll, Bool.true_eq_false, if_false, h1, h2, if_pos h]
          dsimp only
          rw [e s rfl rfl, e (s.withEnv tx low inputs rd) rfl rfl]
          rfl
        · have e : ∀ u : State, u.rx = s.rx → u.now = s.now → recoveryPoll true u = u := by
            intro u h1 h2
            simp only [recoveryPoll, Bool.true_eq_false, if_false, h1, h2, if_neg h]
          dsimp only
          rw [e s rfl rfl, e (s.withEnv tx low inputs rd) rfl rfl]

/-- The receiver's step neither reads nor writes the transmitter, the synchronizer chain, the inputs to come or the read
data: it commutes with any change of them (20_memory.md R56, R74). -/
theorem rxStep_withEnv {line : Bool} {s t : State} (tx : Tx) (low : List Nat) (inputs : List CycleInput) (rd : Byte)
    (h : rxStep line s = .next t) :
    rxStep line (s.withEnv tx low inputs rd) = .next (t.withEnv tx low inputs rd) := by
  rw [rxStep_eq] at h ⊢
  cases h
  have h1 : frameAccepted line (s.withEnv tx low inputs rd) = frameAccepted line s := rfl
  have h2 : (s.withEnv tx low inputs rd).bufByte .rxWire 0 = s.bufByte .rxWire 0 := rfl
  rw [h1, h2, withEnv_rxPoll, withEnv_deliverFrame]
  split <;> rfl

/-! ### The canonical form -/

theorem memWf_encodeFrame {s : State} (hm : memWf s.mem) : memWf (encodeFrame s).mem := by
  cases h : s.encodeFails
  · exact (encodeFrame_ok hm h).2.2.2
  · rw [encodeFrame_fail h]
    exact hm

theorem memWf_ctrlWrite {s : State} (hm : memWf s.mem) (v : Byte) : memWf (ctrlWrite v s).mem := by
  obtain ⟨u, hu, h | ⟨-, h⟩ | ⟨-, -, h⟩⟩ := ctrlWrite_cases v s <;> rw [h]
  · rw [hu]
    exact hm
  · exact memWf_encodeFrame (by rw [hu]; exact hm)
  · exact memWf_encodeFrame (s := u) (by rw [hu]; exact hm)

/-- The host's access keeps the buffers in canonical form. -/
theorem memWf_busPhase {w : BusWord} {s t : State} (hm : memWf s.mem) (h : busPhase w s = .next t) :
    memWf t.mem := by
  rcases busPhase_cases w s with ⟨-, e⟩ | ⟨-, -, e⟩ | ⟨-, -, -, e⟩ | ⟨-, -, -, e⟩ <;> rw [e] at h <;> cases h
  · exact hm
  · exact hm
  · exact memWf_busWrite hm _ _
  · exact memWf_ctrlWrite hm _

/-- What the host's access does to the holding registers: RX_ACK clears RX_READY, nothing else changes them
(44_host_bus.md R150). -/
theorem busPhase_hold {w : BusWord} {s t : State} (h : busPhase w s = .next t) :
    t.hold = { s.hold with ready :=
      if w[18] = true ∧ w[17] = true ∧ w.extractLsb' 8 9 = 0#9 ∧ w[3] = true then false else s.hold.ready } := by
  rcases busPhase_cases w s with ⟨h1, e⟩ | ⟨-, h1, e⟩ | ⟨-, -, h1, e⟩ | ⟨h1, h2, h3, e⟩ <;> rw [e] at h <;> cases h
  · rw [if_neg (by simp [h1])]
  · rw [if_neg (by simp [h1])]
  · rw [if_neg (fun hc => h1 hc.2.2.1), busWrite_hold]
  · have hb : (w.extractLsb' 0 8)[3] = w[3] := by simp
    have hc : (w[18] = true ∧ w[17] = true ∧ w.extractLsb' 8 9 = 0#9 ∧ w[3] = true) ↔ w[3] = true :=
      ⟨fun h => h.2.2.2, fun h => ⟨h1, h2, h3, h⟩⟩
    obtain ⟨u, hu, h | ⟨-, h⟩ | ⟨-, -, h⟩⟩ := ctrlWrite_cases (w.extractLsb' 0 8) s <;>
      simp [h, hu, txBegin, hc]

/-- The host's access never changes RXPAYLOAD and RXWIRE (10_state.md R42, R43; 44_host_bus.md R146). -/
theorem busPhase_memRead {w : BusWord} {s t : State} (h : busPhase w s = .next t) {a : Nat} (ha : 0x100 ≤ a) :
    memRead t.mem a = memRead s.mem a := by
  rcases busPhase_cases w s with ⟨-, e⟩ | ⟨-, -, e⟩ | ⟨-, -, -, e⟩ | ⟨-, -, -, e⟩ <;> rw [e] at h <;> cases h
  · rfl
  · rfl
  · generalize w.extractLsb' 8 9 = b
    unfold State.busWrite
    split <;> first | rfl | skip
    split
    · next hc =>
      have := (covers_iff _ _).1 hc
      simp only [Buffer.base, Buffer.size] at this
      exact memRead_memWrite_ne _ (by omega) _
    · rfl
  · obtain ⟨u, hu, h | ⟨-, h⟩ | ⟨-, -, h⟩⟩ := ctrlWrite_cases (w.extractLsb' 0 8) s <;> rw [h]
    · rw [hu]
    · rw [memRead_encodeFrame_out _ (by omega), hu]
    · rw [txBegin_mem, memRead_encodeFrame_out _ (by omega), hu]

/-- What ABORT emits (60_exceptions.md R157). -/
theorem abortFrame_ev (e : SyncFailure) (s : State) :
    (abortFrame e s).ev = { s.ev with syncErr := true } ∧ (abortFrame e s).emitted = s.emitted ++ [.syncError e] := by
  cases e <;> exact ⟨rfl, rfl⟩

/-- A poll that delivers no frame emits nothing, or one SyncError (60_exceptions.md R157, R162 (a)). -/
theorem rxPoll_ev (line : Bool) (s : State) :
    ((rxPoll line s).ev = s.ev ∧ (rxPoll line s).emitted = s.emitted) ∨
    ∃ e, (rxPoll line s).ev = { s.ev with syncErr := true } ∧
      (rxPoll line s).emitted = s.emitted ++ [.syncError e] := by
  rcases rxPoll_cases line s with ⟨h, -⟩ | ⟨-, h⟩ | ⟨-, -, h⟩ | ⟨-, -, h⟩ | ⟨-, -, -, h⟩ | ⟨-, -, h⟩ | ⟨-, -, h⟩ |
      ⟨-, -, h⟩ | ⟨-, -, h⟩ | ⟨-, -, h⟩ | ⟨-, -, c, d, h⟩ | ⟨-, h⟩ <;> rw [h]
  case inr.inr.inl => rw [rxFrameIdle_low]; exact .inl ⟨rfl, rfl⟩
  any_goals exact .inl ⟨rfl, rfl⟩
  · exact .inr ⟨_, abortFrame_ev _ _⟩
  · exact .inr ⟨_, abortFrame_ev _ _⟩
  · simp only [commitByte]
    split_ifs
    · exact .inr ⟨.rxLength, by simpa using abortFrame_ev .rxLength (hdrDecode (commitStore s))⟩
    · exact .inl (by simp)
    · exact .inl (by simp)
  · exact .inr ⟨_, by simpa using abortFrame_ev .rxSync (raiseFlagIf c .rxParity (raiseFlagIf d .rxFinalStop s))⟩
  · exact .inl (by simp)

theorem commitByte_mem (s : State) : (commitByte s).mem = (commitStore s).mem := by
  simp only [commitByte]
  split_ifs <;> simp

/-- Memory after a poll: as it was, RXWIRE cleared, or one byte stored. -/
theorem rxPoll_mem (line : Bool) (s : State) :
    (rxPoll line s).mem = s.mem ∨ (rxPoll line s).mem = (s.fillBuf .rxWire []).mem ∨
      (s.rx.st = .verifyStop2 ∧ (rxPoll line s).mem = (commitStore s).mem) := by
  rcases rxPoll_cases line s with ⟨h, -⟩ | ⟨-, h⟩ | ⟨-, -, h⟩ | ⟨-, -, h⟩ | ⟨-, -, -, h⟩ | ⟨-, -, h⟩ | ⟨-, -, h⟩ |
    ⟨-, -, h⟩ | ⟨h', -, h⟩ | ⟨-, -, h⟩ | ⟨-, -, c, d, h⟩ | ⟨-, h⟩ <;> rw [h]
  · exact .inl rfl
  · exact .inl rfl
  · exact .inr (.inl (by rw [rxFrameIdle_low]))
  · exact .inl (by simp [rxByteIdle])
  · exact .inl (by simp)
  · exact .inl rfl
  · exact .inl rfl
  · exact .inl (by simp)
  · exact .inr (.inr ⟨h', commitByte_mem s⟩)
  · exact .inl rfl
  · exact .inl (by simp)
  · exact .inl (by simp)

theorem deliverFrame_mem (cmd : BitVec 4) (s : State) : (deliverFrame cmd s).mem = (extractPayload s).mem := by
  rw [deliverFrame_eq]
  exact dispatchFrame_mem cmd s

/-- The receiver's step writes RXWIRE and RXPAYLOAD alone (20_memory.md R56). -/
theorem rxStep_bufByte {line : Bool} {s t : State} (h : rxStep line s = .next t) {b : Buffer} (hw : b ≠ .rxWire)
    (hp : b ≠ .rxPayload) (i : Nat) : t.bufByte b i = s.bufByte b i := by
  rw [rxStep_eq] at h
  cases h
  split
  · rw [bufByte_eq_of_mem (deliverFrame_mem _ _)]
    exact bufByte_fillBuf_ne _ hp _ _
  · rcases rxPoll_mem line s with h | h | ⟨-, h⟩ <;> rw [bufByte_eq_of_mem h]
    · exact bufByte_fillBuf_ne _ hw _ _
    · exact (bufByte_eq_of_mem (t := s.setBufByte .rxWire s.rx.idx.toNat s.rx.byte) rfl _ _).trans
        (bufByte_setBufByte_ne _ (.inl hw) _)

/-- The receiver's step keeps the buffers in canonical form. -/
theorem memWf_rxStep {line : Bool} {s t : State} (hm : memWf s.mem) (h : rxStep line s = .next t) : memWf t.mem := by
  rw [rxStep_eq] at h
  cases h
  split
  · rw [deliverFrame_mem]
    exact memWf_fillBuf hm _ _
  · rcases rxPoll_mem line s with h | h | ⟨-, h⟩ <;> rw [h]
    · exact hm
    · exact memWf_fillBuf hm _ _
    · exact memWf_setBufByte hm _ _ _

end Sys2Proof.Machine
end

