-- ==== Sys2Proof/Laws/Encoding.lean ====
section
/-! SUPPORT. The fields of a transaction put together and taken apart, and the bytes that hold it. -/

namespace Sys2Proof

/-- bus_sel of a transaction put together. -/
@[simp] theorem busWord_sel (we : Bool) (a : Addr) (v : Byte) : (busWord we a v)[18] = true := by
  simp [busWord]

/-- bus_we of a transaction put together. -/
@[simp] theorem busWord_we (we : Bool) (a : Addr) (v : Byte) : (busWord we a v)[17] = we := by
  cases we <;> simp [busWord]

theorem selBit_getElem (i : Nat) (h : i < 18) : (262144#19)[i]'(by omega) = false := by
  rw [← BitVec.getLsbD_eq_getElem]
  exact (by decide : ∀ i < 18, (262144#19).getLsbD i = false) i h

theorem weBit_getElem (i : Nat) (h : i < 17) : (131072#19)[i]'(by omega) = false := by
  rw [← BitVec.getLsbD_eq_getElem]
  exact (by decide : ∀ i < 17, (131072#19).getLsbD i = false) i h

/-- bus_addr of a transaction put together. -/
@[simp] theorem busWord_addr (we : Bool) (a : Addr) (v : Byte) : (busWord we a v).extractLsb' 8 9 = a := by
  apply BitVec.eq_of_getLsbD_eq
  intro i hi
  have h1 := selBit_getElem (8 + i) (by omega)
  have h2 := weBit_getElem (8 + i) (by omega)
  cases we <;> simp [busWord, hi, h1, h2, show 8 + i < 19 by omega]

/-- bus_wdata of a transaction put together. -/
@[simp] theorem busWord_wdata (we : Bool) (a : Addr) (v : Byte) : (busWord we a v).extractLsb' 0 8 = v := by
  apply BitVec.eq_of_getLsbD_eq
  intro i hi
  have h1 := selBit_getElem i (by omega)
  have h2 := weBit_getElem i (by omega)
  cases we <;> simp [busWord, hi, h1, h2, show i < 19 by omega]

/-- A transaction with bus_sel = 1 is put together from its fields. -/
theorem busWord_of_fields (w : BusWord) (h : w[18] = true) :
    busWord (w[17]) (w.extractLsb' 8 9) (w.extractLsb' 0 8) = w := by
  apply BitVec.eq_of_getLsbD_eq
  intro i hi
  have hcase : i = 18 ∨ i = 17 ∨ (8 ≤ i ∧ i < 17) ∨ i < 8 := by omega
  rcases hcase with rfl | rfl | h' | h'
  · simp [h]
  · simp
  · have e : 8 + (i - 8) = i := by omega
    have h1 := selBit_getElem i (by omega)
    simp [busWord, hi, e, h1, show ¬ i < 8 by omega, show i - 8 < 9 by omega, show i < 17 by omega]
  · have h1 := selBit_getElem i (by omega)
    simp [busWord, h', hi, h1, show i < 17 by omega]

/-- The three bytes of a transaction hold it. -/
theorem busOfBytes_busBytes (w : BusWord) :
    busOfBytes (w.setWidth 8) ((w >>> 8).setWidth 8) ((w >>> 16).setWidth 8) = w := by
  ext i hi
  have hcase : i < 8 ∨ (8 ≤ i ∧ i < 16) ∨ (16 ≤ i ∧ i < 19) := by omega
  rcases hcase with h | h | h
  · simp [busOfBytes, h, hi, show i < 16 by omega]
  · have e : 8 + (i - 8) = i := by omega
    simp [busOfBytes, hi, e, show ¬ i < 8 by omega, show i - 8 < 8 by omega, show i < 16 by omega]
  · have e : 16 + (i - 16) = i := by omega
    simp [busOfBytes, hi, e, show ¬ i < 8 by omega, show ¬ i - 8 < 8 by omega, show ¬ i < 16 by omega,
      show i - 16 < 8 by omega]

/-- Decoding the bytes of a transaction decodes the transaction. -/
@[simp] theorem decode_busBytes (w : BusWord) : decode (busBytes w) = decodeBus w := by
  have h : (w >>> 16).setWidth 8 &&& 0xF8#8 = 0x00#8 := by
    ext i hi
    have hcase : i = 0 ∨ i = 1 ∨ i = 2 ∨ i = 3 ∨ i = 4 ∨ i = 5 ∨ i = 6 ∨ i = 7 := by omega
    rcases hcase with rfl | rfl | rfl | rfl | rfl | rfl | rfl | rfl <;> simp
  simp only [busBytes, decode, if_pos h, busOfBytes_busBytes]

end Sys2Proof
end

