-- ==== Sys2Proof/Laws/PerInstr.lean ====
section
/-! SUPPORT. The family `RowMatch`: the encoding of every operation is a word of its row of opcode_table.json, the row's
mask and match written out from the table, constructor by constructor. -/

namespace Sys2Proof.Laws.RowMatch

/-- The encoding is a transaction that matches a bus row of the table (30_encoding.md R85, R86). -/
def busRow (i : Instr) (mask value : BusWord) : Prop := ∃ w, encode i = busBytes w ∧ w &&& mask = value

/-- The encoding is a header byte that matches a frame row of the table (30_encoding.md R87). -/
def headerRow (i : Instr) (mask value : Byte) : Prop := ∃ b, encode i = [b] ∧ b &&& mask = value

/-- The encoding of an operation matches its row of the table. -/
def Statement (i : Instr) : Prop :=
  match i with
  | .rd _ => busRow i 0x60000#19 0x40000#19
  | .wr _ _ => busRow i 0x60000#19 0x60000#19
  | .rxon => busRow i 0x7FF01#19 0x60001#19
  | .rxoff => busRow i 0x7FF01#19 0x60000#19
  | .txStart _ _ _ _ _ => busRow i 0x7FF02#19 0x60002#19
  | .encOnly _ _ _ _ => busRow i 0x7FF06#19 0x60004#19
  | .rxAck _ _ _ => busRow i 0x7FF08#19 0x60008#19
  | .errClr _ _ => busRow i 0x7FF10#19 0x60010#19
  | .txDoneClr _ => busRow i 0x7FF20#19 0x60020#19
  | .cmd0Ping => headerRow i 0x3C#8 0x00#8
  | .cmd1Burst => headerRow i 0x3C#8 0x04#8
  | .cmd2Display => headerRow i 0x3C#8 0x08#8
  | .cmd3Temp => headerRow i 0x3C#8 0x0C#8
  | .cmd4Toggle => headerRow i 0x3C#8 0x10#8
  | .cmd5Setfreq => headerRow i 0x3C#8 0x14#8
  | .cmd6Stats => headerRow i 0x3C#8 0x18#8
  | .cmd7Samples => headerRow i 0x3C#8 0x1C#8
  | .cmdUnassigned _ => headerRow i 0x20#8 0x20#8

/-- The two top bits of a transaction put together: bus_sel = 1 and bus_we. -/
theorem busWord_top (we : Bool) (a : Addr) (v : Byte) :
    busWord we a v &&& 0x60000#19 = if we then 0x60000#19 else 0x40000#19 := by
  apply BitVec.eq_of_getLsbD_eq
  intro i hi
  have hcase : i = 18 ∨ i = 17 ∨ i < 17 := by omega
  rcases hcase with rfl | rfl | h
  · cases we <;> simp
  · cases we <;> simp
  · have h1 := (by decide : ∀ i < 17, (0x60000#19).getLsbD i = false) i h
    have h2 := (by decide : ∀ i < 17, (0x40000#19).getLsbD i = false) i h
    cases we <;> simp only [BitVec.getLsbD_and, h1, h2, Bool.and_false, if_true, Bool.false_eq_true, if_false]

theorem rd (a : Addr) : Statement (.rd a) := ⟨_, rfl, busWord_top false a 0#8⟩
theorem wr (a : Addr) (v : Byte) : Statement (.wr a v) := ⟨_, rfl, busWord_top true a v⟩
theorem rxon : Statement .rxon := ⟨_, rfl, by decide⟩
theorem rxoff : Statement .rxoff := ⟨_, rfl, by decide⟩
theorem txStart (rxEn encOnly rxAck errClr txDoneClr : Bool) :
    Statement (.txStart rxEn encOnly rxAck errClr txDoneClr) :=
  ⟨_, rfl, by revert rxEn encOnly rxAck errClr txDoneClr; decide⟩
theorem encOnly (rxEn rxAck errClr txDoneClr : Bool) : Statement (.encOnly rxEn rxAck errClr txDoneClr) :=
  ⟨_, rfl, by revert rxEn rxAck errClr txDoneClr; decide⟩
theorem rxAck (rxEn errClr txDoneClr : Bool) : Statement (.rxAck rxEn errClr txDoneClr) :=
  ⟨_, rfl, by revert rxEn errClr txDoneClr; decide⟩
theorem errClr (rxEn txDoneClr : Bool) : Statement (.errClr rxEn txDoneClr) :=
  ⟨_, rfl, by revert rxEn txDoneClr; decide⟩
theorem txDoneClr (rxEn : Bool) : Statement (.txDoneClr rxEn) := ⟨_, rfl, by revert rxEn; decide⟩
theorem cmd0Ping : Statement .cmd0Ping := ⟨_, rfl, by decide⟩
theorem cmd1Burst : Statement .cmd1Burst := ⟨_, rfl, by decide⟩
theorem cmd2Display : Statement .cmd2Display := ⟨_, rfl, by decide⟩
theorem cmd3Temp : Statement .cmd3Temp := ⟨_, rfl, by decide⟩
theorem cmd4Toggle : Statement .cmd4Toggle := ⟨_, rfl, by decide⟩
theorem cmd5Setfreq : Statement .cmd5Setfreq := ⟨_, rfl, by decide⟩
theorem cmd6Stats : Statement .cmd6Stats := ⟨_, rfl, by decide⟩
theorem cmd7Samples : Statement .cmd7Samples := ⟨_, rfl, by decide⟩
theorem cmdUnassigned (low : BitVec 3) : Statement (.cmdUnassigned low) := ⟨_, rfl, by revert low; decide⟩

end Sys2Proof.Laws.RowMatch
end

