-- ==== Sys2Proof/Laws/Run.lean ====
section
/-! SUPPORT. Runs of many cycles, one cycle at a time from either end; what the synchronizer does in a cycle; and the
levels of a frame on the line. -/

namespace Sys2Proof.Machine

/-- A run begins with its first cycle. -/
theorem run_first {k : Nat} {s t : State} (h : step s = .next t) :
    Host.Core.run Sys2Proof.core (k + 1) s = Host.Core.run Sys2Proof.core k t := by
  have h' : Sys2Proof.core.step s = .next t := h
  simp only [Host.Core.run, h']

/-- A run ends with its last cycle. -/
theorem run_last (k : Nat) (s : State) :
    Host.Core.run Sys2Proof.core (k + 1) s = andThen (Host.Core.run Sys2Proof.core k s) step := by
  induction k generalizing s with
  | zero =>
    obtain ⟨t, ht⟩ := step_next s
    rw [run_first ht]
    exact ht.symm
  | succ k ih =>
    obtain ⟨t, ht⟩ := step_next s
    rw [run_first ht, run_first ht]
    exact ih t

/-- A run of any number of cycles reaches a state: no cycle stops. -/
theorem run_next (k : Nat) (s : State) : ∃ t, Host.Core.run Sys2Proof.core k s = .next t := by
  induction k generalizing s with
  | zero => exact ⟨s, rfl⟩
  | succ k ih =>
    obtain ⟨t, ht⟩ := step_next s
    rw [run_first ht]
    exact ih t

/-- The stages that hold 0 after a shift (10_state.md R47). -/
theorem mem_shiftSync (rxd : Bool) (low : List Nat) (k : Nat) :
    k ∈ shiftSync rxd low ↔
      1 ≤ k ∧ k ≤ Config.syncStages ∧ ((k = 1 ∧ rxd = false) ∨ k - 1 ∈ low) := by
  unfold shiftSync lowStages
  cases rxd
  · simp only [Bool.false_eq_true, if_false, List.mem_filter, List.mem_map, List.mem_cons, decide_eq_true_eq, and_true]
    constructor
    · rintro ⟨⟨a, rfl | ha, rfl⟩, h2⟩
      · exact ⟨by omega, h2, .inl (by omega)⟩
      · exact ⟨by omega, h2, .inr (by simpa using ha)⟩
    · rintro ⟨h1, h2, rfl | h3⟩
      · exact ⟨⟨0, .inl rfl, rfl⟩, h2⟩
      · exact ⟨⟨_, .inr h3, by omega⟩, h2⟩
  · simp only [if_true, List.mem_filter, List.mem_map, decide_eq_true_eq, Bool.true_eq_false, and_false, false_or]
    constructor
    · rintro ⟨⟨a, ha, rfl⟩, h2⟩
      exact ⟨by omega, h2, by simpa using ha⟩
    · rintro ⟨h1, h2, h3⟩
      exact ⟨⟨_, h3, by omega⟩, h2⟩

theorem frameLevels_length (bytes : List Byte) (p : Nat) :
    (frameLevels bytes p).length = (11 * bytes.length + 2) * p := by
  rw [← frameSlots_length]
  unfold frameLevels
  induction frameSlots bytes with
  | nil => simp
  | cons a l ih => rw [List.flatMap_cons, List.length_append, ih, List.length_replicate, List.length_cons]; ring

/-- Cycle `d` of slot `j` has the level of slot `j` (30_encoding.md R81, R82). -/
theorem frameLevels_getD (bytes : List Byte) (p : Nat) {j d : Nat} (hj : j < 11 * bytes.length + 2) (hd : d < p) :
    (frameLevels bytes p).getD (j * p + d) true = (frameSlots bytes).getD j true := by
  rw [← frameSlots_length] at hj
  unfold frameLevels
  generalize frameSlots bytes = l at hj
  induction l generalizing j with
  | nil => simp at hj
  | cons a l ih =>
    rw [List.flatMap_cons]
    cases j with
    | zero =>
      rw [List.getD_append _ _ _ _ (by simp; omega)]
      simp [hd]
    | succ j =>
      rw [List.getD_append_right _ _ _ _ (by simp; rw [Nat.add_mul]; omega)]
      have e : (j + 1) * p + d - (List.replicate p a).length = j * p + d := by simp; rw [Nat.add_mul]; omega
      rw [e, ih (by simpa using hj)]
      simp

end Sys2Proof.Machine
end

