-- ==== Sys2Proof/Machine/HostProgram.lean ====
section
/-! DEFINITION. The host program notation (30_encoding.md R90) and its pseudo-instructions (R91), as the transactions of
consecutive cycles. POLL is a loop of the host over what it reads, so its length is not a function of the program text;
it is repeated `R a` transactions, as many as the host makes. -/

namespace Sys2Proof.Machine

/-- `W a, v` (30_encoding.md R90). -/
def hostWrite (a : Addr) (v : Byte) : List BusWord := [busWord true a v]

/-- `R a` (30_encoding.md R90). -/
def hostRead (a : Addr) : List BusWord := [busWord false a 0#8]

/-- `NOP n` (30_encoding.md R90). -/
def hostNop (n : Nat) : List BusWord := List.replicate n 0#19

/-- `POLL a, m, v` that takes `n` reads (30_encoding.md R90). -/
def hostPoll (n : Nat) (a : Addr) : List BusWord := List.replicate n (busWord false a 0#8)

/-- `SETBITPER p` (30_encoding.md R91). -/
def setBitper (p : BitVec 24) : List BusWord :=
  hostWrite 0x008#9 (getByte p 0) ++ hostWrite 0x009#9 (getByte p 1) ++ hostWrite 0x00A#9 (getByte p 2)

/-- `SETQUIET q` (30_encoding.md R91). -/
def setQuiet (q : BitVec 32) : List BusWord :=
  hostWrite 0x00C#9 (getByte q 0) ++ hostWrite 0x00D#9 (getByte q 1) ++ hostWrite 0x00E#9 (getByte q 2)
    ++ hostWrite 0x00F#9 (getByte q 3)

/-- The writes of payload bytes from address `a` on. -/
def loadPayload : Addr → List Byte → List BusWord
  | _, [] => []
  | a, b :: bs => hostWrite a b ++ loadPayload (a + 1#9) bs

/-- `LOADTX c, payload` (30_encoding.md R91). -/
def loadTx (c : Byte) (payload : List Byte) : List BusWord :=
  hostWrite 0x004#9 c ++ hostWrite 0x005#9 (BitVec.ofNat 8 payload.length) ++ loadPayload 0x040#9 payload

/-- A CTRL write of a command bit with RX_EN = `e`: RXON, RXOFF, TXGO, ENC, ACK, ERRCLR, TXDCLR (30_encoding.md R91). -/
def ctrlCommand (cmd : Byte) (e : Bool) : List BusWord := hostWrite ctrlAddr (cmd ||| ctrlByte e false false false false false)

/-- `RXON` -/
def rxOn : List BusWord := hostWrite ctrlAddr 0x01#8
/-- `RXOFF` -/
def rxOff : List BusWord := hostWrite ctrlAddr 0x00#8
/-- `TXGO e` -/
def txGo (e : Bool) : List BusWord := ctrlCommand 0x02#8 e
/-- `ENC e` -/
def enc (e : Bool) : List BusWord := ctrlCommand 0x04#8 e
/-- `ACK e` -/
def ack (e : Bool) : List BusWord := ctrlCommand 0x08#8 e
/-- `ERRCLR e` -/
def errclr (e : Bool) : List BusWord := ctrlCommand 0x10#8 e
/-- `TXDCLR e` -/
def txdclr (e : Bool) : List BusWord := ctrlCommand 0x20#8 e

/-- The inputs of consecutive non-reset cycles: the transactions of a program, the line at a constant level. -/
def programInputs (rxd : Bool) (program : List BusWord) : List CycleInput :=
  program.map fun w => { rst := false, bus := w, rxd := rxd }

/-- The state with a program's inputs placed before those it had. -/
def State.withProgram (s : State) (rxd : Bool) (program : List BusWord) : State :=
  { s with inputs := programInputs rxd program ++ s.inputs }

end Sys2Proof.Machine
end

