-- ==== Sys2Proof/Machine/Link.lean ====
section
/-! DEFINITION. Two instances on one clock: B's `rxd` is A's `txd`, and optionally A's `rxd` is B's `txd` (00_scope.md
R16, 60_exceptions.md R169). They share no state but the wire. Independent clocks are outside (log 13). Both have the parameters of Config, the same
SYNC_STAGES, BITPER_RESET and QUIET_RESET (DESIGN CHOICE, unsafe; log 17). -/

namespace Sys2Proof.Machine

/-- The state with `rxd` of this cycle driven to `v`, the other inputs of the cycle as they were. -/
def State.withRxd (s : State) (v : Bool) : State := { s with inputs := { s.input with rxd := v } :: s.inputs.tail }

/-- One cycle of a link. `duplex` says whether A's `rxd` is B's `txd`, or stays A's own input. The two
instances share the OPEN parameters (DESIGN CHOICE; log 17). -/
def linkStep (duplex : Bool) (ab : State × State) : Host.Outcome (State × State) Fault Refusal :=
  match step (if duplex then ab.1.withRxd ab.2.txdPort else ab.1), step (ab.2.withRxd ab.1.txdPort) with
  | .next a, .next b => .next (a, b)
  | .fault r, _ => .fault r
  | .refused r, _ => .refused r
  | _, .fault r => .fault r
  | _, .refused r => .refused r

end Sys2Proof.Machine
end

