-- ==== Sys2Proof/Tests/Slice0.lean ====
section
/-! SUPPORT. Tests: the check of WellFormed, words written out from the spec's encodings, one step of each operation with
its expected result from the spec, and a witness for the hypotheses of each statement. -/

namespace Sys2Proof.Tests

open Sys2Proof.Machine

/-! ### WellFormed -/

theorem test_wr_to_ctrl_ill_formed : (Instr.wr 0x000#9 0x55#8).wellFormed = false := by decide
theorem test_wr_elsewhere_well_formed : (Instr.wr 0x1FF#9 0x55#8).wellFormed = true := by decide

/-! ### Decoding: words written out bit by bit, bits 23 to 0 (30_encoding.md R85, R86) or 7 to 0 (R76, R87) -/

theorem test_decode_rd : decodeTableWord 24 0b000001000000001000000000 = some (.rd 0x002#9) := by decide
theorem test_decode_wr : decodeTableWord 24 0b000001100000010111000001 = some (.wr 0x005#9 0xC1#8) := by decide
theorem test_decode_wr_top : decodeTableWord 24 0b000001111111111111111111 = some (.wr 0x1FF#9 0xFF#8) := by decide
theorem test_decode_rxon : decodeTableWord 24 0b000001100000000000000001 = some .rxon := by decide
theorem test_decode_rxon_ignored_bits : decodeTableWord 24 0b000001100000000011000001 = some .rxon := by decide
theorem test_decode_rxoff : decodeTableWord 24 0b000001100000000000000000 = some .rxoff := by decide
theorem test_decode_txStart :
    decodeTableWord 24 0b000001100000000000101011 = some (.txStart true false true false true) := by decide
theorem test_decode_encOnly :
    decodeTableWord 24 0b000001100000000000010101 = some (.encOnly true false true false) := by decide
theorem test_decode_rxAck : decodeTableWord 24 0b000001100000000000101000 = some (.rxAck false false true) := by decide
theorem test_decode_errClr : decodeTableWord 24 0b000001100000000000010001 = some (.errClr true false) := by decide
theorem test_decode_txDoneClr : decodeTableWord 24 0b000001100000000000100000 = some (.txDoneClr false) := by decide
theorem test_decode_no_access : decodeTableWord 24 0b000000111111111111111111 = none := by decide
theorem test_decode_too_wide : decodeTableWord 24 0b000011000000000000000000 = none := by decide
theorem test_decode_cmd0 : decodeTableWord 8 0b00000000 = some .cmd0Ping := by decide
theorem test_decode_cmd1 : decodeTableWord 8 0b00000100 = some .cmd1Burst := by decide
theorem test_decode_cmd2 : decodeTableWord 8 0b00001000 = some .cmd2Display := by decide
theorem test_decode_cmd3 : decodeTableWord 8 0b00001100 = some .cmd3Temp := by decide
theorem test_decode_cmd4 : decodeTableWord 8 0b00010000 = some .cmd4Toggle := by decide
theorem test_decode_cmd5 : decodeTableWord 8 0b00010100 = some .cmd5Setfreq := by decide
theorem test_decode_cmd6 : decodeTableWord 8 0b00011000 = some .cmd6Stats := by decide
theorem test_decode_cmd7 : decodeTableWord 8 0b00011100 = some .cmd7Samples := by decide
theorem test_decode_cmd8 : decodeTableWord 8 0b00100000 = some (.cmdUnassigned 0#3) := by decide
theorem test_decode_cmd15_reserved : decodeTableWord 8 0b11111111 = some (.cmdUnassigned 7#3) := by decide

/-! ### Helpers -/

/-- A small state: after reset, but BITPER = 16 and QUIET = 5 instead of their OPEN values. -/
def base : State := { State.reset with host := { State.reset.host with bitPer := 16#24, quiet := 5#32 } }

/-- The state with these bytes in a buffer. -/
def withBuf (s : State) (b : Buffer) (bytes : List Byte) : State := s.fillBuf b bytes

/-- One field of the next state. -/
def field {α : Type} (o : Outcome) (f : State → α) : Option α :=
  match o with
  | .next s => some (f s)
  | .fault _ => none
  | .refused _ => none

/-- The state in which the receiver holds a complete frame of length `n`. -/
def received (n : BitVec 7) (bytes : List Byte) : State :=
  { withBuf base .rxWire bytes with rx := { base.rx with len := n } }

/-- An enabled receiver in this state, its deadline now. -/
def receiving (st : RxPhase) : State :=
  { base with host := { base.host with rxEn := true }, rx := { base.rx with st := st, p := 16#24, h := 8#23 } }

/-- A transmitter in this phase of a frame of four bytes, its deadline now. -/
def sending (ph : TxPhase) (idx : BitVec 7) (bit : BitVec 3) : State :=
  { base with
    host := { base.host with txWLen := 4#7 }
    tx := { base.tx with ph := ph, idx := idx, bit := bit, n := 4#7, p := 16#24, txd := false } }

/-! ### One step of each operation -/

/-- 95_test_vectors.md CO-E4: a write of 0xFF to TXLEN stores 0x7F (44_host_bus.md R146). -/
theorem test_wr_txlen : field (exec (.wr 0x005#9 0xFF#8) base) (·.host.txLen) = some 0x7F#7 := by decide
/-- BITPER is little-endian: its byte 1 is at 0x009 (20_memory.md R59). -/
theorem test_wr_bitper : field (exec (.wr 0x009#9 0xAB#8) base) (·.host.bitPer) = some 0x00AB10#24 := by decide
/-- STATUS reads 0x20 after a completed frame (95_test_vectors.md TX-2; 10_state.md R26). -/
theorem test_rd_status :
    field (exec (.rd 0x001#9) { base with tx := { base.tx with done := true } }) (·.busRdata) = some 0x20#8 := by decide
/-- A reserved address reads 0x00 (10_state.md R44). -/
theorem test_rd_reserved : field (exec (.rd 0x00B#9) base) (·.busRdata) = some 0x00#8 := by decide
theorem test_rxon : field (exec .rxon base) (·.host.rxEn) = some true := by decide
theorem test_rxoff : field (exec .rxoff (receiving .idle)) (·.host.rxEn) = some false := by decide
/-- TX_START drives the start bit and sets the deadline one period on (41_transmitter.md R103). -/
theorem test_txStart :
    field (exec (.txStart false false false false false) base) (fun t => (t.tx.ph, t.tx.txd, t.tx.dl))
      = some (.start, false, 16#32) := by decide +kernel
/-- 95_test_vectors.md CO-E1: TXLEN = 0x40 is refused with ERRFLAGS = 01. -/
theorem test_txStart_too_large :
    field (exec (.txStart false false false false false) { base with host := { base.host with txLen := 0x40#7 } })
      (fun t => (t.tx.ph, t.host.errFlags, t.host.txWLen)) = some (.txIdle, 0x01#8, 0#7) := by decide +kernel
/-- 95_test_vectors.md CO-13: command 1, "A" encodes to 04 02 41 00 04. -/
theorem test_encOnly :
    field (exec (.encOnly false false false false)
        (withBuf { base with host := { base.host with txCmd := 1#4, txLen := 1#7 } } .txPayload [0x41#8]))
      (fun t => ((t.bufBytes .txWire).take 6, t.host.txWLen))
      = some ([0x04#8, 0x02#8, 0x41#8, 0x00#8, 0x04#8, 0x00#8], 5#7) := by decide +kernel
theorem test_rxAck :
    field (exec (.rxAck true false false) { base with hold := { base.hold with ready := true, cmd := 3#4 } })
      (fun t => (t.hold.ready, t.hold.cmd)) = some (false, 3#4) := by decide
theorem test_errClr :
    field (exec (.errClr false false) { base with host := { base.host with errFlags := 0xFF#8 } }) (·.host.errFlags)
      = some 0x00#8 := by decide
theorem test_txDoneClr :
    field (exec (.txDoneClr false) { base with tx := { base.tx with done := true } }) (·.tx.done) = some false := by
  decide

/-! Wire frames of 95_test_vectors.md CO-1 to CO-9, each delivered with its code, length and validity. -/

theorem test_cmd0 :
    field (exec .cmd0Ping (received 0#7 [])) (fun t => (t.hold.cmd, t.hold.valid, t.rx.st))
      = some (0#4, true, .idle) := by decide +kernel
theorem test_cmd1 :
    field (exec .cmd1Burst (received 5#7
        [0x04#8, 0x0A#8, 0x68#8, 0x65#8, 0x6C#8, 0x6C#8, 0x6F#8, 0x00#8, 0x18#8]))
      (fun t => (t.hold.cmd, t.hold.valid, (t.bufBytes .rxPayload).take 6))
      = some (1#4, true, [0x68#8, 0x65#8, 0x6C#8, 0x6C#8, 0x6F#8, 0x00#8]) := by decide +kernel
theorem test_cmd2 :
    field (exec .cmd2Display (received 2#7 [0x08#8, 0x04#8, 0x48#8, 0x69#8, 0x00#8, 0x08#8]))
      (fun t => (t.hold.cmd, t.hold.valid, t.hold.len)) = some (2#4, true, 2#6) := by decide +kernel
theorem test_cmd3 :
    field (exec .cmd3Temp (received 4#7
        [0x0C#8, 0x08#8, 0x32#8, 0x33#8, 0x2E#8, 0x35#8, 0x00#8, 0x12#8]))
      (fun t => (t.hold.cmd, t.hold.valid, t.hold.cscLo)) = some (3#4, true, 0x12#8) := by decide +kernel
theorem test_cmd4 :
    field (exec .cmd4Toggle (received 0#7 [0x10#8, 0x00#8, 0x00#8, 0x01#8])) (fun t => (t.hold.cmd, t.hold.valid))
      = some (4#4, true) := by decide +kernel
theorem test_cmd5 :
    field (exec .cmd5Setfreq (received 2#7 [0x14#8, 0x04#8, 0x35#8, 0x30#8, 0x00#8, 0x09#8]))
      (fun t => (t.hold.cmd, t.hold.valid)) = some (5#4, true) := by decide +kernel
theorem test_cmd6 :
    field (exec .cmd6Stats (received 0#7 [0x18#8, 0x00#8, 0x00#8, 0x02#8])) (fun t => (t.hold.cmd, t.hold.valid))
      = some (6#4, true) := by decide +kernel
theorem test_cmd7 :
    field (exec .cmd7Samples (received 3#7 [0x1C#8, 0x06#8, 0x31#8, 0x2C#8, 0x32#8, 0x00#8, 0x0E#8]))
      (fun t => (t.hold.cmd, t.hold.valid)) = some (7#4, true) := by decide +kernel
theorem test_cmd15 :
    field (exec (.cmdUnassigned 7#3) (received 0#7 [0x3C#8, 0x00#8, 0x00#8, 0x04#8]))
      (fun t => (t.hold.cmd, t.hold.valid)) = some (15#4, true) := by decide +kernel
/-- 95_test_vectors.md VA-1: a wrong checksum is delivered with valid = 0, sets RX_CHECKSUM and enters Recovery. -/
theorem test_bad_checksum :
    field (exec .cmd0Ping (received 0#7 [0x00#8, 0x00#8, 0x00#8, 0x01#8]))
      (fun t => (t.hold.valid, t.host.errFlags, t.rx.st, t.rx.q)) = some (false, 0x40#8, .recovery, 5#32) := by
  decide +kernel
/-- 95_test_vectors.md TX-1, CO-5: the slots of the frame 10 00 00 01, parity 0, guard 1. -/
theorem test_frame_slots :
    (frameSlots [0x10#8, 0x00#8, 0x00#8, 0x01#8]).map Bool.toNat =
      [0,0,0,0,0,1,0,0,0,1,1, 0,0,0,0,0,0,0,0,0,1,1, 0,0,0,0,0,0,0,0,0,1,1, 0,1,0,0,0,0,0,0,0,1,1, 0,1] := by decide
/-- 95_test_vectors.md HD-1: length byte 0x80 gives 64, 0x09 gives 4. -/
theorem test_header_length : headerLength 0x80#8 = 64#7 ∧ headerLength 0x09#8 = 4#7 := by decide
/-- LOADTX 03 with one byte of payload (30_encoding.md R91). -/
theorem test_loadTx :
    loadTx 0x03#8 [0x41#8]
      = [busWord true 0x004#9 0x03#8, busWord true 0x005#9 0x01#8, busWord true 0x040#9 0x41#8] := by decide

/-! ### The step -/

/-- A transaction placed at the fetch runs in the next step, and NOW counts. -/
theorem test_step_runs_transaction :
    field (step (base.withFetchWord 24 0x60405)) (fun t => (t.host.txCmd, t.now)) = some (5#4, 1#32) := by
  decide +kernel
/-- A header byte placed at the fetch is delivered in the next step, with its Dispatch event. -/
theorem test_step_runs_frame :
    field (step (base.withFetchWord 8 0x1C)) (fun t => (t.hold.cmd, t.ev.dispatch, t.emitted))
      = some (7#4, true, [.dispatch 7#4 0#7 [] true]) := by decide +kernel
/-- The same from the state after reset itself. -/
theorem test_first_step_from_reset :
    field (step (State.reset.withFetchWord 8 0x20)) (fun t => (t.hold.cmd, t.hold.valid)) = some (8#4, true) := by
  decide +kernel
/-- B's `rxd` is A's `txd` (00_scope.md R16). -/
theorem test_link_drives_rxd : (base.withRxd (sending .start 0#7 0#3).txdPort).input.rxd = false := by decide

/-! ### Witnesses: for each statement with hypotheses, a concrete state and operands that meet them -/

theorem witness_DecodeOfEncodeIsIdentity : (Instr.wr 0x001#9 0xFF#8).wellFormed = true := by decide

/-- No access; a read; a CTRL byte with its ignored bits set; a write. -/
theorem witness_EveryTransactionIsLegal :
    (0x3FFFF#19)[18] = false ∧ ((0x5FFFF#19)[18] = true ∧ (0x5FFFF#19)[17] = false) ∧
    ((0x600FF#19)[18] = true ∧ (0x600FF#19)[17] = true ∧ (0x600FF#19).extractLsb' 8 9 = 0#9) ∧
    ((0x60100#19)[18] = true ∧ (0x60100#19)[17] = true ∧ (0x60100#19).extractLsb' 8 9 ≠ 0#9) := by decide

theorem witness_StepRunsDecodedTransaction :
    ((base.withFetchWord 24 0x60405).input.rst = false ∧
      decodeBus (base.withFetchWord 24 0x60405).input.bus = .ok (.wr 0x004#9 0x05#8)) ∧
    (base.input.rst = false ∧ base.input.bus[18] = false) := by decide

theorem witness_StepRunsReceivedCommand :
    let s := base.withFetchWord 8 0x0C
    s.input.rst = false ∧ s.input.bus[18] = false ∧
    frameAccepted (s.line s.input.rxd) (clearEvents (txStep (beginCycle s))) = true ∧
    decode [s.bufByte .rxWire 0] = .ok .cmd3Temp := by decide +kernel

/-- A frame about to be accepted while another is held, in a cycle that writes RX_ACK and keeps the receiver enabled. -/
def ackRace : State :=
  let s := base.withFetchWord 8 0x0C
  { s with
    hold := { s.hold with ready := true }
    inputs := [{ rst := false, bus := busWord true ctrlAddr 0x09#8, rxd := true }] }

/-- The second case: a cycle with an access. -/
theorem witness_StepRunsReceivedCommand_access :
    ackRace.input.rst = false ∧ decodeBus ackRace.input.bus = .ok (.rxAck true false false) ∧
    decode [ackRace.bufByte .rxWire 0] = .ok .cmd3Temp ∧
    ∃ u, exec (.rxAck true false false) (beginCycle ackRace) = .next u ∧
      frameAccepted (ackRace.line ackRace.input.rxd) (clearEvents (txStep u)) = true :=
  ⟨by decide, by decide, by decide +kernel, _, rfl, by decide +kernel⟩

/-- The race: the older frame is acknowledged first, so no overrun is recorded (43_dispatch.md R131). -/
theorem test_ack_race :
    field (step ackRace) (fun t => (t.ev.dispatch, t.hold.ready, t.host.errFlags)) = some (true, true, 0x00#8) := by
  decide +kernel

theorem witness_AcknowledgeBeforeDispatchAvoidsOverrun :
    (∃ t, step ackRace = .next t) ∧ ackRace.input.rst = false ∧ ackRace.input.bus[18] = true ∧
    ackRace.input.bus[17] = true ∧ ackRace.input.bus.extractLsb' 8 9 = 0#9 ∧ ackRace.input.bus[3] = true ∧
    field (step ackRace) (·.ev.dispatch) = some true :=
  ⟨step_next _, by decide, by decide, by decide, by decide, by decide, by decide +kernel⟩

/-- The addresses next to each excluded range. -/
theorem witness_ResetStateHoldsSpecifiedValues :
    ∀ a ∈ [0x000#9, 0x007#9, 0x00B#9, 0x010#9, 0x1FF#9],
      ¬ (0x008#9 ≤ a ∧ a ≤ 0x00A#9) ∧ ¬ (0x00C#9 ≤ a ∧ a ≤ 0x00F#9) := by decide

/-- The bounds of the buffers and of the reserved ranges. -/
theorem witness_ReadShowsRegisterMap :
    (62 < 63 ∧ 66 < 67 ∧ 63 < 64) ∧
    ∀ a ∈ [0x00B#9, 0x017#9, 0x03F#9, 0x07F#9, 0x0C3#9, 0x0FF#9, 0x140#9, 0x17F#9, 0x1C3#9, 0x1FF#9],
      a = 0x00B#9 ∨ (0x017#9 ≤ a ∧ a ≤ 0x03F#9) ∨ a = 0x07F#9 ∨ (0x0C3#9 ≤ a ∧ a ≤ 0x0FF#9) ∨
        (0x140#9 ≤ a ∧ a ≤ 0x17F#9) ∨ 0x1C3#9 ≤ a := by decide

theorem witness_WriteStoresItsRegisterOnly :
    memWf base.mem ∧ ∀ a ∈ [0x001#9, 0x003#9, 0x008#9, 0x00A#9, 0x00C#9, 0x00F#9, 0x040#9, 0x07E#9, 0x07F#9, 0x1FF#9],
      a ≠ 0x000#9 := by decide

theorem witness_ReadBackAfterWrite : memWf base.mem ∧ (0x07E#9 : Addr) ≠ 0x000#9 ∧ (0x07F#9 : Addr) ≠ 0x07E#9 := by
  decide

/-- TXLEN = 63, the longest payload, and TXLEN = 0. -/
theorem witness_TransmitStartEncodesAndBegins :
    (memWf base.mem ∧ base.tx.ph = .txIdle ∧ base.host.txLen.toNat ≤ 63) ∧
    ({ base with host := { base.host with txLen := 63#7 } } : State).host.txLen.toNat ≤ 63 := by decide

theorem witness_EncodeOnlyWritesWireFrame :
    let s : State := { base with host := { base.host with txLen := 63#7 } }
    memWf s.mem ∧ s.tx.ph = .txIdle ∧ s.host.txLen.toNat ≤ 63 ∧ 62 < s.host.txLen.toNat ∧
    s.host.txLen.toNat + 4 ≤ 67 := by decide

/-- TXLEN = 64, the shortest that is too large, and 127; TXLEN = 63, the longest that is not. -/
theorem witness_PayloadTooLargeIsRejected :
    (base.tx.ph = .txIdle ∧ 63 < ({ base.host with txLen := 64#7 } : HostRegs).txLen.toNat) ∧
    63 < ({ base.host with txLen := 127#7 } : HostRegs).txLen.toNat ∧
    ({ base.host with txLen := 63#7 } : HostRegs).txLen.toNat ≤ 63 := by decide

theorem witness_BusyTransmitterIgnoresEncodeCommands : (sending .guard 3#7 7#3).tx.ph ≠ .txIdle := by decide

/-- An assigned and the last unassigned code; the payload bytes next to the end of a full payload. -/
theorem witness_FrameCommandDeliversFrame :
    frameCode .cmd0Ping = some 0#4 ∧ frameCode (.cmdUnassigned 7#3) = some 15#4 ∧ memWf (received 63#7 []).mem ∧
    62 < (received 63#7 []).rx.len.toNat ∧ ¬ 63 < (received 63#7 []).rx.len.toNat := by decide +kernel

theorem witness_FrameCommandChangesNothingElse :
    frameCode .cmd7Samples = some 7#4 ∧ memWf (received 0#7 [0x1C#8]).mem ∧
    ((0x0FF : Nat) < 0x100 ∨ 0x140 ≤ 0x0FF) ∧ ((0x140 : Nat) < 0x100 ∨ 0x140 ≤ 0x140) := by decide +kernel

/-- An enabled receiver at the final stop sample of a frame whose checksum is wrong and whose parity is right. -/
def badFrame : State :=
  { withBuf (receiving .verifyFinalStop) .rxWire [0x00#8, 0x00#8, 0x00#8, 0x03#8] with
    rx := { (receiving .verifyFinalStop).rx with idx := 4#7, ones := 2#10 } }

theorem witness_ChecksumFailureEntersRecoverySilently :
    frameAccepted true badFrame = true ∧ badFrame.frameValid = false := by decide +kernel

theorem witness_EncodedFrameIsDeliveredUnchanged :
    let s := withBuf { base with host := { base.host with txCmd := 1#4, txLen := 1#7 } } .txPayload [0x41#8]
    let r := received 1#7 [0x04#8, 0x02#8, 0x41#8, 0x00#8, 0x04#8]
    memWf s.mem ∧ memWf r.mem ∧ s.host.txLen.toNat ≤ 63 ∧
    r.bufBytes .rxWire = (encodeFrame s).bufBytes .txWire ∧ r.rx.len = headerLength (r.bufByte .rxWire 1) ∧
    decode [r.bufByte .rxWire 0] = .ok .cmd1Burst := by decide +kernel

/-- A LOW line; a wait of exactly RX_Q cycles; a shorter one. -/
theorem witness_RecoveryPollWaitsForQuiescence :
    let s := receiving .recovery
    s.host.rxEn = true ∧ s.rx.st = .recovery ∧ s.rx.q ≤ s.now - s.rx.qStart ∧
    ¬ ({ s.rx with q := 1#32 } : Rx).q ≤ s.now - s.rx.qStart := by decide

theorem witness_DisabledReceiverIsHeldIdle : base.host.rxEn = false := by decide

theorem witness_StartEdgeBeginsFreshFrame :
    let s := receiving .idle
    memWf s.mem ∧ s.host.rxEn = true ∧ s.rx.st = .idle ∧ s.rx.idx = 0#7 := by decide

theorem witness_NextByteEdgeBeatsTimeout :
    let s : State := { receiving .idle with rx := { (receiving .idle).rx with idx := 1#7 } }
    s.host.rxEn = true ∧ s.rx.st = .idle ∧ s.rx.idx ≠ 0#7 ∧ due s.now s.rx.dl = true ∧ due s.now 1#32 = false := by
  decide

theorem witness_SamplingStatesWaitForDeadline :
    let s : State := { receiving .receivingBits with rx := { (receiving .receivingBits).rx with dl := 1#32 } }
    s.host.rxEn = true ∧ due s.now s.rx.dl = false ∧ s.rx.st ≠ .idle ∧ s.rx.st ≠ .recovery := by decide

theorem witness_EightSamplesAssembleByte :
    let s := receiving .receivingBits
    s.host.rxEn = true ∧ s.rx.st = .receivingBits ∧ s.rx.bit = 0#4 ∧ s.rx.byte = 0#8 := by decide

theorem witness_LowStopBitIsFramingError :
    ∀ st ∈ [RxPhase.verifyStop1, .verifyStop2],
      (receiving st).host.rxEn = true ∧ due (receiving st).now (receiving st).rx.dl = true ∧
      (receiving st).rx.st = st := by decide

/-- The commit of the second byte with length 64 and with length 63, and of the last byte of a frame without payload. -/
theorem witness_CommitStoresByteAndDecodesHeader :
    let s : State := receiving .verifyStop2;
    (memWf s.mem ∧ s.host.rxEn = true ∧ due s.now s.rx.dl = true ∧ s.rx.st = .verifyStop2) ∧
    (let r : Rx := { s.rx with idx := 1#7, byte := 0x80#8 };
      r.idx.toNat < 67 ∧ r.idx.toNat + 1 = 2 ∧ 63 < (r.byte.extractLsb' 1 7).toNat) ∧
    (let r : Rx := { s.rx with idx := 1#7, byte := 0x7F#8 };
      r.idx.toNat + 1 = 2 ∧ ¬ 63 < (r.byte.extractLsb' 1 7).toNat) ∧
    (let r : Rx := { s.rx with idx := 3#7 }; 3 ≤ r.idx.toNat + 1 ∧ r.idx.toNat + 1 = r.len.toNat + 4) ∧
    (let r : Rx := { s.rx with idx := 66#7, len := 63#7 };
      r.idx.toNat < 67 ∧ r.idx.toNat + 1 = r.len.toNat + 4) := by decide

/-- A due parity sample; a due final stop with a LOW line, and with a HIGH line and a wrong parity. -/
theorem witness_FinalChecksReportBothFailures :
    (let s := receiving .verifyFrameParity; s.host.rxEn = true ∧ due s.now s.rx.dl = true ∧
      s.rx.st = .verifyFrameParity) ∧
    (let s := receiving .verifyFinalStop; s.host.rxEn = true ∧ due s.now s.rx.dl = true ∧
      s.rx.st = .verifyFinalStop ∧ s.rx.pbit = s.rx.ones[0] ∧
      ({ s.rx with pbit := true } : Rx).pbit ≠ s.rx.ones[0]) := by decide

/-- A set flag over a quiet cycle. -/
theorem witness_ErrorFlagsAreSticky :
    let s : State := { base with host := { base.host with errFlags := 0x80#8 } }
    (∃ t, step s = .next t) ∧ s.input.rst = false ∧
    ¬ (s.input.bus[18] = true ∧ s.input.bus[17] = true ∧ s.input.bus.extractLsb' 8 9 = 0#9 ∧
      s.input.bus[4] = true) ∧
    s.host.errFlags.getLsbD 7 = true := ⟨step_next _, by decide, by decide, by decide⟩

/-- A cycle without event, one with a Dispatch, one with a SyncError. -/
theorem witness_EventRegistersMatchEmittedEvents :
    field (step base) (·.emitted) = some [] ∧
    field (step (base.withFetchWord 8 0x00)) (·.emitted) = some [.dispatch 0#4 0#7 [] true] ∧
    field (step { receiving .idle with rx := { (receiving .idle).rx with idx := 1#7 } }) (·.emitted)
      = some [.syncError .rxTimeout] := by decide +kernel

theorem witness_OnlyDispatchWritesHoldingRegisters :
    field (step { base with hold := { base.hold with ready := true } }) (fun t => (t.ev.dispatch, t.hold.ready))
      = some (false, true) ∧ base.input.rst = false := by decide +kernel

/-- A held frame and an RX_ACK, without a dispatch: RX_READY falls. -/
theorem witness_OnlyDispatchWritesHoldingRegisters_ack :
    let s := { base with hold := { base.hold with ready := true } }.withFetchWord 24 0x60008
    field (step s) (fun t => (t.ev.dispatch, t.hold.ready)) = some (false, false) ∧ s.input.rst = false ∧
    s.input.bus[18] = true ∧ s.input.bus[17] = true ∧ s.input.bus.extractLsb' 8 9 = 0#9 ∧ s.input.bus[3] = true := by
  decide +kernel

/-- Two states of one frame, one with a write of TXLEN in the cycle. -/
theorem witness_FrameInFlightIsIsolatedFromHost :
    let s := sending .data 1#7 3#3
    let s' := s.withFetchWord 24 0x6053F
    (∃ t, step s = .next t) ∧ (∃ t', step s' = .next t') ∧ s.input.rst = false ∧ s'.input.rst = false ∧
    s.tx.ph ≠ .txIdle ∧ s.tx = s'.tx ∧ s.now = s'.now ∧ s.bufBytes .txWire = s'.bufBytes .txWire :=
  ⟨step_next _, step_next _, rfl, rfl, by decide, rfl, rfl, rfl⟩

theorem witness_NowCountsCyclesUnseen :
    let s : State := { base with now := 0xFFFFFFFF#32 }
    field (step s) (·.now) = some 0#32 ∧ s.input.rst = false := by decide +kernel

theorem witness_SynchronizerIsShiftChain : (∃ t, step base = .next t) ∧ base.input.rst = false ∧ SyncLegal base :=
  ⟨step_next _, rfl, by simp [SyncLegal, base, State.reset]⟩

theorem witness_SynchronizerStaysLegal : SyncLegal base ∧ ∃ t, step base = .next t :=
  ⟨by simp [SyncLegal, base, State.reset], step_next _⟩

/-- The source raised by each term of the OR. -/
theorem witness_InterruptIsLevelOfEnabledSources :
    ({ base with hold := { base.hold with ready := true }, host := { base.host with irqEn := 1#3 } } : State).irq = true ∧
    ({ base with host := { base.host with errFlags := 0x40#8, irqEn := 2#3 } } : State).irq = true ∧
    ({ base with tx := { base.tx with done := true }, host := { base.host with irqEn := 4#3 } } : State).irq = true := by
  decide

/-- A deadline just under half the range ahead, across the wrap. -/
theorem witness_DeadlineFirstDueAtItsCycle :
    (0 : Nat) < 2 ^ 31 ∧ 2 ^ 31 - 1 < 2 ^ 31 ∧ due 0xFFFFFFFF#32 0x00000000#32 = false ∧
    due 0x00000000#32 0xFFFFFFFF#32 = true := by decide

theorem witness_ChecksumIgnoresByteOrder : [0x0C#8, 0x08#8, 0x32#8].Perm [0x08#8, 0x32#8, 0x0C#8] := by decide

/-- The frame 00 00 00 01 with bit 0 of its command byte flipped on the way. -/
theorem witness_WeightChangeIsDetected :
    let s := received 0#7 [0x04#8, 0x00#8, 0x00#8, 0x00#8]
    let sent := [0x00#8, 0x00#8]
    memWf s.mem ∧ s.rx.len.toNat ≤ 63 ∧ sent.length = s.rx.len.toNat + 2 ∧
    s.bufByte .rxWire (s.rx.len.toNat + 2) ++ s.bufByte .rxWire (s.rx.len.toNat + 3) = checksum sent ∧
    bitWeight ((s.bufBytes .rxWire).take (s.rx.len.toNat + 2)) ≠ bitWeight sent ∧
    decode [s.bufByte .rxWire 0] = .ok .cmd1Burst := by decide +kernel

theorem witness_OddFlipsChangeFrameParity : [0x01#8, 0x00#8].length = [0x0C#8, 0x08#8].length := by decide

theorem witness_MemoryStaysCanonical :
    let s := withBuf base .rxWire [0x0C#8, 0x08#8]
    memWf s.mem ∧ s.mem ≠ [] ∧ ∃ t, step s = .next t := ⟨by decide +kernel, by decide +kernel, step_next _⟩

theorem witness_IdleTransmitterDrivesHigh :
    (base.tx.ph = .txIdle → base.tx.txd = true) ∧ field (step base) (·.tx.ph) = some .txIdle := by decide +kernel

/-- A transmitter in data bit 2 of the frame 10 00 00 01, its first 1 bit still to come. -/
def inFrame : State := withBuf (sending .data 0#7 2#3) .txWire [0x10#8, 0x00#8, 0x00#8, 0x01#8]

theorem witness_TransmitterStaysLegal : memWf inFrame.mem ∧ TxLegal inFrame ∧ ∃ t, step inFrame = .next t :=
  ⟨by decide +kernel, by unfold TxLegal; decide +kernel, step_next _⟩

/-- A receiver with the first byte of a frame stored, in the second byte. -/
def inByte : State :=
  { withBuf (receiving .receivingBits) .rxWire [0x0C#8] with
    rx := { (receiving .receivingBits).rx with idx := 1#7, bit := 3#4, ones := 2#10 } }

theorem witness_ReceiverStaysLegal : memWf inByte.mem ∧ RxLegal inByte ∧ ∃ t, step inByte = .next t :=
  ⟨by decide +kernel, by unfold RxLegal InFlight RxDeadlineWithin; decide +kernel, step_next _⟩

theorem base_holdLegal : HoldLegal base := by
  refine ⟨fun i _ => ?_, by decide, by decide, by decide⟩
  simp [State.bufByte, base, State.reset, memRead, unlistedByte]

theorem witness_HoldingRegistersStayLegal :
    memWf base.mem ∧ RxLegal base ∧ HoldLegal base ∧ ∃ t, step base = .next t :=
  ⟨by decide, by unfold RxLegal InFlight RxDeadlineWithin; decide +kernel, base_holdLegal, step_next _⟩

theorem witness_EveryRunFromLegalStateStaysLegal : Legal base :=
  ⟨by decide, by simp [SyncLegal, base, State.reset], by unfold TxLegal; decide +kernel,
    by unfold RxLegal InFlight RxDeadlineWithin; decide +kernel, base_holdLegal⟩

/-- Idle; a deadline still ahead; and the end of each slot, data bits 6 and 7, a byte before the last and the last. -/
theorem witness_TransmitterSlotTransitions :
    base.tx.ph = .txIdle ∧ due base.now 1#32 = false ∧
    (∀ ph ∈ [TxPhase.start, .stop1, .parity, .guard], (sending ph 3#7 7#3).tx.ph = ph ∧
      due (sending ph 3#7 7#3).now (sending ph 3#7 7#3).tx.dl = true) ∧
    (sending .data 0#7 6#3).tx.bit.toNat < 7 ∧ (sending .data 0#7 7#3).tx.bit.toNat = 7 ∧
    (let s := sending .stop2 2#7 7#3; s.tx.idx.toNat + 1 < s.tx.n.toNat) ∧
    (let s := sending .stop2 3#7 7#3; ¬ s.tx.idx.toNat + 1 < s.tx.n.toNat) := by decide

/-- TX_START of a frame without payload at the shortest period, at its first cycle and at its completion. -/
theorem witness_TransmitterFollowsLineSchedule :
    let s := { base with host := { base.host with bitPer := 0#24 } }.withFetchWord 24 0x60002
    memWf s.mem ∧ s.tx.ph = .txIdle ∧ s.host.txLen.toNat ≤ 63 ∧
    decodeBus s.input.bus = .ok (.txStart false false false false false) ∧ (∀ j, NoReset s (j + 1)) ∧
    4 = s.host.txLen.toNat + 4 ∧ 2 = max s.host.bitPer.toNat 2 ∧
    [0x00#8, 0x00#8, 0x00#8, 0x00#8]
      = wireFrame s.host.txCmd s.host.txLen ((s.bufBytes .txPayload).take s.host.txLen.toNat) ∧
    (0 : Nat) < (11 * 4 + 2) * 2 ∧
    ∀ j, ∃ u, Host.Core.run Sys2Proof.core (j + 1) s = .next u :=
  ⟨by decide, by decide, by decide, by decide, fun j i hi => by simp_all [State.withFetchWord, placeTransaction, base, State.reset],
    by decide, by decide, by decide +kernel, by decide, fun j => run_next _ _⟩

/-- A receiver in front of the frame of command 0 without payload, at the shortest period. -/
theorem witness_WellTimedFrameIsDeliveredOnce :
    let r := { receiving .idle with host := { (receiving .idle).host with bitPer := 0#24 } }
    let s : State := { r with
      inputs := lineInputs (frameLevels (wireFrame 0#4 0#7 []) 2 ++ List.replicate Config.syncStages true) ++ [] }
    memWf s.mem ∧ s.host.rxEn = true ∧ s.rx.st = .idle ∧ s.rx.idx = 0#7 ∧ s.syncLow = [] ∧
    ([] : List Byte).length = (0#7).toNat ∧ (0#7).toNat ≤ 63 ∧ 4 = (0#7).toNat + 4 ∧ 2 = max s.host.bitPer.toNat 2 ∧
    (∃ u, Host.Core.run Sys2Proof.core 1 s = .next u) :=
  ⟨by decide, rfl, rfl, rfl, rfl, rfl, by decide, rfl, rfl, run_next _ _⟩

end Sys2Proof.Tests
end

section
/-! The parts of a cycle, as the state statements use them: what the host's access and the receiver's step leave
unchanged, and what a non-reset cycle does to NOW and to the synchronizer. -/

namespace Sys2Proof.Machine

/-- A bus write changes memory at the addresses of TXPAYLOAD alone (44_host_bus.md R146). -/
theorem memRead_busWrite_out (s : State) (a : Addr) (v : Byte) {x : Nat} (hx : ¬ (0x040 ≤ x ∧ x < 0x07F)) :
    memRead (s.busWrite a v).mem x = memRead s.mem x := by
  unfold State.busWrite
  split
  case h_11 =>
    split
    · next hc =>
      have hc' := (covers_iff _ _).1 hc
      simp only [Buffer.base, Buffer.size] at hc'
      exact memRead_memWrite_ne _ (by omega) _
    · rfl
  all_goals rfl

/-- The read-only host registers are not written by a bus write (44_host_bus.md R146). -/
theorem busWrite_readOnly (s : State) (a : Addr) (v : Byte) :
    (s.busWrite a v).host.txWLen = s.host.txWLen ∧ (s.busWrite a v).host.errFlags = s.host.errFlags := by
  unfold State.busWrite
  split
  case h_11 => split <;> exact ⟨rfl, rfl⟩
  all_goals exact ⟨rfl, rfl⟩

/-- Buffers that agree at their addresses hold the same bytes. -/
theorem bufBytes_eq_of_memRead {s t : State} {b : Buffer}
    (h : ∀ i, i < b.size → memRead s.mem (b.base + i) = memRead t.mem (b.base + i)) : s.bufBytes b = t.bufBytes b :=
  bufBytes_congr fun i hi => by rw [State.bufByte, State.bufByte, if_pos hi, if_pos hi, h i hi]

/-- After reset every byte of every buffer is 0x00 (10_state.md R54). -/
theorem bufByte_reset (b : Buffer) (i : Nat) : State.reset.bufByte b i = 0x00#8 := by
  unfold State.bufByte
  split <;> rfl

/-- Buffers that hold the same bytes agree byte by byte. -/
theorem bufByte_eq_of_bufBytes {s t : State} {b : Buffer} (h : s.bufBytes b = t.bufBytes b) (i : Nat) :
    s.bufByte b i = t.bufByte b i := by
  rw [← bufBytes_getD, ← bufBytes_getD, h]

/-- The elements that no access of the host changes (44_host_bus.md R145-R153). -/
theorem busPhase_frame {w : BusWord} {s t : State} (h : busPhase w s = .next t) :
    t.now = s.now ∧ t.rx = s.rx ∧ t.ev = s.ev ∧ t.syncLow = s.syncLow ∧ t.emitted = s.emitted := by
  rcases busPhase_cases w s with ⟨-, e⟩ | ⟨-, -, e⟩ | ⟨-, -, -, e⟩ | ⟨-, -, -, e⟩ <;> rw [e] at h <;> cases h <;> simp

/-- The host's access leaves RXWIRE alone (10_state.md R43). -/
theorem busPhase_rxWire {w : BusWord} {s t : State} (h : busPhase w s = .next t) :
    t.bufBytes .rxWire = s.bufBytes .rxWire :=
  bufBytes_eq_of_memRead fun i _ => busPhase_memRead h (by simp only [Buffer.base]; omega)

/-- The host's access leaves RXPAYLOAD alone (10_state.md R42). -/
theorem busPhase_rxPayload {w : BusWord} {s t : State} (h : busPhase w s = .next t) :
    t.bufBytes .rxPayload = s.bufBytes .rxPayload :=
  bufBytes_eq_of_memRead fun i _ => busPhase_memRead h (by simp only [Buffer.base]; omega)

/-- The receiver's step leaves the synchronizer alone (20_memory.md R67 step 5). -/
theorem rxStep_syncLow {line : Bool} {s t : State} (h : rxStep line s = .next t) : t.syncLow = s.syncLow := by
  rw [rxStep_eq] at h
  cases h
  split <;> simp

/-- The phases of a non-reset cycle (20_memory.md R67). -/
theorem step_phases {s t : State} (h : step s = .next t) (hr : s.input.rst = false) :
    ∃ s1 s3, busPhase s.input.bus (beginCycle s) = .next s1 ∧
      rxStep (s.line s.input.rxd) (clearEvents (txStep s1)) = .next s3 ∧ t = endCycle s.input.rxd s3 := by
  rcases step_cases h with ⟨hr', -⟩ | ⟨-, hp⟩
  · simp [hr] at hr'
  · exact hp

/-- A non-reset cycle counts NOW and shifts the synchronizer (20_memory.md R67 step 5). -/
theorem step_now_syncLow {s t : State} (h : step s = .next t) (hr : s.input.rst = false) :
    t.now = s.now + 1#32 ∧ t.syncLow = shiftSync s.input.rxd s.syncLow := by
  obtain ⟨s1, s3, h1, h3, rfl⟩ := step_phases h hr
  obtain ⟨hnow, -, -, hsync, -⟩ := busPhase_frame h1
  have hnow3 : s3.now = s1.now := by simpa using rxStep_now h3
  have hsync3 : s3.syncLow = s1.syncLow := by simpa using rxStep_syncLow h3
  simp [hnow3, hsync3, hnow, hsync]

/-- The effective bit period is at least P_MIN (10_state.md R33). -/
theorem two_le_effectivePeriod (q : BitVec 24) : 2 ≤ (effectivePeriod q).toNat := by
  unfold effectivePeriod Config.pMin
  split <;> bv_omega

/-! ### Deadlines over the end of a cycle -/

/-- A deadline that is not due is no further ahead in the next cycle (10_state.md R22, R23). -/
theorem ahead_next_of_not_due {now d : Time} {k : Nat} (hk : k ≤ 2 ^ 31) (h : (d - now).toNat < k)
    (hd : due now d = false) : (d - (now + 1#32)).toNat < k := by
  have := ahead_of_not_due hk h hd
  omega

/-- A deadline set `k` cycles ahead is ahead by less than `k` in the next cycle. -/
theorem ahead_next_of_set (now x : Time) (h0 : 0 < x.toNat) : (now + x - (now + 1#32)).toNat < x.toNat := by
  bv_omega

end Sys2Proof.Machine
end

section
/-! The transmitter's invariant (41_transmitter.md R102-R111): a legal slot of a frame, the start of a frame, the slot
transitions, and the deadline of the slot. -/

namespace Sys2Proof.Machine

/-! ### The weight of a part of a byte -/

@[simp] theorem weightBelow_zero (b : Byte) : weightBelow b 0 = 0 := rfl

theorem weightBelow_succ (b : Byte) (k : Nat) : weightBelow b (k + 1) = weightBelow b k + (b.getLsbD k).toNat := by
  simp [weightBelow, List.range_succ]

/-- The eight bits of a byte have its whole weight (40_codec.md R92). -/
theorem weightBelow_eight (b : Byte) : weightBelow b 8 = popcount8 b := by
  simp [weightBelow, popcount8, List.range_succ, Nat.add_assoc]

theorem weightBelow_le (b : Byte) (k : Nat) : weightBelow b k ≤ k := by
  induction k with
  | zero => simp
  | succ k ih =>
    have := (b.getLsbD k).toNat_le
    rw [weightBelow_succ]
    omega

/-! ### A legal slot -/

/-- The part of `TxLegal` about a frame in flight, but for the deadline (10_state.md R45; 41_transmitter.md R102). -/
structure TxSlotLegal (s : State) : Prop where
  n_ge : 4 ≤ s.tx.n.toNat
  n_le : s.tx.n.toNat ≤ 67
  n_eq : s.tx.n = s.host.txWLen
  idx_lt : s.tx.idx.toNat < s.tx.n.toNat
  last : s.tx.ph = .parity ∨ s.tx.ph = .guard → s.tx.idx.toNat + 1 = s.tx.n.toNat
  p_ge : 2 ≤ s.tx.p.toNat
  txd_eq : s.tx.txd = (frameSlots s.txFrame).getD s.txSlot true
  ones_eq : s.tx.ones.toNat = bitWeight (s.txFrame.take s.tx.idx.toNat)
    + weightBelow (s.bufByte .txWire s.tx.idx.toNat) s.txBitsSent

/-- A legal transmitter drives HIGH in idle, and in a frame its slot is legal and ends within a period. -/
theorem txLegal_iff (s : State) :
    TxLegal s ↔ (s.tx.ph = .txIdle → s.tx.txd = true) ∧
      (s.tx.ph ≠ .txIdle → TxSlotLegal s ∧ (s.tx.dl - s.now).toNat < s.tx.p.toNat) := by
  refine and_congr_right fun _ => imp_congr_right fun _ => ⟨?_, ?_⟩
  · rintro ⟨h1, h2, h3, h4, h5, h6, h7, h8, h9⟩
    exact ⟨⟨h1, h2, h3, h4, h5, h6, h8, h9⟩, h7⟩
  · rintro ⟨⟨h1, h2, h3, h4, h5, h6, h8, h9⟩, h7⟩
    exact ⟨h1, h2, h3, h4, h5, h6, h7, h8, h9⟩

/-- What a legal slot depends on: the transmitter but for TX_DONE and the deadline, TXWLEN and TXWIRE. -/
theorem TxSlotLegal.congr {s t : State} (hs : TxSlotLegal s) (d : Bool) (dl : Time)
    (htx : t.tx = { s.tx with done := d, dl := dl }) (hlen : t.host.txWLen = s.host.txWLen)
    (hbuf : t.bufBytes .txWire = s.bufBytes .txWire) : TxSlotLegal t := by
  have hframe : t.txFrame = s.txFrame := by simp only [State.txFrame, hbuf, htx]
  have hslot : t.txSlot = s.txSlot := by simp only [State.txSlot, htx]
  have hsent : t.txBitsSent = s.txBitsSent := by simp only [State.txBitsSent, htx]
  have hbyte := bufByte_eq_of_bufBytes hbuf
  obtain ⟨h1, h2, h3, h4, h5, h6, h7, h8⟩ := hs
  constructor <;> simp only [hframe, hslot, hsent, hbyte, hlen, htx] <;> assumption

/-- TXBEGIN after a successful ENCODE puts the start bit of byte 0 on the line (41_transmitter.md R103). -/
theorem txBegin_slotLegal {u : State} (hm : memWf u.mem) (hf : u.encodeFails = false) :
    TxSlotLegal (txBegin (encodeFrame u)) := by
  obtain ⟨hhost, -, -, -⟩ := encodeFrame_ok hm hf
  have hlen : (encodeFrame u).host.txWLen = u.host.txLen + 4#7 := by rw [hhost]
  have hn : (txBegin (encodeFrame u)).tx.n.toNat = u.host.txLen.toNat + 4 := by
    have := (encodeFails_false_iff u).1 hf
    show (encodeFrame u).host.txWLen.toNat = _
    rw [hlen]
    bv_omega
  have hle := (encodeFails_false_iff u).1 hf
  refine ⟨by omega, by omega, rfl, ?_, ?_, two_le_effectivePeriod _, ?_, ?_⟩
  · show 0 < _
    omega
  · rintro (h | h) <;> cases h
  · have h0 : 0 < (txBegin (encodeFrame u)).txFrame.length := by
      simp only [State.txFrame, List.length_take, bufBytes_length, Buffer.size, hn]
      omega
    exact (frameSlots_getD_byte _ h0 (j := 0) (by omega)).symm
  · rfl

/-! ### The slot transitions -/

section Slot

variable {s : State}

/-- The frame in flight has TX_N bytes. -/
theorem TxSlotLegal.txFrame_length (h : TxSlotLegal s) : s.txFrame.length = s.tx.n.toNat := by
  have := h.n_le
  simp only [State.txFrame, List.length_take, bufBytes_length, Buffer.size]
  omega

/-- The byte being sent is the byte TX_IDX of the frame in flight. -/
theorem TxSlotLegal.txFrame_getD (h : TxSlotLegal s) : s.txFrame.getD s.tx.idx.toNat unlistedByte = s.txByte := by
  rw [State.txByte, ← bufBytes_getD, State.txFrame]
  simp only [List.getD_eq_getElem?_getD, List.getElem?_take, if_pos h.idx_lt]

/-- Slot `j` of the byte being sent. -/
theorem TxSlotLegal.slot_getD (h : TxSlotLegal s) {j : Nat} (hj : j < 11) :
    (frameSlots s.txFrame).getD (11 * s.tx.idx.toNat + j) true = (byteSlots s.txByte).getD j true := by
  rw [frameSlots_getD_byte _ (by rw [h.txFrame_length]; exact h.idx_lt) hj, h.txFrame_getD]

/-- The weight of the frame up to and with the byte being sent. -/
theorem TxSlotLegal.weight_take_succ (h : TxSlotLegal s) :
    bitWeight (s.txFrame.take (s.tx.idx.toNat + 1))
      = bitWeight (s.txFrame.take s.tx.idx.toNat) + weightBelow s.txByte 8 := by
  rw [bitWeight_take_succ _ (by rw [h.txFrame_length]; exact h.idx_lt), h.txFrame_getD, weightBelow_eight]

/-- TX_ONES has room for the weight of a whole frame. -/
theorem TxSlotLegal.weight_le (h : TxSlotLegal s) : bitWeight (s.txFrame.take s.tx.idx.toNat) ≤ 8 * 66 := by
  have hw := bitWeight_le (s.txFrame.take s.tx.idx.toNat)
  have hi := h.idx_lt
  have hn := h.n_le
  simp only [List.length_take] at hw
  omega

/-- Counting one bit more in TX_ONES does not wrap. -/
theorem ones_add_bit {o : BitVec 10} (b : Bool) (h : o.toNat ≤ 1000) :
    (o + BitVec.ofNat 10 b.toNat).toNat = o.toNat + b.toNat := by
  have := b.toNat_le
  rw [BitVec.toNat_add, BitVec.toNat_ofNat]
  omega

/-- Driving data bit `k` of the byte being sent, `k` bits being sent before, is a legal slot (41_transmitter.md R105,
R106). -/
theorem TxSlotLegal.drive_bit (h : TxSlotLegal s) {k : Nat} (hsent : s.txBitsSent = k) (b : BitVec 3)
    (hb : b.toNat = k) :
    TxSlotLegal { s with tx := { txDrive (s.txByte.getLsbD k) s.tx with bit := b, ph := .data } } := by
  subst hb
  have hones := h.ones_eq
  have hw := h.weight_le
  have hle := weightBelow_le s.txByte b.toNat
  rw [hsent] at hones
  refine ⟨h.n_ge, h.n_le, h.n_eq, h.idx_lt, ?_, h.p_ge, ?_, ?_⟩
  · rintro (h | h) <;> cases h
  · have hs := h.slot_getD (j := 1 + b.toNat) (by omega)
    rw [byteSlots_getD_data _ b.isLt, ← Nat.add_assoc] at hs
    exact hs.symm
  · change (s.tx.ones + BitVec.ofNat 10 (s.txByte.getLsbD b.toNat).toNat).toNat
      = bitWeight (s.txFrame.take s.tx.idx.toNat) + weightBelow s.txByte (b.toNat + 1)
    change s.tx.ones.toNat = _ + weightBelow s.txByte b.toNat at hones
    rw [ones_add_bit _ (by omega), weightBelow_succ, hones, Nat.add_assoc]

/-- A stop bit of the byte being sent, all of whose bits are sent, is a legal slot (41_transmitter.md R107, R108). -/
theorem TxSlotLegal.drive_stop (h : TxSlotLegal s) (hsent : s.txBitsSent = 8) {ph : TxPhase}
    (hph : ph = .stop1 ∨ ph = .stop2) : TxSlotLegal { s with tx := { s.tx with txd := true, ph := ph } } := by
  have hones := h.ones_eq
  rw [hsent] at hones
  have h9 := h.slot_getD (j := 9) (by omega)
  have h10 := h.slot_getD (j := 10) (by omega)
  rcases hph with rfl | rfl
  · refine ⟨h.n_ge, h.n_le, h.n_eq, h.idx_lt, ?_, h.p_ge, h9.symm, hones⟩
    rintro (h | h) <;> cases h
  · refine ⟨h.n_ge, h.n_le, h.n_eq, h.idx_lt, ?_, h.p_ge, h10.symm, hones⟩
    rintro (h | h) <;> cases h

/-- The start bit of the next byte is a legal slot (41_transmitter.md R109). -/
theorem TxSlotLegal.drive_start (h : TxSlotLegal s) (hsent : s.txBitsSent = 8)
    (hlt : s.tx.idx.toNat + 1 < s.tx.n.toNat) :
    TxSlotLegal { s with tx := { s.tx with idx := s.tx.idx + 1#7, txd := false, ph := .start } } := by
  have hones := h.ones_eq
  rw [hsent] at hones
  have hidx : (s.tx.idx + 1#7).toNat = s.tx.idx.toNat + 1 := by
    have := h.n_le
    bv_omega
  refine ⟨h.n_ge, h.n_le, h.n_eq, ?_, ?_, h.p_ge, ?_, ?_⟩
  · exact hidx ▸ hlt
  · rintro (h | h) <;> cases h
  · change false = (frameSlots s.txFrame).getD (11 * (s.tx.idx + 1#7).toNat + 0) true
    rw [frameSlots_getD_byte _ (by rw [h.txFrame_length, hidx]; exact hlt) (by omega)]
    rfl
  · change s.tx.ones.toNat = bitWeight (s.txFrame.take (s.tx.idx + 1#7).toNat) + 0
    rw [hidx, h.weight_take_succ, hones]
    rfl

/-- Before the parity slot TX_ONES is the weight of the whole frame (41_transmitter.md R109). -/
theorem TxSlotLegal.ones_last (h : TxSlotLegal s) (hsent : s.txBitsSent = 8)
    (hlast : s.tx.idx.toNat + 1 = s.tx.n.toNat) : s.tx.ones.toNat = bitWeight s.txFrame := by
  rw [h.ones_eq, hsent, ← List.take_of_length_le (Nat.le_of_eq h.txFrame_length), ← hlast, List.take_take]
  simpa [State.txByte] using h.weight_take_succ.symm

/-- The frame parity bit is a legal slot (41_transmitter.md R109; 30_encoding.md R82). -/
theorem TxSlotLegal.drive_parity (h : TxSlotLegal s) (hsent : s.txBitsSent = 8)
    (hlast : s.tx.idx.toNat + 1 = s.tx.n.toNat) :
    TxSlotLegal { s with tx := { s.tx with txd := s.tx.ones[0], ph := .parity } } := by
  have hones := h.ones_eq
  rw [hsent] at hones
  refine ⟨h.n_ge, h.n_le, h.n_eq, h.idx_lt, fun _ => hlast, h.p_ge, ?_, hones⟩
  change s.tx.ones[0] = (frameSlots s.txFrame).getD (11 * s.tx.n.toNat) true
  rw [← h.txFrame_length, frameSlots_getD_parity, ← h.ones_last hsent hlast, ← BitVec.getLsbD_eq_getElem,
    BitVec.getLsbD, Nat.testBit_zero]

/-- The guard is a legal slot (41_transmitter.md R110; 30_encoding.md R82). -/
theorem TxSlotLegal.drive_guard (h : TxSlotLegal s) (hph : s.tx.ph = .parity) :
    TxSlotLegal { s with tx := { s.tx with txd := true, ph := .guard } } := by
  have hones := h.ones_eq
  have hsent : s.txBitsSent = 8 := by simp [State.txBitsSent, hph]
  rw [hsent] at hones
  refine ⟨h.n_ge, h.n_le, h.n_eq, h.idx_lt, fun _ => h.last (.inl hph), h.p_ge, ?_, hones⟩
  change true = (frameSlots s.txFrame).getD (11 * s.tx.n.toNat + 1) true
  rw [← h.txFrame_length, frameSlots_getD_guard]

/-- No slot transition changes the period or the deadline (41_transmitter.md R104). -/
theorem txNextSlot_p_dl (b : Byte) (t : Tx) : (txNextSlot b t).p = t.p ∧ (txNextSlot b t).dl = t.dl := by
  unfold txNextSlot
  split
  case h_3 => unfold txFromData; split <;> exact ⟨rfl, rfl⟩
  case h_5 => unfold txFromStop2; split <;> exact ⟨rfl, rfl⟩
  all_goals exact ⟨rfl, rfl⟩

/-- The transition at the end of a legal slot leads to a legal slot, unless it ends the frame (41_transmitter.md
R104-R111). -/
theorem TxSlotLegal.next (h : TxSlotLegal s) (hmid : (txNextSlot s.txByte s.tx).ph ≠ .txIdle) :
    TxSlotLegal { s with tx := txNextSlot s.txByte s.tx } := by
  unfold txNextSlot at hmid ⊢
  cases hph : s.tx.ph with
  | txIdle => exact h
  | start => exact h.drive_bit (k := 0) (by simp [State.txBitsSent, hph]) 0#3 rfl
  | data =>
    have hsent : s.txBitsSent = s.tx.bit.toNat + 1 := by simp [State.txBitsSent, hph]
    by_cases hlt : s.tx.bit.toNat < 7
    · have hbit := h.drive_bit hsent (s.tx.bit + 1#3) (by bv_omega)
      simp only [txFromData, if_pos hlt]
      rwa [← hph] at hbit
    · simp only [txFromData, if_neg hlt]
      exact h.drive_stop (by omega) (.inl rfl)
  | stop1 => exact h.drive_stop (by simp [State.txBitsSent, hph]) (.inr rfl)
  | stop2 =>
    have hsent : s.txBitsSent = 8 := by simp [State.txBitsSent, hph]
    by_cases hlt : s.tx.idx.toNat + 1 < s.tx.n.toNat
    · simp only [txFromStop2, if_pos hlt]
      exact h.drive_start hsent hlt
    · simp only [txFromStop2, if_neg hlt]
      exact h.drive_parity hsent (by have := h.idx_lt; omega)
  | parity => exact h.drive_guard hph
  | guard => exact absurd (by simp [hph, txFromGuard]) hmid

end Slot

/-! ### The phases of a cycle -/

/-- A frame ends with the line HIGH (41_transmitter.md R111). -/
theorem txNextSlot_idle {b : Byte} {t : Tx} (hbusy : t.ph ≠ .txIdle) (h : (txNextSlot b t).ph = .txIdle) :
    (txNextSlot b t).txd = true := by
  unfold txNextSlot txFromData txFromStop2 at h ⊢
  split at h
  case h_1 he => exact absurd he hbusy
  case h_2 => cases h
  case h_3 he =>
    split_ifs at h
    simp [txDrive, he] at h
  case h_4 => cases h
  case h_5 => split_ifs at h
  case h_6 => cases h
  case h_7 he => simp [txFromGuard]

/-- TxStep keeps TXD at 1 wherever the transmitter is idle (10_state.md R46). -/
theorem txStep_idle_high {s : State} (hs : s.tx.ph = .txIdle → s.tx.txd = true)
    (h : (txStep s).tx.ph = .txIdle) : (txStep s).tx.txd = true := by
  rw [txStep_tx] at h ⊢
  unfold txAdvance at h ⊢
  split_ifs at h ⊢ with hph hd
  · exact hs hph
  · unfold txAdvanceDeadline at h ⊢
    split_ifs at h ⊢ with he
    · exact txNextSlot_idle hph he
    · exact absurd h he
  · exact absurd h hph

/-- What the host's access does to the transmitter: it may clear TX_DONE, leaving a frame in flight alone, or begin a
frame (44_host_bus.md R148, R152; 41_transmitter.md R115). -/
theorem busPhase_tx {w : BusWord} {s t : State} (h : busPhase w s = .next t) :
    (∃ d, t.tx = { s.tx with done := d } ∧
      (s.tx.ph ≠ .txIdle → t.host.txWLen = s.host.txWLen ∧ t.bufBytes .txWire = s.bufBytes .txWire)) ∨
    (∃ u, (memWf s.mem → memWf u.mem) ∧ u.encodeFails = false ∧ t = txBegin (encodeFrame u)) := by
  rcases busPhase_cases w s with ⟨-, e⟩ | ⟨-, -, e⟩ | ⟨-, -, -, e⟩ | ⟨-, -, -, e⟩ <;> rw [e] at h <;> cases h
  · exact .inl ⟨s.tx.done, rfl, fun _ => ⟨rfl, rfl⟩⟩
  · exact .inl ⟨s.tx.done, rfl, fun _ => ⟨rfl, rfl⟩⟩
  · refine .inl ⟨s.tx.done, by simp, fun _ => ⟨(busWrite_readOnly _ _ _).1, bufBytes_eq_of_memRead fun i _ => ?_⟩⟩
    exact memRead_busWrite_out _ _ _ (by simp only [Buffer.base]; omega)
  · obtain ⟨u, hu, h | ⟨hidle, h⟩ | ⟨hidle, hf, h⟩⟩ := ctrlWrite_cases (w.extractLsb' 0 8) s <;> rw [h]
    · exact .inl ⟨_, by rw [hu], fun _ => by rw [hu]; exact ⟨rfl, rfl⟩⟩
    · refine .inl ⟨_, by rw [encodeFrame_tx, hu], fun hbusy => absurd hidle hbusy⟩
    · exact .inr ⟨u, fun hm => by rw [hu]; exact hm, by rw [hu]; exact hf, rfl⟩

/-- The transmitter between the host's access and TxStep: as in `TxLegal`, but that the deadline of a frame that has
just begun is a whole period ahead. -/
def TxReady (s : State) : Prop :=
  (s.tx.ph = .txIdle → s.tx.txd = true) ∧
    (s.tx.ph ≠ .txIdle → TxSlotLegal s ∧ (s.tx.dl - s.now).toNat ≤ s.tx.p.toNat)

/-- The host's access keeps the transmitter legal (44_host_bus.md R148; 41_transmitter.md R103, R115). -/
theorem busPhase_txReady {w : BusWord} {s t : State} (hm : memWf s.mem) (hs : TxLegal s)
    (h : busPhase w s = .next t) : TxReady t := by
  obtain ⟨hidle, hbusy⟩ := (txLegal_iff s).1 hs
  rcases busPhase_tx h with ⟨d, htx, hkeep⟩ | ⟨u, hu, hf, rfl⟩
  · have hnow := (busPhase_frame h).1
    refine ⟨fun hph => ?_, fun hph => ?_⟩
    · rw [htx] at hph ⊢
      exact hidle hph
    · have hph' : s.tx.ph ≠ .txIdle := by rwa [htx] at hph
      obtain ⟨hslot, hdl⟩ := hbusy hph'
      obtain ⟨hlen, hbuf⟩ := hkeep hph'
      exact ⟨hslot.congr d s.tx.dl htx hlen hbuf, by rw [htx, hnow]; exact Nat.le_of_lt hdl⟩
  · refine ⟨fun hph => (by cases hph), fun _ => ⟨txBegin_slotLegal (hu hm) hf, ?_⟩⟩
    change ((encodeFrame u).now + (effectivePeriod (encodeFrame u).host.bitPer).setWidth 32
      - (encodeFrame u).now).toNat ≤ (effectivePeriod (encodeFrame u).host.bitPer).toNat
    bv_omega

/-- TxStep keeps a frame in flight legal, the deadline counted from the next cycle (41_transmitter.md R104). -/
theorem txStep_slotLegal {s : State} (hs : TxReady s) (hmid : (txStep s).tx.ph ≠ .txIdle) :
    TxSlotLegal (txStep s) ∧ ((txStep s).tx.dl - (s.now + 1#32)).toNat < (txStep s).tx.p.toNat := by
  have hph : s.tx.ph ≠ .txIdle := fun h => hmid (by simp [txAdvance, h])
  obtain ⟨hslot, hdl⟩ := hs.2 hph
  have hp := hslot.p_ge
  have hp' := s.tx.p.isLt
  cases hd : due s.now s.tx.dl with
  | false =>
    have e : txStep s = s := by simp [txStep, txAdvance, hd]
    rw [e]
    have := ahead_of_not_due (k := s.tx.p.toNat + 1) (by omega) (by omega) hd
    exact ⟨hslot, by omega⟩
  | true =>
    have hnow : s.now = s.tx.dl := (due_iff_eq (by omega)).1 hd
    have e : (txStep s).tx = txAdvanceDeadline (txNextSlot s.txByte s.tx) := by simp [txAdvance, hph, hd]
    obtain ⟨hper, hkeep⟩ := txNextSlot_p_dl s.txByte s.tx
    have hnext : (txNextSlot s.txByte s.tx).ph ≠ .txIdle := fun h => hmid (by rw [e, txAdvanceDeadline, if_pos h, h])
    have e' : (txStep s).tx = { txNextSlot s.txByte s.tx with
        dl := s.tx.dl + (txNextSlot s.txByte s.tx).p.setWidth 32 } := by
      rw [e, txAdvanceDeadline, if_neg hnext, hkeep]
    refine ⟨(hslot.next hnext).congr _ _ e' rfl rfl, ?_⟩
    rw [e', hnow]
    dsimp only
    rw [hper]
    bv_omega

/-- The rest of a cycle after TxStep leaves the transmitter, TXWLEN and TXWIRE alone. -/
theorem rxStep_txWire {line : Bool} {s t : State} (h : rxStep line s = .next t) :
    t.tx = s.tx ∧ t.host.txWLen = s.host.txWLen ∧ t.bufBytes .txWire = s.bufBytes .txWire :=
  ⟨rxStep_tx h, by rw [rxStep_host h], bufBytes_congr fun i _ => rxStep_bufByte h (by decide) (by decide) i⟩

/-- Settles O47: the line holds the current slot. Each phase of the cycle keeps the transmitter legal. -/
theorem transmitterStaysLegal : Obligations.TransmitterStaysLegal := by
  intro s t hm hs h
  rcases step_cases h with ⟨-, rfl⟩ | ⟨-, s1, s3, h1, h3, rfl⟩
  · exact ⟨fun _ => rfl, fun hbusy => absurd rfl hbusy⟩
  · have hs1 : TxReady s1 := busPhase_txReady (s := beginCycle s) hm hs h1
    obtain ⟨htx, hlen, hbuf⟩ := rxStep_txWire h3
    have htx : s3.tx = (txStep s1).tx := htx
    have hnow : s3.now = s1.now := by simpa using rxStep_now h3
    rw [txLegal_iff]
    change (s3.tx.ph = .txIdle → s3.tx.txd = true) ∧ (s3.tx.ph ≠ .txIdle →
      TxSlotLegal (endCycle s.input.rxd s3) ∧ (s3.tx.dl - (s3.now + 1#32)).toNat < s3.tx.p.toNat)
    rw [htx, hnow]
    refine ⟨txStep_idle_high hs1.1, fun hph => ?_⟩
    obtain ⟨hslot, hdl⟩ := txStep_slotLegal hs1 hph
    exact ⟨hslot.congr _ _ htx hlen hbuf, hdl⟩

end Sys2Proof.Machine
end

section
/-! The receiver's invariant (42_receiver.md R116-R125): a legal frame in flight, what each poll makes of it, and the
deadline of the receiver's state over the end of a cycle. -/

namespace Sys2Proof.Machine

/-! ### A receiver with no frame in flight -/

/-- The receiver is frame-idle, or recovers: no frame is in flight. -/
def RxQuiet (s : State) : Prop := (s.rx.st = .idle ∨ s.rx.st = .recovery) ∧ s.rx.idx = 0#7

theorem RxQuiet.not_inFlight {s : State} (h : RxQuiet s) : ¬ InFlight s := by
  obtain ⟨hst | hst, hidx⟩ := h <;> simp [InFlight, State.rxActive, hst, hidx]

/-- A receiver with no frame in flight is legal. -/
theorem RxQuiet.legal {s : State} (h : RxQuiet s) : RxLegal s := by
  refine ⟨fun _ => h.2, fun hst => ?_, fun hst => ?_, fun _ => .inl (by simp [h.2]),
    fun hfl => absurd hfl h.not_inFlight⟩
  · rcases h.1 with h1 | h1 <;> rw [h1] at hst <;> cases hst
  · rcases h.1 with h1 | h1 <;> rw [h1] at hst <;> rcases hst with hst | hst <;> cases hst

/-- ABORT leaves no frame in flight (60_exceptions.md R159). -/
theorem rxQuiet_abortFrame (e : SyncFailure) (s : State) : RxQuiet (abortFrame e s) := by
  cases e <;> exact ⟨.inr rfl, rfl⟩

/-- The delivery of a frame leaves no frame in flight (42_receiver.md R125). -/
theorem rxQuiet_deliverFrame (cmd : BitVec 4) (s : State) : RxQuiet (deliverFrame cmd s) := by
  rw [deliverFrame_eq]
  unfold RxQuiet
  split
  · exact ⟨.inl rfl, rfl⟩
  · exact ⟨.inr rfl, rfl⟩

/-- The Recovery poll begins no frame (60_exceptions.md R160). -/
theorem rxQuiet_recoveryPoll {line : Bool} {s : State} (h : RxQuiet s) : RxQuiet (recoveryPoll line s) := by
  unfold recoveryPoll
  split_ifs
  · exact h
  · exact ⟨.inl rfl, h.2⟩
  · exact h

/-! ### A frame in flight -/

/-- The part of `RxLegal` about what a frame in flight has latched and counted (10_state.md R50; 40_codec.md R96). -/
structure RxFrameLegal (s : State) : Prop where
  len_ok : 2 ≤ s.rx.idx.toNat → s.rx.len.toNat ≤ 63 ∧ s.rx.len = headerLength (s.bufByte .rxWire 1)
  p_ge : 2 ≤ s.rx.p.toNat
  h_eq : s.rx.h = halfPeriod s.rx.p
  ones_eq : s.rx.ones.toNat = bitWeight ((s.bufBytes .rxWire).take s.rx.idx.toNat)

/-- What `RxFrameLegal` depends on. -/
theorem RxFrameLegal.congr {s t : State} (hs : RxFrameLegal s) (hbuf : t.bufBytes .rxWire = s.bufBytes .rxWire)
    (hidx : t.rx.idx = s.rx.idx) (hlen : t.rx.len = s.rx.len) (hp : t.rx.p = s.rx.p) (hh : t.rx.h = s.rx.h)
    (hones : t.rx.ones = s.rx.ones) : RxFrameLegal t := by
  obtain ⟨h1, h2, h3, h4⟩ := hs
  constructor <;> simp only [hidx, hlen, hp, hh, hones, hbuf, bufByte_eq_of_bufBytes hbuf] <;> assumption

/-- The deadline of the receiver's state seen from `now`: at most two periods ahead between bytes, and at most a half and
a whole period ahead before a sample (42_receiver.md R118-R124). -/
def RxDeadlineNear (s : State) (now : Time) : Prop :=
  (s.rx.st = .idle → (s.rx.dl - now).toNat < 2 * s.rx.p.toNat) ∧
    (s.rx.st ≠ .idle → (s.rx.dl - now).toNat < s.rx.h.toNat + s.rx.p.toNat)

/-- The indices of a legal receiver (42_receiver.md R120-R125). -/
def RxIndicesLegal (s : State) : Prop :=
  (s.rx.st = .recovery → s.rx.idx = 0#7) ∧
  (s.rx.st = .receivingBits → s.rx.bit.toNat < 8) ∧
  (s.rx.st = .verifyFrameParity ∨ s.rx.st = .verifyFinalStop → s.rx.idx.toNat = s.rx.len.toNat + 4) ∧
  (s.rx.st = .idle ∨ s.rx.st = .receivingBits ∨ s.rx.st = .verifyStop1 ∨ s.rx.st = .verifyStop2 →
    s.rx.idx.toNat < 2 ∨ s.rx.idx.toNat < s.rx.len.toNat + 4)

/-- A legal receiver has legal indices, and a frame in flight is legal with its deadline near. -/
theorem rxLegal_iff (s : State) :
    RxLegal s ↔ RxIndicesLegal s ∧ (InFlight s → RxFrameLegal s ∧ RxDeadlineNear s s.now) := by
  constructor
  · rintro ⟨h1, h2, h3, h4, hfl⟩
    refine ⟨⟨h1, h2, h3, h4⟩, fun h => ?_⟩
    obtain ⟨hlen, hp, hh, hones, hi, hn⟩ := hfl h
    exact ⟨⟨hlen, hp, hh, hones⟩, hi, hn⟩
  · rintro ⟨⟨h1, h2, h3, h4⟩, hfl⟩
    refine ⟨h1, h2, h3, h4, fun h => ?_⟩
    obtain ⟨⟨hlen, hp, hh, hones⟩, hi, hn⟩ := hfl h
    exact ⟨hlen, hp, hh, hones, hi, hn⟩

/-- What the legality of a receiver depends on: its working state, NOW and RXWIRE. -/
theorem RxLegal.congr {s t : State} (hs : RxLegal s) (hrx : t.rx = s.rx) (hnow : t.now = s.now)
    (hbuf : t.bufBytes .rxWire = s.bufBytes .rxWire) : RxLegal t := by
  have hact : InFlight t → InFlight s := by simp only [InFlight, State.rxActive, hrx]; exact id
  obtain ⟨hidx, hfl⟩ := (rxLegal_iff s).1 hs
  refine (rxLegal_iff t).2 ⟨by simpa only [RxIndicesLegal, hrx] using hidx, fun h => ?_⟩
  obtain ⟨hf, hd⟩ := hfl (hact h)
  refine ⟨hf.congr hbuf ?_ ?_ ?_ ?_ ?_, by simpa only [RxDeadlineNear, hrx, hnow] using hd⟩ <;> rw [hrx]

/-- A legal receiver after the poll of a cycle, its deadline counted from the next cycle. -/
def RxReady (s : State) : Prop :=
  RxIndicesLegal s ∧ (InFlight s → RxFrameLegal s ∧ RxDeadlineNear s (s.now + 1#32))

/-- The end of a cycle makes a receiver legal that its poll left ready. -/
theorem rxLegal_endCycle {s : State} (h : RxReady s) (rxd : Bool) : RxLegal (endCycle rxd s) := by
  obtain ⟨hidx, hfl⟩ := h
  refine (rxLegal_iff _).2 ⟨hidx, fun h => ?_⟩
  obtain ⟨hf, hd⟩ := hfl h
  exact ⟨hf.congr rfl rfl rfl rfl rfl rfl, hd⟩

theorem RxQuiet.ready {s : State} (h : RxQuiet s) : RxReady s :=
  ⟨((rxLegal_iff s).1 h.legal).1, fun hfl => absurd hfl h.not_inFlight⟩

/-! ### What each poll makes of a legal receiver -/

/-- A frame in flight has a byte index below 67, so that the byte stored is a byte of RXWIRE (42_receiver.md R123). -/
theorem RxFrameLegal.idx_lt {s : State} (hf : RxFrameLegal s)
    (hidx : s.rx.idx.toNat < 2 ∨ s.rx.idx.toNat < s.rx.len.toNat + 4) : s.rx.idx.toNat < 67 := by
  by_cases h : 2 ≤ s.rx.idx.toNat
  · have := (hf.len_ok h).1
    omega
  · omega

theorem halfPeriod_toNat (p : BitVec 24) : (halfPeriod p).toNat = p.toNat / 2 := by
  have := p.isLt
  simp only [halfPeriod, BitVec.toNat_setWidth, BitVec.toNat_ushiftRight, Nat.shiftRight_eq_div_pow]
  omega

/-- A sample one period ahead is near (42_receiver.md R120-R124). -/
theorem RxFrameLegal.near_period {s : State} (hf : RxFrameLegal s) :
    (s.now + s.rx.p.setWidth 32 - (s.now + 1#32)).toNat < s.rx.h.toNat + s.rx.p.toNat := by
  have hp := hf.p_ge
  have e : (s.rx.p.setWidth 32).toNat = s.rx.p.toNat := by have := s.rx.p.isLt; bv_omega
  have := ahead_next_of_set s.now (s.rx.p.setWidth 32) (by omega)
  omega

/-- The first sample of a byte is near (42_receiver.md R118, R119). -/
theorem near_firstSample (now : Time) {h : BitVec 23} {p : BitVec 24} (hp : 2 ≤ p.toNat) :
    (firstSample now h p - (now + 1#32)).toNat < h.toNat + p.toNat := by
  have e : (h.setWidth 32 + p.setWidth 32).toNat = h.toNat + p.toNat := by
    have := h.isLt
    have := p.isLt
    bv_omega
  have := ahead_next_of_set now (h.setWidth 32 + p.setWidth 32) (by omega)
  rwa [e, ← BitVec.add_assoc] at this

/-- The inter-byte timeout is near (42_receiver.md R123). -/
theorem near_timeout (now : Time) {p : BitVec 24} (hp : 2 ≤ p.toNat) :
    (now + BitVec.ofNat 32 (2 * p.toNat) - (now + 1#32)).toNat < 2 * p.toNat := by
  have e : (BitVec.ofNat 32 (2 * p.toNat)).toNat = 2 * p.toNat := by
    have := p.isLt
    rw [BitVec.toNat_ofNat]
    omega
  have := ahead_next_of_set now (BitVec.ofNat 32 (2 * p.toNat)) (by omega)
  omega

/-- A poll that waits keeps the receiver legal: it is frame-idle, or its deadline is still ahead. -/
theorem RxLegal.ready_of_wait {s : State} (hs : RxLegal s)
    (hw : (s.rx.st = .idle ∧ s.rx.idx = 0#7) ∨ s.rxDue = false) : RxReady s := by
  rcases hw with ⟨hst, hidx⟩ | hdue
  · exact RxQuiet.ready ⟨.inl hst, hidx⟩
  · obtain ⟨hidx, hfl⟩ := (rxLegal_iff s).1 hs
    refine ⟨hidx, fun h => ?_⟩
    obtain ⟨hf, hi, hn⟩ := hfl h
    have hp := s.rx.p.isLt
    have hh := s.rx.h.isLt
    exact ⟨hf, fun hst => ahead_next_of_not_due (by omega) (hi hst) hdue,
      fun hst => ahead_next_of_not_due (by omega) (hn hst) hdue⟩

/-- The start edge of a frame makes a legal receiver (42_receiver.md R118). -/
theorem rxReady_rxFrameIdle {s : State} (hidx : s.rx.idx = 0#7) : RxReady (rxFrameIdle false s) := by
  have hp := two_le_effectivePeriod s.host.bitPer
  rw [rxFrameIdle_low]
  refine ⟨⟨fun h => (by cases h), fun _ => (by decide : (0 : Nat) < 8), ?_, fun _ => .inl (by simp [hidx])⟩, fun _ =>
    ⟨⟨?_, hp, rfl, by simp [hidx, bitWeight]⟩, fun h => (by cases h), fun _ => near_firstSample _ hp⟩⟩
  · rintro (h | h) <;> cases h
  · simp [hidx]

section Poll

variable {s : State} (hs : RxLegal s)
include hs

/-- In every state of a frame but Recovery and frame-idle, the frame in flight is legal. -/
theorem RxLegal.frame (hst : s.rx.st ≠ .recovery) (h : s.rx.st = .idle → s.rx.idx ≠ 0#7) : RxFrameLegal s := by
  refine (((rxLegal_iff s).1 hs).2 ?_).1
  unfold InFlight State.rxActive
  cases he : s.rx.st <;> simp_all

/-- The start edge of the next byte keeps the receiver legal (42_receiver.md R119). -/
theorem RxLegal.ready_rxByteIdle (hst : s.rx.st = .idle) (hidx : s.rx.idx ≠ 0#7) :
    RxReady (rxByteIdle false s) := by
  have hf := hs.frame (by simp [hst]) fun _ => hidx
  obtain ⟨-, -, -, hbound⟩ := ((rxLegal_iff s).1 hs).1
  refine ⟨⟨fun h => (by cases h), fun _ => (by decide : (0 : Nat) < 8), ?_, fun _ => hbound (.inl hst)⟩, fun _ =>
    ⟨hf.congr rfl rfl rfl rfl rfl rfl, fun h => (by cases h), fun _ => near_firstSample _ hf.p_ge⟩⟩
  rintro (h | h) <;> cases h

/-- A data bit sample keeps the receiver legal (42_receiver.md R120). -/
theorem RxLegal.ready_sample (hst : s.rx.st = .receivingBits) (b : Byte) :
    RxReady { s with rx := { s.rx with
      byte := b
      bit := s.rx.bit + 1#4
      dl := s.now + s.rx.p.setWidth 32
      st := if s.rx.bit + 1#4 = 8#4 then .verifyStop1 else .receivingBits } } := by
  have hf := hs.frame (by simp [hst]) (by simp [hst])
  obtain ⟨-, hbit, -, hbound⟩ := ((rxLegal_iff s).1 hs).1
  have hbit := hbit hst
  have hbound := hbound (.inr (.inl hst))
  refine ⟨⟨fun h => ?_, fun h => ?_, fun h => ?_, fun _ => hbound⟩, fun _ =>
    ⟨hf.congr rfl rfl rfl rfl rfl rfl, fun h => ?_, fun _ => hf.near_period⟩⟩
  · dsimp only at h
    split at h <;> cases h
  · dsimp only at h ⊢
    split at h
    · cases h
    · bv_omega
  · dsimp only at h
    split at h <;> simp at h
  · dsimp only at h
    split at h <;> cases h

/-- A HIGH stop 1 keeps the receiver legal (42_receiver.md R121). -/
theorem RxLegal.ready_stop1 (hst : s.rx.st = .verifyStop1) :
    RxReady { s with rx := { s.rx with dl := s.now + s.rx.p.setWidth 32, st := .verifyStop2 } } := by
  have hf := hs.frame (by simp [hst]) (by simp [hst])
  obtain ⟨-, -, -, hbound⟩ := ((rxLegal_iff s).1 hs).1
  refine ⟨⟨fun h => (by cases h), fun h => (by cases h), ?_, fun _ => hbound (.inr (.inr (.inl hst)))⟩, fun _ =>
    ⟨hf.congr rfl rfl rfl rfl rfl rfl, fun h => (by cases h), fun _ => hf.near_period⟩⟩
  rintro (h | h) <;> cases h

/-- The parity sample keeps the receiver legal (42_receiver.md R124). -/
theorem RxLegal.ready_parity (hst : s.rx.st = .verifyFrameParity) (line : Bool) :
    RxReady { s with rx := { s.rx with
      pbit := line, dl := s.now + s.rx.p.setWidth 32, st := .verifyFinalStop } } := by
  have hf := hs.frame (by simp [hst]) (by simp [hst])
  obtain ⟨-, -, hlast, -⟩ := ((rxLegal_iff s).1 hs).1
  refine ⟨⟨fun h => (by cases h), fun h => (by cases h), fun _ => hlast (.inl hst), ?_⟩, fun _ =>
    ⟨hf.congr rfl rfl rfl rfl rfl rfl, fun h => (by cases h), fun _ => hf.near_period⟩⟩
  rintro (h | h | h | h) <;> cases h

end Poll

/-! ### The byte commit -/

/-- What follows a stored byte is legal, where the frame is and the index is not beyond its end (42_receiver.md R123). -/
theorem rxReady_commitNext {s : State} (hf : RxFrameLegal s)
    (hidx : s.rx.idx.toNat < 3 ∨ s.rx.idx.toNat ≤ s.rx.len.toNat + 4) : RxReady (commitNext s) := by
  by_cases hlast : 3 ≤ s.rx.idx.toNat ∧ s.rx.idx.toNat = s.rx.len.toNat + 4
  · rw [commitNext_last hlast]
    refine ⟨⟨fun h => (by cases h), fun h => (by cases h), fun _ => hlast.2, ?_⟩, fun _ =>
      ⟨hf.congr rfl rfl rfl rfl rfl rfl, fun h => (by cases h), fun _ => hf.near_period⟩⟩
    rintro (h | h | h | h) <;> cases h
  · rw [commitNext_more hlast]
    refine ⟨⟨fun h => (by cases h), fun h => (by cases h), ?_, fun _ => ?_⟩, fun _ =>
      ⟨hf.congr rfl rfl rfl rfl rfl rfl, fun _ => near_timeout _ hf.p_ge, fun h => absurd rfl h⟩⟩
    · rintro (h | h) <;> cases h
    · change s.rx.idx.toNat < 2 ∨ s.rx.idx.toNat < s.rx.len.toNat + 4
      omega

/-- The byte is stored at its index of RXWIRE, and the bytes before it are kept (42_receiver.md R123). -/
theorem bufByte_commitStore {s : State} (hm : memWf s.mem) (h : s.rx.idx.toNat < 67) (i : Nat) :
    (commitStore s).bufByte .rxWire i = if i = s.rx.idx.toNat then s.rx.byte else s.bufByte .rxWire i := by
  have e : (commitStore s).bufByte .rxWire i = (s.setBufByte .rxWire s.rx.idx.toNat s.rx.byte).bufByte .rxWire i := rfl
  rw [e]
  split
  · next hi => rw [hi]; exact bufByte_setBufByte_same hm _ h _
  · next hi => exact bufByte_setBufByte_ne s (.inr hi) _

/-- The first bytes of a buffer are determined by its bytes below the count. -/
theorem take_bufBytes_congr {s t : State} {b : Buffer} {n : Nat}
    (h : ∀ i, i < n → t.bufByte b i = s.bufByte b i) : (t.bufBytes b).take n = (s.bufBytes b).take n := by
  unfold State.bufBytes
  rw [← List.map_take, ← List.map_take, List.take_range]
  exact List.map_congr_left fun i hi => h i (by have := List.mem_range.1 hi; omega)

/-- The byte commit counts the weight of the byte stored (42_receiver.md R123, R127). -/
theorem ones_commitStore {s : State} (hm : memWf s.mem) (hf : RxFrameLegal s) (hidx : s.rx.idx.toNat < 67) :
    (commitStore s).rx.ones.toNat
      = bitWeight (((commitStore s).bufBytes .rxWire).take (commitStore s).rx.idx.toNat) := by
  have hi : (commitStore s).rx.idx.toNat = s.rx.idx.toNat + 1 := by
    rw [commitStore_rx]
    bv_omega
  have hold : ((commitStore s).bufBytes .rxWire).take s.rx.idx.toNat = (s.bufBytes .rxWire).take s.rx.idx.toNat :=
    take_bufBytes_congr fun i hi => by rw [bufByte_commitStore hm hidx, if_neg (by omega)]
  have hlt : s.rx.idx.toNat < ((commitStore s).bufBytes .rxWire).length := by rw [bufBytes_length]; exact hidx
  rw [hi, bitWeight_take_succ _ hlt, hold, bufBytes_getD, bufByte_commitStore hm hidx, if_pos rfl, ← hf.ones_eq]
  have hw := bitWeight_le ((s.bufBytes .rxWire).take s.rx.idx.toNat)
  have hb := popcount8_le s.rx.byte
  rw [← hf.ones_eq, List.length_take] at hw
  rw [commitStore_rx]
  change (s.rx.ones + BitVec.ofNat 10 (popcount8 s.rx.byte)).toNat = _
  rw [BitVec.toNat_add, BitVec.toNat_ofNat]
  omega

/-- The byte commit keeps the receiver legal (42_receiver.md R123; 40_codec.md R96). -/
theorem RxLegal.ready_commitByte {s : State} (hm : memWf s.mem) (hs : RxLegal s) (hst : s.rx.st = .verifyStop2) :
    RxReady (commitByte s) := by
  have hf := hs.frame (by simp [hst]) (by simp [hst])
  obtain ⟨-, -, -, hbound⟩ := ((rxLegal_iff s).1 hs).1
  have hbound := hbound (.inr (.inr (.inr hst)))
  have hidx := hf.idx_lt hbound
  have hones := ones_commitStore hm hf hidx
  have hi : (s.rx.idx + 1#7).toNat = s.rx.idx.toNat + 1 := by bv_omega
  have hhead := bufByte_commitStore hm hidx 1
  rcases commitByte_cases hm with ⟨-, -, e⟩ | ⟨h1, hle, e⟩ | ⟨h1, e⟩ <;> rw [e]
  · exact (rxQuiet_abortFrame _ _).ready
  · refine rxReady_commitNext ⟨fun _ => ⟨hle, ?_⟩, hf.p_ge, hf.h_eq, hones⟩ (.inl ?_)
    · rw [if_pos h1.symm] at hhead
      exact congrArg headerLength hhead.symm
    · change (s.rx.idx + 1#7).toNat < 3
      omega
  · refine rxReady_commitNext ⟨fun h => ?_, hf.p_ge, hf.h_eq, hones⟩ ?_
    · change 2 ≤ (s.rx.idx + 1#7).toNat at h
      rw [if_neg (by omega)] at hhead
      rw [hhead]
      exact hf.len_ok (by omega)
    · change (s.rx.idx + 1#7).toNat < 3 ∨ (s.rx.idx + 1#7).toNat ≤ s.rx.len.toNat + 4
      omega

/-! ### The poll and the cycle -/

/-- The receiver's step keeps the receiver legal (42_receiver.md R116-R125). -/
theorem rxReady_rxStep {line : Bool} {s t : State} (hm : memWf s.mem) (hs : RxLegal s)
    (h : rxStep line s = .next t) : RxReady t := by
  rw [rxStep_eq] at h
  cases h
  split
  · exact (rxQuiet_deliverFrame _ _).ready
  next hacc =>
  rcases rxPoll_cases line s with ⟨e, hw⟩ | ⟨-, e⟩ | ⟨-, hidx, e⟩ | ⟨hst, hidx, e⟩ | ⟨-, -, -, e⟩ | ⟨hst, -, e⟩ |
    ⟨hst, -, e⟩ | ⟨-, -, e⟩ | ⟨hst, -, e⟩ | ⟨hst, -, e⟩ | ⟨-, -, c, d, e⟩ | ⟨hst, e⟩ <;> rw [e]
  · exact hs.ready_of_wait (hw.imp_right fun h => h.resolve_right hacc)
  · exact RxQuiet.ready ⟨.inl rfl, rfl⟩
  · exact rxReady_rxFrameIdle hidx
  · exact hs.ready_rxByteIdle hst hidx
  · exact (rxQuiet_abortFrame _ _).ready
  · exact hs.ready_sample hst _
  · exact hs.ready_stop1 hst
  · exact (rxQuiet_abortFrame _ _).ready
  · exact hs.ready_commitByte hm hst
  · exact hs.ready_parity hst line
  · exact (rxQuiet_abortFrame _ _).ready
  · obtain ⟨hrec, -⟩ := ((rxLegal_iff s).1 hs).1
    exact (rxQuiet_recoveryPoll ⟨.inr hst, hrec hst⟩).ready

/-- The host's access and TxStep keep the receiver legal and the buffers canonical, up to the receiver's step. -/
theorem rxLegal_before_rxStep {w : BusWord} {s s1 : State} (hm : memWf s.mem) (hs : RxLegal s)
    (h : busPhase w (beginCycle s) = .next s1) :
    memWf (clearEvents (txStep s1)).mem ∧ RxLegal (clearEvents (txStep s1)) := by
  obtain ⟨hnow, hrx, -⟩ := busPhase_frame h
  exact ⟨memWf_busPhase (s := beginCycle s) (t := s1) hm h,
    hs.congr hrx hnow (busPhase_rxWire (s := beginCycle s) (t := s1) h)⟩

/-- Settles O48: the host's access leaves the receiver alone, and every poll keeps it legal. -/
theorem receiverStaysLegal : Obligations.ReceiverStaysLegal := by
  intro s t hm hs h
  rcases step_cases h with ⟨-, rfl⟩ | ⟨-, s1, s3, h1, h3, rfl⟩
  · exact RxQuiet.legal ⟨.inl rfl, rfl⟩
  · obtain ⟨hm1, hs1⟩ := rxLegal_before_rxStep hm hs h1
    exact rxLegal_endCycle (rxReady_rxStep hm1 hs1 h3) _

end Sys2Proof.Machine
end

section
/-! The other elements: the memory, the synchronizer, the error flags, the events and the holding registers over a
cycle. -/

namespace Sys2Proof.Machine

/-! ### The memory and the line driver -/

/-- Settles O45: each phase of the cycle keeps the canonical form. -/
theorem memoryStaysCanonical : Obligations.MemoryStaysCanonical := by
  intro s t hm h
  rcases step_cases h with ⟨-, rfl⟩ | ⟨-, s1, s3, h1, h3, rfl⟩
  · exact memWf_reset
  · have hm1 : memWf s1.mem := memWf_busPhase (s := beginCycle s) hm h1
    exact memWf_rxStep (s := clearEvents (txStep s1)) (t := s3) hm1 h3

/-- Settles O46: TXBEGIN leaves idle, the host changes TXD nowhere else, and a frame ends with the line HIGH. -/
theorem idleTransmitterDrivesHigh : Obligations.IdleTransmitterDrivesHigh := by
  refine ⟨rfl, fun s t hs h => ?_⟩
  rcases step_cases h with ⟨-, rfl⟩ | ⟨-, s1, s3, h1, h3, rfl⟩
  · exact fun _ => rfl
  · have hs1 : s1.tx.ph = .txIdle → s1.tx.txd = true := by
      rcases busPhase_tx h1 with ⟨d, htx, -⟩ | ⟨u, -, -, rfl⟩
      · rw [htx]
        exact hs
      · exact fun hph => by cases hph
    obtain ⟨htx, -⟩ := rxStep_txWire h3
    rw [endCycle_tx, htx, clearEvents_tx]
    exact txStep_idle_high hs1

/-! ### The synchronizer -/

/-- A shift keeps the list of LOW stages rising and within the chain (10_state.md R47). -/
theorem shiftSync_legal {low : List Nat} (hp : low.Pairwise (· < ·)) (hl : ∀ k ∈ low, 1 ≤ k) (rxd : Bool) :
    (shiftSync rxd low).Pairwise (· < ·) ∧ ∀ k ∈ shiftSync rxd low, 1 ≤ k ∧ k ≤ Config.syncStages := by
  have hlow : (lowStages rxd low).Pairwise (· < ·) := by
    unfold lowStages
    split
    · exact hp
    · exact List.pairwise_cons.2 ⟨hl, hp⟩
  refine ⟨(hlow.map _ fun a b hab => Nat.succ_lt_succ hab).filter _, fun k hk => ?_⟩
  obtain ⟨h1, h2, -⟩ := (mem_shiftSync _ _ _).1 hk
  exact ⟨h1, h2⟩

/-- Settles O54: a reset cycle empties the list, every other cycle shifts it. -/
theorem synchronizerStaysLegal : Obligations.SynchronizerStaysLegal := by
  rintro s t ⟨hp, hl⟩ h
  cases hr : s.input.rst with
  | true =>
    rcases step_cases h with ⟨-, rfl⟩ | ⟨hr', -⟩
    · exact ⟨.nil, fun k hk => by cases hk⟩
    · simp [hr] at hr'
  | false =>
    unfold SyncLegal
    rw [(step_now_syncLow h hr).2]
    exact shiftSync_legal hp (fun k hk => (hl k hk).1) _

/-- A stage after a shift, of a chain whose stages are numbered from 1 (10_state.md R47). -/
theorem syncStage_of_shift {s t : State} {rxd : Bool} (h : t.syncLow = shiftSync rxd s.syncLow) {k : Nat} (h1 : 1 ≤ k)
    (hk : k ≤ Config.syncStages) (h0 : 0 ∉ s.syncLow) :
    t.syncStage k = if k = 1 then rxd else s.syncStage (k - 1) := by
  have hmem : k ∈ t.syncLow ↔ (k = 1 ∧ rxd = false) ∨ k - 1 ∈ s.syncLow := by
    rw [h, mem_shiftSync]
    tauto
  unfold State.syncStage
  rw [Bool.eq_iff_iff]
  simp only [Bool.not_eq_true', List.contains_eq_mem, decide_eq_false_iff_not, hmem]
  by_cases e : k = 1
  · subst e
    simp [h0]
  · simp [e]

/-- Settles O39: the stages after the shift, and the line as the last of stages 0 (the input) to SYNC_STAGES. -/
theorem synchronizerIsShiftChain : Obligations.SynchronizerIsShiftChain := by
  have hzero : ∀ s, SyncLegal s → 0 ∉ s.syncLow := fun s hs h0 => absurd (hs.2 0 h0).1 (by omega)
  refine ⟨fun _ => rfl, fun s t h hr hs => ?_, fun s rxd hs => ?_⟩
  · have hshift := (step_now_syncLow h hr).2
    refine ⟨fun hk => ?_, fun k h2 hk => ?_⟩
    · rw [syncStage_of_shift hshift (by omega) hk (hzero s hs), if_pos rfl]
    · rw [syncStage_of_shift hshift (by omega) hk (hzero s hs), if_neg (by omega)]
  · have h0 := hzero s hs
    unfold State.line State.syncStage lowStages
    by_cases hk : Config.syncStages = 0
    · cases rxd <;> simp [hk, h0]
    · cases rxd <;> simp [hk]

/-! ### The clock -/

/-- Settles O41: at `now + j` the deadline `now + k` is `j - k` cycles past, modulo 2^32. -/
theorem deadlineFirstDueAtItsCycle : Obligations.DeadlineFirstDueAtItsCycle := by
  intro now k hk
  have hpast : ∀ j, j < 2 ^ 32 → ((now + BitVec.ofNat 32 j) - (now + BitVec.ofNat 32 k)).toNat
      = if k ≤ j then j - k else 2 ^ 32 + j - k := by
    intro j hj
    have e : (now + BitVec.ofNat 32 j) - (now + BitVec.ofNat 32 k) = BitVec.ofNat 32 j - BitVec.ofNat 32 k := by
      bv_omega
    rw [e, BitVec.toNat_sub, BitVec.toNat_ofNat, BitVec.toNat_ofNat]
    split <;> omega
  refine ⟨fun j hj => ?_, fun j hj => ?_⟩
  · unfold due
    rw [hpast j (by omega), if_neg (by omega), decide_eq_false_iff_not]
    omega
  · unfold due
    rw [hpast (k + j) (by omega), if_pos (by omega), decide_eq_true_eq]
    omega

/-! ### The error flags -/

/-- Every error flag set in `s` is set in `t`. -/
def FlagsKept (s t : State) : Prop :=
  ∀ k, s.host.errFlags.getLsbD k = true → t.host.errFlags.getLsbD k = true

theorem FlagsKept.trans {s t u : State} (h : FlagsKept s t) (h' : FlagsKept t u) : FlagsKept s u :=
  fun k hk => h' k (h k hk)

theorem FlagsKept.of_eq {s t : State} (h : t.host.errFlags = s.host.errFlags) : FlagsKept s t :=
  fun k hk => by rwa [h]

theorem flagsKept_raiseFlag (e : ErrCode) (s : State) : FlagsKept s (raiseFlag e s) := by
  intro k hk
  rw [raiseFlag_errFlags, setErrBit_getLsbD, hk, Bool.true_or]

theorem flagsKept_raiseFlagIf (c : Bool) (e : ErrCode) (s : State) : FlagsKept s (raiseFlagIf c e s) := by
  cases c
  · exact .of_eq rfl
  · exact flagsKept_raiseFlag e s

theorem flagsKept_encodeFrame (s : State) : FlagsKept s (encodeFrame s) := by
  unfold encodeFrame
  split
  · exact flagsKept_raiseFlag _ s
  · exact .of_eq rfl

theorem flagsKept_abortFrame (e : SyncFailure) (s : State) : FlagsKept s (abortFrame e s) := by
  have habort : FlagsKept s (abortFlag e s) := by
    cases e
    case rxSync => exact .of_eq rfl
    all_goals exact flagsKept_raiseFlag _ s
  exact habort.trans (.of_eq rfl)

theorem flagsKept_deliverFrame (cmd : BitVec 4) (s : State) : FlagsKept s (deliverFrame cmd s) := by
  intro k hk
  have e : (deliverFrame cmd s).host = (dispatchFrame cmd s).host := by rw [deliverFrame_eq]
  rw [e, dispatchFrame_host]
  simp only [BitVec.getLsbD_or, hk, Bool.true_or]

theorem flagsKept_commitByte (s : State) : FlagsKept s (commitByte s) := by
  simp only [commitByte]
  split_ifs
  · have hstore : FlagsKept s (hdrDecode (commitStore s)) := .of_eq (by simp)
    exact hstore.trans (flagsKept_abortFrame _ _)
  · exact .of_eq (by simp)
  · exact .of_eq (by simp)

/-- The receiver's step clears no error flag (10_state.md R27). -/
theorem flagsKept_rxStep {line : Bool} {s t : State} (h : rxStep line s = .next t) : FlagsKept s t := by
  rw [rxStep_eq] at h
  cases h
  split
  · exact flagsKept_deliverFrame _ s
  rcases rxPoll_cases line s with ⟨e, -⟩ | ⟨-, e⟩ | ⟨-, -, e⟩ | ⟨-, -, e⟩ | ⟨-, -, -, e⟩ | ⟨-, -, e⟩ | ⟨-, -, e⟩ |
    ⟨-, -, e⟩ | ⟨-, -, e⟩ | ⟨-, -, e⟩ | ⟨-, -, c, d, e⟩ | ⟨-, e⟩ <;> rw [e]
  · exact .of_eq rfl
  · exact .of_eq rfl
  · rw [rxFrameIdle_low]
    exact .of_eq rfl
  · exact .of_eq rfl
  · exact flagsKept_abortFrame _ s
  · exact .of_eq rfl
  · exact .of_eq rfl
  · exact flagsKept_abortFrame _ s
  · exact flagsKept_commitByte s
  · exact .of_eq rfl
  · exact ((flagsKept_raiseFlagIf d _ s).trans (flagsKept_raiseFlagIf c _ _)).trans (flagsKept_abortFrame _ _)
  · exact .of_eq (by rw [recoveryPoll_host])

/-- The host's access clears error flags by ERR_CLR alone (10_state.md R27; 44_host_bus.md R151). -/
theorem flagsKept_busPhase {w : BusWord} {s t : State} (h : busPhase w s = .next t)
    (hclr : ¬ (w[18] = true ∧ w[17] = true ∧ w.extractLsb' 8 9 = 0#9 ∧ w[4] = true)) : FlagsKept s t := by
  rcases busPhase_cases w s with ⟨-, e⟩ | ⟨-, -, e⟩ | ⟨-, -, -, e⟩ | ⟨h1, h2, h3, e⟩ <;> rw [e] at h <;> cases h
  · exact .of_eq rfl
  · exact .of_eq rfl
  · exact .of_eq (busWrite_readOnly _ _ _).2
  · have hbit : (w.extractLsb' 0 8)[4] = w[4] := by simp
    have h4 : ¬ (w.extractLsb' 0 8)[4] = true := by rw [hbit]; exact fun h4 => hclr ⟨h1, h2, h3, h4⟩
    obtain ⟨u, hu, h⟩ := ctrlWrite_cases (w.extractLsb' 0 8) s
    have hsu : FlagsKept s u := .of_eq (by rw [hu, if_neg h4])
    rcases h with h | ⟨-, h⟩ | ⟨-, -, h⟩ <;> rw [h]
    · exact hsu
    · exact hsu.trans (flagsKept_encodeFrame u)
    · exact (hsu.trans (flagsKept_encodeFrame u)).trans (.of_eq rfl)

/-- Settles O34: neither the host's access without ERR_CLR nor the engines clear a flag. -/
theorem errorFlagsAreSticky : Obligations.ErrorFlagsAreSticky := by
  intro s t k h hr hclr
  obtain ⟨s1, s3, h1, h3, rfl⟩ := step_phases h hr
  have hbus : FlagsKept s s1 := flagsKept_busPhase (s := beginCycle s) h1 hclr
  have hrx : FlagsKept s1 s3 := flagsKept_rxStep (s := clearEvents (txStep s1)) h3
  exact hbus.trans hrx k

/-! ### The events -/

/-- The events of a delivery (43_dispatch.md R131, R132). -/
theorem deliverFrame_ev (cmd : BitVec 4) (s : State) :
    (deliverFrame cmd s).ev = { s.ev with dispatch := true, valid := s.frameValid } ∧
    (deliverFrame cmd s).emitted = s.emitted ++ [.dispatch cmd s.rx.len s.rxFramePayload s.frameValid] := by
  rw [deliverFrame_eq]
  exact ⟨dispatchFrame_ev cmd s, dispatchFrame_emitted cmd s⟩

/-- Settles O35: the cycle begins with no event, and the poll delivers a frame, takes one failure, or does neither. -/
theorem eventRegistersMatchEmittedEvents : Obligations.EventRegistersMatchEmittedEvents := by
  intro s t h
  rcases step_cases h with ⟨-, rfl⟩ | ⟨-, s1, s3, h1, h3, rfl⟩
  · exact .inl ⟨rfl, rfl⟩
  have hnone : s1.emitted = [] := by
    obtain ⟨-, -, -, -, hem⟩ := busPhase_frame h1
    exact hem
  have hcleared : (clearEvents (txStep s1)).emitted = [] := hnone
  rw [endCycle_emitted, endCycle_ev]
  rw [rxStep_eq] at h3
  cases h3
  split
  · obtain ⟨hev, hem⟩ := deliverFrame_ev (headerCommand ((clearEvents (txStep s1)).bufByte .rxWire 0))
      (clearEvents (txStep s1))
    rw [hcleared] at hem
    exact .inr (.inl ⟨_, _, _, _, hem, hev⟩)
  · rcases rxPoll_ev (s.line s.input.rxd) (clearEvents (txStep s1)) with ⟨hev, hem⟩ | ⟨e, hev, hem⟩ <;>
      rw [hcleared] at hem
    · exact .inl ⟨hem, hev⟩
    · exact .inr (.inr ⟨e, hem, hev⟩)

/-! ### The holding registers -/

/-- What the legality of the holding registers depends on: they may lose RX_READY, and RXPAYLOAD is the same. -/
theorem HoldLegal.congr {s t : State} (hs : HoldLegal s) (r : Bool) (hr : r = true → s.hold.ready = true)
    (hhold : t.hold = { s.hold with ready := r }) (hbuf : t.bufBytes .rxPayload = s.bufBytes .rxPayload) :
    HoldLegal t := by
  obtain ⟨hpay, hcsc, hval, hrdy⟩ := hs
  refine ⟨fun i hi => ?_, ?_, ?_, ?_⟩
  · rw [hhold] at hi
    rw [bufByte_eq_of_bufBytes hbuf]
    exact hpay i hi
  · rw [hhold]
    exact hcsc
  · rw [hhold]
    exact hval
  · rw [hhold]
    exact fun h => hrdy (hr h)

/-- A poll that delivers no frame leaves RXPAYLOAD alone (43_dispatch.md R133). -/
theorem rxPoll_rxPayload (line : Bool) (s : State) : (rxPoll line s).bufBytes .rxPayload = s.bufBytes .rxPayload := by
  refine bufBytes_congr fun i _ => ?_
  rcases rxPoll_mem line s with h | h | ⟨-, h⟩ <;> rw [bufByte_eq_of_mem h]
  · exact bufByte_fillBuf_ne _ (by decide) _ _
  · exact bufByte_setBufByte_ne s (.inl (by decide)) _

/-- The checksum computed over a frame of a legal length is at most 520 (30_encoding.md R79). -/
theorem computedChecksum_le {s : State} (hlen : s.rx.len.toNat ≤ 63) : s.computedChecksum.toNat ≤ 520 := by
  have hw := bitWeight_le ((s.bufBytes .rxWire).take (s.rx.len.toNat + 2))
  rw [List.length_take] at hw
  unfold State.computedChecksum checksum
  rw [BitVec.toNat_ofNat]
  omega

/-- The holding registers after a delivery (43_dispatch.md R131). -/
theorem deliverFrame_hold (cmd : BitVec 4) (s : State) :
    (deliverFrame cmd s).hold.ready = true ∧ (deliverFrame cmd s).hold.valid = s.frameValid ∧
    (deliverFrame cmd s).hold.len = s.rx.len.setWidth 6 ∧
    (deliverFrame cmd s).hold.csr = s.receivedChecksum ∧ (deliverFrame cmd s).hold.csc = s.computedChecksum := by
  rw [deliverFrame_eq]
  exact ⟨rfl, rfl, rfl, high_append_low _, high_append_low _⟩

/-- RXPAYLOAD after a delivery: the payload, then 0x00 (40_codec.md R98). -/
theorem bufByte_deliverFrame {s : State} (hm : memWf s.mem) (cmd : BitVec 4) (i : Nat) (hi : s.rx.len.toNat ≤ i) :
    (deliverFrame cmd s).bufByte .rxPayload i = 0x00#8 := by
  rw [bufByte_eq_of_mem (deliverFrame_mem cmd s)]
  by_cases h : i < Buffer.rxPayload.size
  · rw [extractPayload, bufByte_fillBuf_same hm _ _ h, rxFramePayload_getD, if_neg (by omega)]
    rfl
  · rw [State.bufByte, if_neg h]
    rfl

/-- A delivery makes the holding registers legal (43_dispatch.md R131; 40_codec.md R97, R98). -/
theorem holdLegal_deliverFrame {s : State} (hm : memWf s.mem) (hlen : s.rx.len.toNat ≤ 63) (cmd : BitVec 4) :
    HoldLegal (deliverFrame cmd s) := by
  obtain ⟨-, hvalid, hl, hcsr, hcsc⟩ := deliverFrame_hold cmd s
  have hagree : s.frameValid = true ↔ s.receivedChecksum = s.computedChecksum := by simp [State.frameValid]
  refine ⟨fun i hi => bufByte_deliverFrame hm cmd i ?_, ?_, ?_, fun _ => ?_⟩
  · rw [hl, BitVec.toNat_setWidth] at hi
    omega
  · rw [hcsc]
    exact computedChecksum_le hlen
  · rw [hvalid, hcsr, hcsc]
    exact hagree.1
  · rw [hvalid, hcsr, hcsc]
    exact hagree.2

/-- An accepted frame has a legal length (40_codec.md R96). -/
theorem len_le_of_frameAccepted {line : Bool} {s : State} (hs : RxLegal s) (h : frameAccepted line s = true) :
    s.rx.len.toNat ≤ 63 := by
  have hst : s.rx.st = .verifyFinalStop := by
    simp only [frameAccepted, Bool.and_eq_true, beq_iff_eq] at h
    obtain ⟨⟨⟨⟨-, hst⟩, -⟩, -⟩, -⟩ := h
    exact hst
  obtain ⟨-, -, hlast, -⟩ := ((rxLegal_iff s).1 hs).1
  have hlast := hlast (.inr hst)
  exact ((hs.frame (by simp [hst]) (by simp [hst])).len_ok (by omega)).1

/-- The holding registers after reset are legal (10_state.md R54). -/
theorem holdLegal_reset : HoldLegal State.reset :=
  ⟨fun i _ => bufByte_reset _ i, by decide, fun h => (by cases h), fun h => (by cases h)⟩

/-- Settles O49: the host's access may only clear RX_READY, and only a delivery writes the holding registers. -/
theorem holdingRegistersStayLegal : Obligations.HoldingRegistersStayLegal := by
  intro s t hm hrx hs h
  rcases step_cases h with ⟨-, rfl⟩ | ⟨-, s1, s3, h1, h3, rfl⟩
  · exact holdLegal_reset.congr _ id rfl rfl
  obtain ⟨hm1, hrx1⟩ := rxLegal_before_rxStep hm hrx h1
  have hs1 : HoldLegal (clearEvents (txStep s1)) := by
    refine hs.congr _ (fun h => ?_) (busPhase_hold (s := beginCycle s) (t := s1) h1)
      (busPhase_rxPayload (s := beginCycle s) (t := s1) h1)
    split at h
    · cases h
    · exact h
  have hs3 : HoldLegal s3 := by
    rw [rxStep_eq] at h3
    cases h3
    split
    · next hacc => exact holdLegal_deliverFrame hm1 (len_le_of_frameAccepted hrx1 hacc) _
    · exact hs1.congr _ id (rxPoll_hold _ _) (rxPoll_rxPayload _ _)
  exact hs3.congr _ id rfl rfl

end Sys2Proof.Machine
end

section
/-! The register space as the host sees it: what a read shows, what a read shows after a write, and the state after
reset (10_state.md R24-R44, R54). -/

namespace Sys2Proof.Machine

/-! ### The bytes of a register -/

/-- A register of three bytes is put together from them, the low byte at the lowest address (20_memory.md R59). -/
theorem getByte_append_24 (r : BitVec 24) : getByte r 2 ++ getByte r 1 ++ getByte r 0 = r := by
  unfold getByte
  rw [BitVec.extractLsb'_append_extractLsb'_eq_extractLsb' (by omega),
    BitVec.extractLsb'_append_extractLsb'_eq_extractLsb' (by omega)]
  exact BitVec.extractLsb'_eq_self

/-- A register of four bytes is put together from them, the low byte at the lowest address (20_memory.md R59). -/
theorem getByte_append_32 (r : BitVec 32) : getByte r 3 ++ getByte r 2 ++ getByte r 1 ++ getByte r 0 = r := by
  unfold getByte
  rw [BitVec.extractLsb'_append_extractLsb'_eq_extractLsb' (by omega),
    BitVec.extractLsb'_append_extractLsb'_eq_extractLsb' (by omega),
    BitVec.extractLsb'_append_extractLsb'_eq_extractLsb' (by omega)]
  exact BitVec.extractLsb'_eq_self

/-- Byte `j` of a register after byte `k` is replaced (20_memory.md R59). -/
theorem getByte_setByte {n : Nat} (r : BitVec n) (k j : Nat) (v : Byte) (hj : 8 * j + 8 ≤ n) :
    getByte (setByte r k v) j = if j = k then v else getByte r j :=
  extract_setByte r k j v hj

/-! ### Reads -/

/-- A read of byte `i` of a buffer shows it (10_state.md R40-R43). -/
theorem busRead_bufferByte (s : State) (b : Buffer) {i : Nat} (hi : i < b.size) :
    s.busRead (BitVec.ofNat 9 (b.base + i)) = memRead s.mem (b.base + i) := by
  have ha : (BitVec.ofNat 9 (b.base + i)).toNat = b.base + i := by
    rw [BitVec.toNat_ofNat]
    cases b <;> simp only [Buffer.base, Buffer.size] at hi ⊢ <;> omega
  rw [busRead_buffer (by rw [ha]; exact isBufferAddr_base_add b hi), ha]

/-- A reserved address reads 0x00 (10_state.md R44). -/
theorem busRead_reserved (s : State) (a : Addr)
    (h : a = 0x00B#9 ∨ (0x017#9 ≤ a ∧ a ≤ 0x03F#9) ∨ a = 0x07F#9 ∨ (0x0C3#9 ≤ a ∧ a ≤ 0x0FF#9) ∨
      (0x140#9 ≤ a ∧ a ≤ 0x17F#9) ∨ 0x1C3#9 ≤ a) : s.busRead a = 0x00#8 := by
  have hnot : ¬ isBufferAddr a.toNat = true := by
    rw [isBufferAddr_iff]
    bv_omega
  rw [busRead_of_ge s a (by bv_omega), if_neg hnot]

/-- STATUS.RX_ACTIVE is 1 in the states of a frame, and in Idle between its bytes (10_state.md R26). -/
theorem rxActive_eq (s : State) :
    s.rxActive = decide ((s.rx.st ≠ .idle ∧ s.rx.st ≠ .recovery) ∨ (s.rx.st = .idle ∧ s.rx.idx ≠ 0#7)) := by
  unfold State.rxActive
  cases s.rx.st <;> simp [bne, Bool.beq_eq_decide_eq]

/-- Settles O11: the read data is `busRead`, register by register. -/
theorem readShowsRegisterMap : Obligations.ReadShowsRegisterMap := by
  intro s
  obtain ⟨hbusy, hready, hvalid, hactive, hrec, hdone, h6, h7⟩ := status_bits s
  refine ⟨s.busRead, fun a => rfl, ?rxEn, ?busy, hready, hvalid, ?active, ?recovering, hdone, h6, h7, rfl,
    BitVec.toNat_setWidth_of_le (by omega), BitVec.toNat_setWidth_of_le (by omega),
    BitVec.toNat_setWidth_of_le (by omega), BitVec.toNat_setWidth_of_le (by omega), ?rxState,
    getByte_append_24 s.host.bitPer, getByte_append_32 s.host.quiet, BitVec.toNat_setWidth_of_le (by omega),
    BitVec.toNat_setWidth_of_le (by omega), rfl, rfl, rfl, rfl, BitVec.toNat_setWidth_of_le (by omega),
    fun i => busRead_bufferByte s .txPayload, fun i => busRead_bufferByte s .txWire,
    fun i => busRead_bufferByte s .rxPayload, fun i => busRead_bufferByte s .rxWire, fun a => busRead_reserved s a⟩
  case rxEn =>
    change (0#7 ++ BitVec.ofBool s.host.rxEn).toNat = _
    cases s.host.rxEn <;> rfl
  case busy =>
    refine hbusy.trans ?_
    unfold State.txBusy
    cases s.tx.ph <;> rfl
  case active => exact hactive.trans (rxActive_eq s)
  case recovering =>
    refine hrec.trans ?_
    unfold State.rxRecovering
    cases s.rx.st <;> rfl
  case rxState =>
    change s.rx.st.code.setWidth 8 = _
    cases s.rx.st <;> rfl

/-! ### Reads after a write -/

/-- The host registers `g` and `h` show the same byte at address `n`. -/
structure HostAgreesAt (n : Nat) (g h : HostRegs) : Prop where
  rxEn : g.rxEn = h.rxEn := by rfl
  errFlags : g.errFlags = h.errFlags := by rfl
  txWLen : g.txWLen = h.txWLen := by rfl
  irqEn : n = 0x003 → g.irqEn = h.irqEn := by exact fun _ => rfl
  txCmd : n = 0x004 → g.txCmd = h.txCmd := by exact fun _ => rfl
  txLen : n = 0x005 → g.txLen = h.txLen := by exact fun _ => rfl
  bitPer : ∀ k, k < 3 → n = 0x008 + k → getByte g.bitPer k = getByte h.bitPer k := by exact fun _ _ _ => rfl
  quiet : ∀ k, k < 4 → n = 0x00C + k → getByte g.quiet k = getByte h.quiet k := by exact fun _ _ _ => rfl

/-- A read depends on the host registers by their byte at its address alone. -/
theorem busRead_with_host (s : State) (g : HostRegs) (b : Addr) (hg : HostAgreesAt b.toNat g s.host) :
    ({ s with host := g } : State).busRead b = s.busRead b := by
  obtain ⟨hrx, herr, hwlen, hirq, hcmd, hlen, hper, hq⟩ := hg
  unfold State.busRead
  generalize b.toNat = n at *
  split
  case h_1 => exact congrArg _ (congrArg _ hrx)
  case h_3 => exact herr
  case h_4 => exact congrArg _ (hirq rfl)
  case h_5 => exact congrArg _ (hcmd rfl)
  case h_6 => exact congrArg _ (hlen rfl)
  case h_7 => exact congrArg _ hwlen
  case h_9 => exact hper 0 (by omega) rfl
  case h_10 => exact hper 1 (by omega) rfl
  case h_11 => exact hper 2 (by omega) rfl
  case h_12 => exact hq 0 (by omega) rfl
  case h_13 => exact hq 1 (by omega) rfl
  case h_14 => exact hq 2 (by omega) rfl
  case h_15 => exact hq 3 (by omega) rfl
  all_goals rfl

/-- A read depends on the memory by the byte at its address alone. -/
theorem busRead_with_mem (s : State) (m : List Host.Cell) (b : Addr)
    (hm : memRead m b.toNat = memRead s.mem b.toNat) : ({ s with mem := m } : State).busRead b = s.busRead b := by
  unfold State.busRead
  generalize b.toNat = n at *
  split
  case h_23 => exact if_congr Iff.rfl hm rfl
  all_goals rfl

/-- After a bus write every other address reads as before (44_host_bus.md R146). -/
theorem busRead_busWrite_ne (s : State) {a b : Addr} (hab : b ≠ a) (v : Byte) :
    (s.busWrite a v).busRead b = s.busRead b := by
  have hne : b.toNat ≠ a.toNat := fun h => hab (BitVec.eq_of_toNat_eq h)
  unfold State.busWrite
  generalize a.toNat = n at hne ⊢
  split
  case h_1 => exact busRead_with_host s _ b { irqEn := fun h => absurd h hne }
  case h_2 => exact busRead_with_host s _ b { txCmd := fun h => absurd h hne }
  case h_3 => exact busRead_with_host s _ b { txLen := fun h => absurd h hne }
  case h_11 =>
    split
    · exact busRead_with_mem s _ b (memRead_memWrite_ne _ hne v)
    · rfl
  case h_4 | h_5 | h_6 =>
    refine busRead_with_host s _ b { bitPer := fun k hk h => ?_ }
    rw [getByte_setByte _ _ _ _ (by omega), if_neg (by omega)]
  all_goals
    refine busRead_with_host s _ b { quiet := fun k hk h => ?_ }
    rw [getByte_setByte _ _ _ _ (by omega), if_neg (by omega)]

/-- The address classes of a bus write: the writable registers, TXPAYLOAD, and the rest (10_state.md R24). -/
theorem writeAddr_cases (a : Addr) :
    a = 0x003#9 ∨ a = 0x004#9 ∨ a = 0x005#9 ∨ a = 0x008#9 ∨ a = 0x009#9 ∨ a = 0x00A#9 ∨ a = 0x00C#9 ∨ a = 0x00D#9 ∨
      a = 0x00E#9 ∨ a = 0x00F#9 ∨ (0x040 ≤ a.toNat ∧ a.toNat < 0x07F) ∨
      ((0x010 ≤ a.toNat ∨ a.toNat < 3 ∨ a.toNat = 6 ∨ a.toNat = 7 ∨ a.toNat = 0x00B) ∧
        ¬ (0x040 ≤ a.toNat ∧ a.toNat < 0x07F)) := by
  bv_omega

/-- A bus write to a read-only or a reserved address has no effect (44_host_bus.md R146). -/
theorem busWrite_ignored (s : State) (a : Addr) (v : Byte)
    (h : 0x010 ≤ a.toNat ∨ a.toNat < 3 ∨ a.toNat = 6 ∨ a.toNat = 7 ∨ a.toNat = 0x00B)
    (hnot : ¬ (0x040 ≤ a.toNat ∧ a.toNat < 0x07F)) : s.busWrite a v = s := by
  rw [busWrite_of_ge s a v h, if_neg (by rw [covers_iff]; exact hnot)]

/-- After a bus write to a byte of TXPAYLOAD that byte reads as written (10_state.md R40). -/
theorem busRead_busWrite_txPayload {s : State} (hm : memWf s.mem) (a : Addr) (v : Byte)
    (h : 0x040 ≤ a.toNat ∧ a.toNat < 0x07F) : (s.busWrite a v).busRead a = v := by
  rw [busWrite_of_ge s a v (.inl (by omega)), if_pos ((covers_iff _ _).2 h),
    busRead_buffer ((isBufferAddr_iff _).2 (.inl h))]
  exact memRead_memWrite_same hm.1 _ _

/-- After a bus write its address reads the stored bits, the reserved bits 0 (10_state.md R28-R34, R40, R44). -/
theorem busRead_busWrite_same {s : State} (hm : memWf s.mem) (a : Addr) (v : Byte) :
    (s.busWrite a v).busRead a =
      (if a = 0x003#9 then v &&& 0x07#8
      else if a = 0x004#9 then v &&& 0x0F#8
      else if a = 0x005#9 then v &&& 0x7F#8
      else if (0x008#9 ≤ a ∧ a ≤ 0x00A#9) ∨ (0x00C#9 ≤ a ∧ a ≤ 0x00F#9) ∨ (0x040#9 ≤ a ∧ a ≤ 0x07E#9) then v
      else s.busRead a) := by
  rcases writeAddr_cases a with rfl | rfl | rfl | rfl | rfl | rfl | rfl | rfl | rfl | rfl | h | ⟨h, hnot⟩
  · exact (by decide : ∀ v : Byte, (v.setWidth 3).setWidth 8 = v &&& 0x07#8) v
  · exact (by decide : ∀ v : Byte, (v.setWidth 4).setWidth 8 = v &&& 0x0F#8) v
  · exact (by decide : ∀ v : Byte, (v.setWidth 7).setWidth 8 = v &&& 0x7F#8) v
  · exact getByte_setByte s.host.bitPer 0 0 v (by omega)
  · exact getByte_setByte s.host.bitPer 1 1 v (by omega)
  · exact getByte_setByte s.host.bitPer 2 2 v (by omega)
  · exact getByte_setByte s.host.quiet 0 0 v (by omega)
  · exact getByte_setByte s.host.quiet 1 1 v (by omega)
  · exact getByte_setByte s.host.quiet 2 2 v (by omega)
  · exact getByte_setByte s.host.quiet 3 3 v (by omega)
  · rw [busRead_busWrite_txPayload hm a v h, if_neg (by bv_omega), if_neg (by bv_omega), if_neg (by bv_omega),
      if_pos (by bv_omega)]
  · rw [busWrite_ignored s a v h hnot, if_neg (by bv_omega), if_neg (by bv_omega), if_neg (by bv_omega),
      if_neg (by bv_omega)]

/-- Settles O13: the address written, and every other address. -/
theorem readBackAfterWrite : Obligations.ReadBackAfterWrite := by
  intro s a v ha hm
  have hexec : exec (.wr a v) s = .next (s.busWrite a v) := congrArg Host.Outcome.next (if_neg ha)
  exact ⟨_, hexec, fun b hb => busRead_busWrite_ne s hb v, busRead_busWrite_same hm a v⟩

/-! ### After reset -/

/-- After reset every register but BITPER and QUIET reads 0x00 (10_state.md R54). -/
theorem busRead_reset (a : Addr) (hper : ¬ (0x008#9 ≤ a ∧ a ≤ 0x00A#9)) (hq : ¬ (0x00C#9 ≤ a ∧ a ≤ 0x00F#9)) :
    State.reset.busRead a = 0x00#8 := by
  have hper' : ¬ (0x008 ≤ a.toNat ∧ a.toNat ≤ 0x00A) := hper
  have hq' : ¬ (0x00C ≤ a.toNat ∧ a.toNat ≤ 0x00F) := hq
  unfold State.busRead
  generalize a.toNat = n at *
  clear hper hq
  split
  case h_9 | h_10 | h_11 | h_12 | h_13 | h_14 | h_15 => exfalso; omega
  case h_23 => split <;> rfl
  all_goals rfl

/-- Settles O8: the host's reads, then the elements that no read shows. -/
theorem resetStateHoldsSpecifiedValues : Obligations.ResetStateHoldsSpecifiedValues :=
  ⟨busRead_reset, rfl, rfl, rfl, fun _ => rfl, rfl, rfl, rfl, rfl, rfl, rfl, bufByte_reset⟩

/-- Settles O10: after reset nothing is listed, sent, received or held. -/
theorem resetStateIsLegal : Obligations.ResetStateIsLegal :=
  ⟨memWf_reset, ⟨.nil, fun _ hk => by cases hk⟩, ⟨fun _ => rfl, fun hbusy => absurd rfl hbusy⟩,
    RxQuiet.legal ⟨.inl rfl, rfl⟩, holdLegal_reset⟩

/-- Settles O38: only the end of a cycle counts NOW, and no read shows it. -/
theorem nowCountsCyclesUnseen : Obligations.NowCountsCyclesUnseen := by
  refine ⟨rfl, fun s t h hr => ?_, fun s n a => rfl⟩
  rw [(step_now_syncLow h hr).1]
  exact BitVec.toNat_add s.now 1#32

end Sys2Proof.Machine
end

section
/-! The cycle as a whole: which phases it runs, that a read changes nothing but the read data, and that every run keeps
the state legal (20_memory.md R63, R66, R67). -/

namespace Sys2Proof.Machine

/-! ### The phases of a cycle -/

/-- A reset cycle (20_memory.md R66). -/
theorem step_of_reset {s : State} (hr : s.input.rst = true) : step s = .next (resetCycle s) :=
  if_pos hr

/-- A non-reset cycle: the host's access, then the engines (20_memory.md R67). -/
theorem step_of_not_reset {s : State} (hr : s.input.rst = false) :
    step s = andThen (busPhase s.input.bus (beginCycle s)) (enginePhase (s.line s.input.rxd) s.input.rxd) :=
  if_neg (by simp [hr])

/-- An access that decodes to an operation runs it (20_memory.md R67). -/
theorem busPhase_of_decode {w : BusWord} {i : Instr} (h : decodeBus w = .ok i) (s : State) :
    busPhase w s = exec i s := by
  rw [busPhase, h]

/-- No access, no operation (30_encoding.md R85). -/
theorem busPhase_no_access {w : BusWord} (h : w[18] = false) (s : State) : busPhase w s = .next s := by
  have hdec : decodeBus w = .error .noAccess := if_neg (by simp [h])
  rw [busPhase, hdec]

/-- A read is an operation, whatever stands on bus_wdata (30_encoding.md R85). -/
theorem decodeBus_read (a : Addr) (v : Byte) : decodeBus (busWord false a v) = .ok (.rd a) := by
  simp [decodeBus]

/-- Settles O9: no other input of the cycle is looked at. -/
theorem resetCycleRestoresEveryElement : Obligations.ResetCycleRestoresEveryElement :=
  fun _ _ _ _ => step_of_reset rfl

/-- Settles O5: by the phases of a non-reset cycle, with the access decoded or absent. -/
theorem stepRunsDecodedTransaction : Obligations.StepRunsDecodedTransaction := by
  intro s hr
  rw [step_of_not_reset hr]
  refine ⟨fun i hdec => ?_, fun hsel => ?_⟩
  · rw [busPhase_of_decode hdec]
  · rw [busPhase_no_access hsel, andThen]

/-! ### The read data and the engines -/

/-- The receiver's step changes neither the inputs to come nor the read data (20_memory.md R67). -/
theorem rxStep_inputs_busRdata {line : Bool} {s t : State} (h : rxStep line s = .next t) :
    t.inputs = s.inputs ∧ t.busRdata = s.busRdata := by
  rw [rxStep_eq] at h
  cases h
  split <;> simp

/-- The receiver's step passes the read data through unread (20_memory.md R67; log 6). -/
theorem rxStep_with_busRdata {line : Bool} {s t : State} (rd : Byte) (h : rxStep line s = .next t) :
    rxStep line { s with busRdata := rd } = .next { t with busRdata := rd } := by
  obtain ⟨hinputs, -⟩ := rxStep_inputs_busRdata h
  have hkeep : t.withEnv s.tx s.syncLow s.inputs rd = { t with busRdata := rd } := by
    rw [← rxStep_tx h, ← rxStep_syncLow h, ← hinputs]
    rfl
  rw [← hkeep]
  exact rxStep_withEnv s.tx s.syncLow s.inputs rd h

/-- The engines: the transmitter, the receiver and the end of the cycle (20_memory.md R67). -/
theorem enginePhase_of_rxStep {line rxd : Bool} {s t : State} (h : rxStep line (clearEvents (txStep s)) = .next t) :
    enginePhase line rxd s = .next (endCycle rxd t) := by
  rw [enginePhase, h, andThen]

/-- The engines answer a state, and pass the read data through unread (20_memory.md R67; log 6). -/
theorem enginePhase_with_busRdata (line rxd : Bool) (s : State) :
    ∃ t, enginePhase line rxd s = .next t ∧ t.busRdata = s.busRdata ∧
      ∀ rd, enginePhase line rxd { s with busRdata := rd } = .next { t with busRdata := rd } := by
  obtain ⟨u, hrx⟩ : ∃ u, rxStep line (clearEvents (txStep s)) = .next u := ⟨_, rxStep_eq _ _⟩
  obtain ⟨-, hrd⟩ := rxStep_inputs_busRdata hrx
  exact ⟨endCycle rxd u, enginePhase_of_rxStep hrx, hrd,
    fun rd => enginePhase_of_rxStep (s := { s with busRdata := rd }) (rxStep_with_busRdata rd hrx)⟩

/-- Settles O7: the access of a read sets the read data alone, and the engines pass it through. -/
theorem readCycleDiffersOnlyInReadData : Obligations.ReadCycleDiffersOnlyInReadData := by
  intro s a v rxd rest
  obtain ⟨hread, -⟩ := stepRunsDecodedTransaction
    { s with inputs := { rst := false, bus := busWord false a v, rxd := rxd } :: rest } rfl
  obtain ⟨-, hidle⟩ := stepRunsDecodedTransaction
    { s with inputs := { rst := false, bus := 0#19, rxd := rxd } :: rest } rfl
  obtain ⟨t, ht, hrd, hpass⟩ :=
    enginePhase_with_busRdata (s.line rxd) rxd { s with inputs := rest, busRdata := 0x00#8, emitted := [] }
  have hsel : (0#19)[18] = false := by decide
  exact ⟨t, (hidle hsel).trans ht, hrd, (hread _ (decodeBus_read a v)).trans (hpass (s.busRead a))⟩

/-! ### Runs from a legal state -/

/-- Every cycle keeps a legal state legal: the five invariants together. -/
theorem legal_step {s t : State} (hs : Legal s) (h : step s = .next t) : Legal t := by
  obtain ⟨hmem, hsync, htx, hrx, hhold⟩ := hs
  exact ⟨memoryStaysCanonical s t hmem h, synchronizerStaysLegal s t hsync h, transmitterStaysLegal s t hmem htx h,
    receiverStaysLegal s t hmem hrx h, holdingRegistersStayLegal s t hmem hrx hhold h⟩

/-- Settles O50, by induction on the number of cycles: each has a next state, and that state is legal. -/
theorem everyRunFromLegalStateStaysLegal : Obligations.EveryRunFromLegalStateStaysLegal := by
  intro k
  induction k with
  | zero => exact fun s hs => ⟨s, rfl, hs⟩
  | succ k ih =>
    intro s hs
    obtain ⟨t, ht⟩ := step_next s
    rw [run_first ht]
    exact ih t (legal_step hs ht)

end Sys2Proof.Machine
end

section
/-! The decoder and the encoder are inverse: transactions and their fields, CTRL bytes and their bits, header bytes and
their command field (30_encoding.md R75-R88). -/

namespace Sys2Proof.Machine

/-! ### Transactions -/

/-- A write to an address other than CTRL decodes to that write (30_encoding.md R85). -/
theorem decodeBus_write {a : Addr} (v : Byte) (h : a ≠ ctrlAddr) : decodeBus (busWord true a v) = .ok (.wr a v) := by
  simp [decodeBus, h]

/-- A write to CTRL decodes by its command byte (30_encoding.md R85, R86). -/
theorem decodeBus_ctrl (v : Byte) : decodeBus (busWord true ctrlAddr v) = .ok (decodeCtrl v) := by
  simp [decodeBus]

/-- The bytes of a CTRL write decode by its command byte (30_encoding.md R85, R86). -/
theorem decode_ctrlBytes (v : Byte) : decode (ctrlBytes v) = .ok (decodeCtrl v) :=
  (decode_busBytes _).trans (decodeBus_ctrl v)

/-- A transaction with bus_sel = 1 is put together from some fields (30_encoding.md R85). -/
theorem exists_busWord {w : BusWord} (h : w[18] = true) : ∃ we a v, w = busWord we a v :=
  ⟨_, _, _, (busWord_of_fields w h).symm⟩

/-- A mask that keeps bus_sel acts on the other fields of a transaction one by one (30_encoding.md R85). -/
theorem busWord_and (we : Bool) (a : Addr) (v : Byte) {m : BusWord} (h : m[18] = true) :
    busWord we a v &&& m = busWord (we && m[17]) (a &&& m.extractLsb' 8 9) (v &&& m.extractLsb' 0 8) := by
  rw [← busWord_of_fields (busWord we a v &&& m) (by simp [h])]
  simp [BitVec.extractLsb'_and]

/-- The mask of a read's ignored bits zeroes its bus_wdata (30_encoding.md R85). -/
theorem busWord_and_readMask (a : Addr) (v : Byte) : busWord false a v &&& 0x7FF00#19 = busWord false a 0#8 := by
  have haddr : (0x7FF00#19).extractLsb' 8 9 = BitVec.allOnes 9 := by decide
  have hdata : (0x7FF00#19).extractLsb' 0 8 = 0#8 := by decide
  rw [busWord_and false a v (by decide), haddr, hdata, BitVec.and_allOnes, BitVec.and_zero, Bool.false_and]

/-- The mask of a CTRL write's ignored bits zeroes bits 7:6 of its command byte (30_encoding.md R86). -/
theorem busWord_and_ctrlMask (v : Byte) :
    busWord true ctrlAddr v &&& 0x7FF3F#19 = busWord true ctrlAddr (v &&& 0x3F#8) := by
  have hdata : (0x7FF3F#19).extractLsb' 0 8 = 0x3F#8 := by decide
  rw [busWord_and true ctrlAddr v (by decide), hdata, ctrlAddr, BitVec.zero_and]
  rfl

/-! ### CTRL bytes -/

/-- Each bit of a command byte is the command at its position (30_encoding.md R86). -/
theorem ctrlByte_bits (e t o k c d : Bool) :
    (ctrlByte e t o k c d)[0] = e ∧ (ctrlByte e t o k c d)[1] = t ∧ (ctrlByte e t o k c d)[2] = o ∧
    (ctrlByte e t o k c d)[3] = k ∧ (ctrlByte e t o k c d)[4] = c ∧ (ctrlByte e t o k c d)[5] = d := by
  revert e t o k c d
  decide

/-- A command byte put together from the bits of `v` is `v` with its ignored bits zero (30_encoding.md R86). -/
theorem ctrlByte_of_bits (v : Byte) :
    ctrlByte (v[0]) (v[1]) (v[2]) (v[3]) (v[4]) (v[5]) = v &&& 0x3F#8 := by
  revert v
  decide

/-- A command byte decodes to the first command of its bits, which carries the bits after it (log 3). -/
theorem decodeCtrl_ctrlByte (e t o k c d : Bool) :
    decodeCtrl (ctrlByte e t o k c d) =
      if t then .txStart e o k c d else if o then .encOnly e k c d else if k then .rxAck e c d
      else if c then .errClr e d else if d then .txDoneClr e else if e then .rxon else .rxoff := by
  obtain ⟨he, ht, ho, hk, hc, hd⟩ := ctrlByte_bits e t o k c d
  simp only [decodeCtrl, he, ht, ho, hk, hc, hd]

/-- Every command byte decodes to an operation of a row of the table (30_encoding.md R86). -/
theorem decodeCtrl_wellFormed (v : Byte) : (decodeCtrl v).wellFormed = true := by
  unfold decodeCtrl
  split_ifs <;> rfl

/-- The operation of a command byte encodes to the write of that byte, its ignored bits zero (30_encoding.md R86). -/
theorem encode_decodeCtrl (v : Byte) : encode (decodeCtrl v) = ctrlBytes (v &&& 0x3F#8) := by
  rw [← ctrlByte_of_bits v]
  unfold decodeCtrl
  split_ifs <;> simp only [encode, Bool.not_eq_true, *] at *

/-! ### Header bytes -/

/-- A command packed from a header byte is that byte with its reserved bits zero (30_encoding.md R76, R88 (a)). -/
theorem packCommand_headerCommand (b : Byte) : packCommand (headerCommand b) = b &&& 0x3C#8 := by
  revert b
  decide

/-- An unassigned command is 8 and the low three bits of its code (30_encoding.md R87). -/
theorem unassigned_code (low : BitVec 3) : 8#4 + low.setWidth 4 = 1#1 ++ low := by
  revert low
  decide

/-- The code of a header byte with an unassigned command is 8 and its bits 4:2 (30_encoding.md R76, R87). -/
theorem unassigned_code_of_header {b : Byte} (h : 8 ≤ (headerCommand b).toNat) :
    8#4 + (b.extractLsb' 2 3).setWidth 4 = headerCommand b := by
  apply BitVec.eq_of_toNat_eq
  simp only [headerCommand, BitVec.toNat_add, BitVec.toNat_setWidth, BitVec.extractLsb'_toNat,
    BitVec.toNat_ofNat, Nat.shiftRight_eq_div_pow] at h ⊢
  omega

/-- A frame operation encodes to the header byte of its command (30_encoding.md R76, R87). -/
theorem encode_of_frameCode {i : Instr} {c : BitVec 4} (h : frameCode i = some c) : encode i = [packCommand c] := by
  cases i with
  | cmdUnassigned low =>
    rw [frameCode, unassigned_code] at h
    cases h
    rfl
  | _ => cases h <;> rfl

/-- The header byte of a frame operation's command decodes to that operation (30_encoding.md R76, R87). -/
theorem decodeHeader_of_frameCode {i : Instr} {c : BitVec 4} (h : frameCode i = some c) :
    decodeHeader (packCommand c) = i := by
  cases i with
  | cmdUnassigned low =>
    cases h
    revert low
    decide
  | _ => cases h <;> rfl

/-- A frame operation is decoded from its encoding (30_encoding.md R76, R87). -/
theorem decode_encode_of_frameCode {i : Instr} {c : BitVec 4} (h : frameCode i = some c) :
    decode (encode i) = .ok i := by
  rw [encode_of_frameCode h, decode, decodeHeader_of_frameCode h]

/-- Header byte 0 decodes to the operation of the command in its bits 5:2 (30_encoding.md R76, R87). -/
theorem frameCode_decodeHeader (b : Byte) : frameCode (decodeHeader b) = some (headerCommand b) := by
  unfold decodeHeader
  rw [← headerCommand]
  split
  case h_9 h0 h1 h2 h3 h4 h5 h6 h7 =>
    have hge : 8 ≤ (headerCommand b).toNat := by
      rw [imp_false] at h0 h1 h2 h3 h4 h5 h6 h7
      omega
    exact congrArg some (unassigned_code_of_header hge)
  all_goals exact congrArg some (BitVec.eq_of_toNat_eq (Eq.symm ‹(headerCommand b).toNat = _›))

/-! ### The statements -/

/-- Settles O2: a bus operation by the fields of its transaction, a command byte by its bits, a frame operation by its
command. -/
theorem decodeOfEncodeIsIdentity : Obligations.DecodeOfEncodeIsIdentity := by
  intro i hwf
  cases i with
  | rd a => exact (decode_busBytes _).trans (decodeBus_read a _)
  | wr a v => exact (decode_busBytes _).trans (decodeBus_write v (bne_iff_ne.mp hwf))
  | rxon | rxoff | txStart | encOnly | rxAck | errClr | txDoneClr =>
    exact (decode_ctrlBytes _).trans (congrArg _ (decodeCtrl_ctrlByte ..))
  | cmd0Ping | cmd1Burst | cmd2Display | cmd3Temp | cmd4Toggle | cmd5Setfreq | cmd6Stats | cmd7Samples
  | cmdUnassigned => exact decode_encode_of_frameCode rfl

/-- Settles O3: a transaction with bus_sel = 1 is a read, a CTRL write or another write, put together from its fields;
the mask of the ignored bits acts on the fields. -/
theorem everyTransactionIsLegal : Obligations.EveryTransactionIsLegal := by
  intro w
  refine ⟨fun hsel => by simp [decodeBus, hsel], fun hsel => ?_⟩
  obtain ⟨we, a, v, rfl⟩ := exists_busWord hsel
  have hwe := busWord_we we a v
  cases we with
  | false =>
    refine ⟨.rd a, decodeBus_read a v, rfl, ?_⟩
    rw [if_pos hwe, busWord_and_readMask, encode]
  | true =>
    rw [if_neg (by simp [hwe]), busWord_addr]
    by_cases hctrl : a = ctrlAddr
    · subst hctrl
      refine ⟨decodeCtrl v, decodeBus_ctrl v, decodeCtrl_wellFormed v, ?_⟩
      rw [if_pos (show ctrlAddr = 0#9 from rfl), busWord_and_ctrlMask, encode_decodeCtrl, ctrlBytes]
    · refine ⟨.wr a v, decodeBus_write v hctrl, bne_iff_ne.mpr hctrl, ?_⟩
      rw [if_neg (show ¬a = 0#9 from hctrl), encode]

/-- Settles O1: the decoder is run on each word. -/
theorem sampleWordsDecodeAsSpecified : Obligations.SampleWordsDecodeAsSpecified := by
  unfold Obligations.SampleWordsDecodeAsSpecified
  decide

/-- Settles O4: the operation decoded bears the command of bits 5:2, and encodes to its header byte. -/
theorem headerByteDecodesByCommandField : Obligations.HeaderByteDecodesByCommandField := by
  intro b
  have hcode := frameCode_decodeHeader b
  exact ⟨decodeHeader b, rfl, hcode, by rw [encode_of_frameCode hcode, packCommand_headerCommand]⟩

end Sys2Proof.Machine
end

section
/-! The codec's weights in any order of the bytes and under flips, and the commands whose ENCODE fails (40_codec.md R92-R95,
R100). -/

namespace Sys2Proof.Machine

/-! ### Weights in any order, and under flips -/

/-- The weight of bytes is the sum of their weights (40_codec.md R92). -/
theorem bitWeight_eq_sum (bs : List Byte) : bitWeight bs = (bs.map popcount8).sum := by
  induction bs with
  | nil => rfl
  | cons b bs ih => rw [bitWeight, ih, List.map_cons, List.sum_cons]

/-- Settles O42: a sum does not depend on the order of its terms. -/
theorem checksumIgnoresByteOrder : Obligations.ChecksumIgnoresByteOrder := by
  intro xs ys hperm
  have hweight : bitWeight xs = bitWeight ys := by
    rw [bitWeight_eq_sum, bitWeight_eq_sum]
    exact (hperm.map popcount8).sum_eq
  exact ⟨hweight, by rw [checksum, checksum, hweight]⟩

/-- A flip removes each 1 bit that it meets and adds each other one. -/
theorem popcount8_xor (a f : Byte) : popcount8 (a ^^^ f) + 2 * popcount8 (a &&& f) = popcount8 a + popcount8 f := by
  have hbit : ∀ x y : Bool, (x ^^ y).toNat + 2 * (x && y).toNat = x.toNat + y.toNat := by decide
  simp only [popcount8, BitVec.getElem_xor, BitVec.getElem_and]
  linarith [hbit a[0] f[0], hbit a[1] f[1], hbit a[2] f[2], hbit a[3] f[3], hbit a[4] f[4], hbit a[5] f[5],
    hbit a[6] f[6], hbit a[7] f[7]]

/-- Settles O44: each byte's weight changes by the weight of its flips, modulo 2. -/
theorem oddFlipsChangeFrameParity : Obligations.OddFlipsChangeFrameParity := by
  intro flips
  induction flips with
  | nil =>
    intro bytes hlen
    rw [List.length_eq_zero_iff.1 hlen.symm]
    rfl
  | cons f flips ih =>
    rintro (_ | ⟨b, bytes⟩) hlen
    · cases hlen
    · have hrest := ih bytes (by simpa using hlen)
      have hbyte := popcount8_xor b f
      simp only [List.zipWith_cons_cons, bitWeight]
      omega

/-! ### ENCODE commands that fail -/

/-- A successful ENCODE sets no flag (40_codec.md R94). -/
theorem encodeFrame_errFlags {s : State} (h : s.encodeFails = false) :
    (encodeFrame s).host.errFlags = s.host.errFlags := by
  simp [encodeFrame, h]

/-- Settles O18: the other command bits act first, then ENCODE sets the one flag, or none. -/
theorem payloadTooLargeIsRejected : Obligations.PayloadTooLargeIsRejected := by
  intro s e o k c d hidle
  have hstart : exec (.txStart e o k c d) s = .next (txStart (ctrlWrite (ctrlByte e false false k c d) s)) :=
    congrArg _ (ctrlWrite_txStart e o k c d s)
  have henc : exec (.encOnly e k c d) s = .next (encOnly (ctrlWrite (ctrlByte e false false k c d) s)) :=
    congrArg _ (ctrlWrite_encOnly e k c d s)
  rw [hstart, henc, ctrlWrite_clears]
  refine ⟨fun hlarge => ?_, fun hsmall => ⟨_, _, rfl, rfl, ?_, ?_⟩⟩
  · have hfail : s.encodeFails = true := (encodeFails_iff s).2 hlarge
    rw [txStart_fail (by exact hidle) (by exact hfail), encOnly_idle (by exact hidle), encodeFrame_fail (by exact hfail)]
    exact ⟨rfl, rfl⟩
  · have hok : s.encodeFails = false := (encodeFails_false_iff s).2 hsmall
    rw [txStart_ok (by exact hidle) (by exact hok), txBegin_host, encodeFrame_errFlags (by exact hok)]
  · have hok : s.encodeFails = false := (encodeFails_false_iff s).2 hsmall
    rw [encOnly_idle (by exact hidle), encodeFrame_errFlags (by exact hok)]

end Sys2Proof.Machine
end

section
/-! VALIDATE, EXTRACT and DISPATCH of the frame in RXWIRE: a whole wire frame is delivered as it was packed, and one whose
body has another weight than was sent is not valid (40_codec.md R97-R100). -/

namespace Sys2Proof.Machine

/-! ### The operation of a header byte -/

/-- One byte decodes to the operation of a header byte 0 (30_encoding.md R76). -/
theorem exec_of_decode_byte {b : Byte} {i : Instr} (h : decode [b] = .ok i) (s : State) :
    exec i s = .next (deliverFrame (headerCommand b) s) := by
  cases h
  exact exec_decodeHeader b s

/-! ### A whole wire frame in RXWIRE -/

/-- RXWIRE holds the wire frame of a command and a payload, and RX_LEN is its length (40_codec.md R94, R96). -/
structure HoldsFrame (s : State) (cmd : BitVec 4) (len : BitVec 7) (payload : List Byte) : Prop where
  payload_length : payload.length = len.toNat
  len_le : len.toNat ≤ 63
  wire : (s.bufBytes .rxWire).take (len.toNat + 4) = wireFrame cmd len payload
  rx_len : s.rx.len = len

section

variable {s : State} {cmd : BitVec 4} {len : BitVec 7} {payload : List Byte} (h : HoldsFrame s cmd len payload)
include h

/-- Byte `i` of the working frame is byte `i` of the wire frame. -/
theorem HoldsFrame.bufByte {i : Nat} (hi : i < len.toNat + 4) :
    s.bufByte .rxWire i = (wireFrame cmd len payload).getD i unlistedByte := by
  rw [← bufBytes_getD, ← h.wire]
  simp only [List.getD_eq_getElem?_getD, List.getElem?_take, if_pos hi]

/-- Header byte 0 gives the command that was packed (30_encoding.md R78). -/
theorem HoldsFrame.headerCommand : headerCommand (s.bufByte .rxWire 0) = cmd := by
  rw [h.bufByte (by omega)]
  exact headerCommand_packCommand cmd

/-- The working frame before its checksum is the body that was packed (30_encoding.md R75). -/
theorem HoldsFrame.take_body : (s.bufBytes .rxWire).take (len.toNat + 2) = frameBody cmd len payload := by
  rw [← wireFrame_take, h.payload_length, ← h.wire, List.take_take]
  congr 1
  omega

/-- VALIDATE: a whole wire frame is valid (40_codec.md R97, R99). -/
theorem HoldsFrame.frameValid : s.frameValid = true := by
  have hhigh : s.bufByte .rxWire (len.toNat + 2) = (checksum (frameBody cmd len payload)).extractLsb' 8 8 := by
    rw [h.bufByte (by omega), ← h.payload_length]
    exact wireFrame_getD_checksum cmd len payload 0
  have hlow : s.bufByte .rxWire (len.toNat + 3) = (checksum (frameBody cmd len payload)).extractLsb' 0 8 := by
    rw [h.bufByte (by omega), ← h.payload_length]
    exact wireFrame_getD_checksum cmd len payload 1
  rw [State.frameValid, State.receivedChecksum, State.computedChecksum, h.rx_len, h.take_body, hhigh, hlow,
    high_append_low, beq_self_eq_true]

/-- EXTRACT: the payload of the working frame is the one that was packed (40_codec.md R98). -/
theorem HoldsFrame.rxFramePayload : s.rxFramePayload = payload := by
  rw [State.rxFramePayload, h.rx_len, List.take_drop, Nat.add_comm, h.take_body]
  rfl

/-- The holding registers after the delivery of a whole wire frame (43_dispatch.md R131). -/
theorem HoldsFrame.deliverFrame_hold :
    (deliverFrame cmd s).hold.ready = true ∧ (deliverFrame cmd s).hold.valid = true ∧
    (deliverFrame cmd s).hold.cmd = cmd ∧ (deliverFrame cmd s).hold.len.toNat = len.toNat := by
  obtain ⟨hready, hvalid, hlen, -⟩ := Machine.deliverFrame_hold cmd s
  refine ⟨hready, hvalid.trans h.frameValid, by rw [deliverFrame_eq]; rfl, ?_⟩
  have hle := h.len_le
  rw [hlen, h.rx_len, BitVec.toNat_setWidth]
  omega

/-- RXPAYLOAD after the delivery of a whole wire frame: the payload, then 0x00 (40_codec.md R98). -/
theorem HoldsFrame.deliverFrame_rxPayload (hm : memWf s.mem) {j : Nat} (hj : j < 64) :
    (deliverFrame cmd s).bufByte .rxPayload j = payload.getD j 0x00#8 := by
  rw [bufByte_eq_of_mem (deliverFrame_mem cmd s), extractPayload, bufByte_fillBuf_same hm _ _ (by exact hj),
    h.rxFramePayload]
  rfl

/-- The receiver is frame-idle after the delivery of a whole wire frame (42_receiver.md R125). -/
theorem HoldsFrame.deliverFrame_idle : (deliverFrame cmd s).rx.st = .idle ∧ (deliverFrame cmd s).rx.idx = 0#7 := by
  rw [deliverFrame_eq, h.frameValid]
  exact ⟨rfl, rfl⟩

/-- The delivery of a whole wire frame sets no flag but RX_OVERRUN, where a frame was still held (43_dispatch.md R131). -/
theorem HoldsFrame.deliverFrame_host : (deliverFrame cmd s).host
    = { s.host with errFlags := s.host.errFlags ||| (if s.hold.ready then 0x80#8 else 0x00#8) } := by
  rw [deliverFrame_eq]
  simp [dispatchFrame_host, h.frameValid]

/-- The delivery of a whole wire frame emits it, valid (43_dispatch.md R131). -/
theorem HoldsFrame.deliverFrame_emitted :
    (deliverFrame cmd s).emitted = s.emitted ++ [.dispatch cmd len payload true] := by
  rw [(deliverFrame_ev cmd s).2, h.rx_len, h.rxFramePayload, h.frameValid]

end

/-- What ENCODE leaves in TXWIRE is, in RXWIRE with the length its header gives, a whole wire frame (40_codec.md R94,
R96). -/
theorem holdsFrame_of_encodeFrame {s r : State} (hm : memWf s.mem) (hlen : s.host.txLen.toNat ≤ 63)
    (hbuf : r.bufBytes .rxWire = (encodeFrame s).bufBytes .txWire)
    (hrx : r.rx.len = headerLength (r.bufByte .rxWire 1)) :
    HoldsFrame r s.host.txCmd s.host.txLen s.txPayloadBytes := by
  have hok : s.encodeFails = false := (encodeFails_false_iff s).2 hlen
  refine ⟨txPayloadBytes_length hok, hlen, by rw [hbuf]; exact take_encodeFrame hm hok, ?_⟩
  rw [hrx, ← bufBytes_getD, hbuf, bufBytes_getD, bufByte_encodeFrame hm hok]
  exact headerLength_packLength _

/-- Settles O23: RXWIRE holds a whole wire frame, and such a frame is delivered as it was packed. -/
theorem encodedFrameIsDeliveredUnchanged : Obligations.EncodedFrameIsDeliveredUnchanged := by
  intro s r i hms hmr hlen hbuf hrx hdec
  have hframe := holdsFrame_of_encodeFrame hms hlen hbuf hrx
  obtain ⟨-, hvalid, hcmd, hl⟩ := hframe.deliverFrame_hold
  refine ⟨_, ?_, hvalid, hcmd, hl, fun j hj => ?_, hframe.deliverFrame_idle⟩
  · rw [exec_of_decode_byte hdec, hframe.headerCommand]
  · rw [hframe.deliverFrame_rxPayload hmr hj]
    exact txPayloadBytes_getD s j

/-! ### A body of another weight -/

/-- Short lists of bytes have the same checksum only where they have the same weight (40_codec.md R93, R100 (b)). -/
theorem bitWeight_eq_of_checksum_eq {xs ys : List Byte} (hx : xs.length ≤ 65) (hy : ys.length ≤ 65)
    (h : checksum xs = checksum ys) : bitWeight xs = bitWeight ys := by
  have hwx := bitWeight_le xs
  have hwy := bitWeight_le ys
  have hnat := congrArg BitVec.toNat h
  rw [checksum, checksum, BitVec.toNat_ofNat, BitVec.toNat_ofNat] at hnat
  omega

/-- VALIDATE compares the received checksum with the computed one (40_codec.md R97). -/
theorem frameValid_iff (s : State) : s.frameValid = true ↔ s.receivedChecksum = s.computedChecksum := beq_iff_eq

/-- Settles O43: the received checksum is that of the bytes sent, and the computed one differs with the weight. -/
theorem weightChangeIsDetected : Obligations.WeightChangeIsDetected := by
  intro s sent i _ hlen hsent hcsr hweight hdec
  refine ⟨_, exec_of_decode_byte hdec s, ?_⟩
  obtain ⟨-, hvalid, -⟩ := deliverFrame_hold (headerCommand (s.bufByte .rxWire 0)) s
  rw [hvalid, ← Bool.not_eq_true]
  intro hv
  have hagree : checksum sent = checksum ((s.bufBytes .rxWire).take (s.rx.len.toNat + 2)) :=
    hcsr.symm.trans ((frameValid_iff s).1 hv)
  refine hweight (bitWeight_eq_of_checksum_eq ?_ (by omega) hagree.symm)
  rw [List.length_take]
  omega

end Sys2Proof.Machine
end

section
/-! The receiver on the line: its part of a cycle without reset and access, and a run of such cycles as the receiver's
cycles over the levels that the synchronizer gives it (10_state.md R47; 20_memory.md R67). -/

namespace Sys2Proof.Machine

/-! ### The receiver's part of a cycle -/

/-- No event of this cycle stands in the state, as when the receiver's step begins (20_memory.md R67). -/
def Fresh (s : State) : Prop := s.emitted = [] ∧ s.ev = { dispatch := false, valid := false, syncErr := false }

/-- The state `d` cycles later, nothing else changed. -/
def State.later (s : State) (d : Nat) : State := { s with now := s.now + BitVec.ofNat 32 d }

@[simp] theorem later_zero (s : State) : s.later 0 = s := by simp [State.later]

@[simp] theorem later_later (s : State) (d e : Nat) : (s.later d).later e = s.later (d + e) := by
  simp [State.later, BitVec.ofNat_add, BitVec.add_assoc]

/-- The receiver's part of a cycle without reset and access, with this synchronized line: its step, and NOW counts
(20_memory.md R67 steps 4 and 5). -/
def rxTick (line : Bool) (s : State) : State :=
  (if frameAccepted line s then deliverFrame (headerCommand (s.bufByte .rxWire 0)) s else rxPoll line s).later 1

/-- `rxTick` is the receiver's step and the count of NOW. -/
theorem rxTick_of_rxStep {line : Bool} {s t : State} (h : rxStep line s = .next t) : rxTick line s = t.later 1 := by
  rw [rxStep_eq] at h
  cases h
  rfl

/-- A cycle that accepts no frame polls (42_receiver.md R116). -/
theorem rxTick_of_not_accepted {line : Bool} {s : State} (h : frameAccepted line s = false) :
    rxTick line s = (rxPoll line s).later 1 := by
  simp [rxTick, h]

/-- A cycle that accepts a frame delivers it (42_receiver.md R125). -/
theorem rxTick_of_accepted {line : Bool} {s : State} (h : frameAccepted line s = true) :
    rxTick line s = (deliverFrame (headerCommand (s.bufByte .rxWire 0)) s).later 1 := by
  simp [rxTick, h]

/-- Cycles over these levels of the synchronized line lead the receiver from one state to another, and none of them
emits an event. -/
inductive SilentTicks : List Bool → State → State → Prop
  | nil (s : State) : SilentTicks [] s s
  | cons {v : Bool} {l : List Bool} {s t : State} (fresh : Fresh (rxTick v s)) (rest : SilentTicks l (rxTick v s) t) :
      SilentTicks (v :: l) s t

theorem SilentTicks.append {l l' : List Bool} {s t u : State} (h : SilentTicks l s t) (h' : SilentTicks l' t u) :
    SilentTicks (l ++ l') s u := by
  induction h with
  | nil => exact h'
  | cons fresh _ ih => exact .cons fresh (ih h')

/-! ### The line that the synchronizer gives -/

/-- The levels that stand in the synchronizer's stages, in the order in which they reach the receiver (10_state.md R47). -/
def State.stageLevels (s : State) : List Bool :=
  (List.range Config.syncStages).map fun k => s.syncStage (Config.syncStages - k)

/-- A chain that is HIGH gives HIGH for SYNC_STAGES cycles (10_state.md R47). -/
theorem stageLevels_of_high {s : State} (h : s.syncLow = []) :
    s.stageLevels = List.replicate Config.syncStages true := by
  simp [State.stageLevels, State.syncStage, h]

/-- A cycle takes the first of the levels that stand in the stages and on the input, and shifts the others
(10_state.md R47). -/
theorem stageLevels_shift {s t : State} (hs : SyncLegal s) (hstep : step s = .next t) (hr : s.input.rst = false)
    (levels : List Bool) :
    s.stageLevels ++ s.input.rxd :: levels = s.line s.input.rxd :: (t.stageLevels ++ levels) := by
  obtain ⟨-, hshift, hline⟩ := synchronizerIsShiftChain
  obtain ⟨hfirst, hnext⟩ := hshift s t hstep hr hs
  rw [hline s s.input.rxd hs]
  unfold State.stageLevels
  rcases Nat.eq_zero_or_eq_succ_pred Config.syncStages with hS | hS
  · simp [hS]
  · generalize Config.syncStages.pred = m at hS
    have hmoved : (List.range m).map (fun k => t.syncStage (m + 1 - k))
        = (List.range m).map fun k => s.syncStage (m - k) :=
      List.map_congr_left fun k hk => by
        have hk := List.mem_range.1 hk
        rw [hnext _ (by omega) (by omega), show m + 1 - k - 1 = m - k by omega]
    have hold : (List.range (m + 1)).map (fun k => s.syncStage (m + 1 - k))
        = s.syncStage (m + 1) :: (List.range m).map fun k => s.syncStage (m - k) := by
      rw [List.range_succ_eq_map, List.map_cons, List.map_map]
      simp [Function.comp_def]
    have hnew : (List.range (m + 1)).map (fun k => t.syncStage (m + 1 - k))
        = (List.range m).map (fun k => s.syncStage (m - k)) ++ [s.input.rxd] := by
      rw [List.range_succ, List.map_append, hmoved, List.map_singleton, Nat.add_sub_cancel_left, hfirst (by omega)]
    rw [hS, Nat.succ_eq_add_one, hold, hnew, if_neg (by omega)]
    simp

/-! ### A run as cycles of the receiver -/

/-- Of two environments the last counts. -/
theorem withEnv_withEnv (s : State) (tx tx' : Tx) (low low' : List Nat) (inputs inputs' : List CycleInput)
    (rd rd' : Byte) : (s.withEnv tx low inputs rd).withEnv tx' low' inputs' rd' = s.withEnv tx' low' inputs' rd' := rfl

/-- The machine `s` is the receiver `r` in some environment, and in its next cycles, which have neither a reset nor an
access, the synchronized line has these levels. -/
structure OnLine (s : State) (levels : List Bool) (r : State) : Prop where
  sync : SyncLegal s
  receiver : clearEvents { s with emitted := [] } = r.withEnv s.tx s.syncLow s.inputs s.busRdata
  ahead : ∃ rxds rest, s.inputs = lineInputs rxds ++ rest ∧ levels.length ≤ rxds.length ∧
    levels <+: s.stageLevels ++ rxds

/-- A cycle on the line is the receiver's cycle at the first level (20_memory.md R67). -/
theorem OnLine.next_cycle {s r : State} {v : Bool} {levels : List Bool} (h : OnLine s (v :: levels) r) : ∃ t,
    step s = .next t ∧ t = (rxTick v r).withEnv t.tx t.syncLow t.inputs t.busRdata ∧
    (Fresh (rxTick v r) → OnLine t levels (rxTick v r)) := by
  obtain ⟨hsync, hrec, rxds, rest, hin, hlen, hpre⟩ := h
  obtain _ | ⟨rxd, rxds⟩ := rxds
  · simp at hlen
  have hinput : s.input = { rst := false, bus := 0#19, rxd := rxd } := by rw [State.input, hin]; rfl
  have hrst : s.input.rst = false := by rw [hinput]
  obtain ⟨u, hu⟩ : ∃ u, rxStep (s.line rxd) r = .next u := ⟨_, rxStep_eq _ _⟩
  have hrx : rxStep (s.line rxd) (clearEvents (txStep (beginCycle s)))
      = .next (u.withEnv (txAdvance (beginCycle s)) s.syncLow s.inputs.tail 0x00#8) := by
    rw [show clearEvents (txStep (beginCycle s)) = (clearEvents { s with emitted := [] }).withEnv
      (txAdvance (beginCycle s)) s.syncLow s.inputs.tail 0x00#8 from rfl, hrec, withEnv_withEnv]
    exact rxStep_withEnv _ _ _ _ hu
  have hstep : step s
      = .next ((rxTick (s.line rxd) r).withEnv (txAdvance (beginCycle s)) (shiftSync rxd s.syncLow) s.inputs.tail
        0x00#8) := by
    rw [step_of_not_reset hrst, hinput, busPhase_no_access (w := 0#19) (by decide), andThen, enginePhase_of_rxStep hrx,
      rxTick_of_rxStep hu]
    rfl
  have hshift := stageLevels_shift hsync hstep hrst rxds
  rw [hinput] at hshift
  rw [hshift, List.cons_prefix_cons] at hpre
  obtain ⟨rfl, hpre⟩ := hpre
  refine ⟨_, hstep, rfl, fun ⟨hem, hev⟩ => ⟨synchronizerStaysLegal s _ hsync hstep, ?_, rxds, rest, ?_, ?_, hpre⟩⟩
  · simp only [State.withEnv, clearEvents, ← hem, ← hev]
  · simp [State.withEnv, hin, lineInputs]
  · simpa using hlen

/-- A run over silent cycles emits nothing, and ends in the receiver's state with the other levels still to come. -/
theorem OnLine.run_silent {levels more : List Bool} {s r r' : State} (hs : OnLine s (levels ++ more) r)
    (h : SilentTicks levels r r') :
    (∀ j u, 0 < j → j ≤ levels.length → Host.Core.run Sys2Proof.core j s = .next u → u.emitted = []) ∧
    ∃ t, Host.Core.run Sys2Proof.core levels.length s = .next t ∧ OnLine t more r' := by
  induction h generalizing s with
  | nil =>
    refine ⟨fun j _ h0 hj => ?_, s, rfl, hs⟩
    rw [List.length_nil] at hj
    omega
  | cons fresh _ ih =>
    obtain ⟨t, ht, henv, hline⟩ := hs.next_cycle
    obtain ⟨hsilent, u, hu, hu'⟩ := ih (hline fresh)
    refine ⟨fun j w h0 hj hw => ?_, u, by rw [List.length_cons, run_first ht, hu], hu'⟩
    obtain _ | j := j
    · omega
    rw [run_first ht] at hw
    obtain _ | j := j
    · cases hw
      rw [henv]
      exact fresh.1
    · exact hsilent _ w (by omega) (by simpa using hj) hw

end Sys2Proof.Machine
end

section
/-! The receiver's polls while a frame comes in: it waits for a deadline, takes the sample that is due, and begins a byte
at its start edge (42_receiver.md R116-R125). -/

namespace Sys2Proof.Machine

/-! ### Waiting -/

/-- A deadline ahead by less than 2^31 cycles is due when it is now (10_state.md R22). -/
theorem due_ahead (now : Time) {d : Nat} (hd : d < 2 ^ 31) : due now (now + BitVec.ofNat 32 d) = decide (d = 0) := by
  rw [Bool.eq_iff_iff, decide_eq_true_eq, due_iff_eq (by bv_omega)]
  bv_omega

/-- The deadline of the receiver's state is `d` cycles ahead. -/
def DeadlineIn (s : State) (d : Nat) : Prop := s.rx.dl = s.now + BitVec.ofNat 32 d

theorem DeadlineIn.rxDue {s : State} {d : Nat} (h : DeadlineIn s d) (hd : d < 2 ^ 31) : s.rxDue = decide (d = 0) := by
  rw [State.rxDue, h, due_ahead s.now hd]

/-- A deadline no cycle ahead is now. -/
theorem DeadlineIn.eq_now {s : State} (h : DeadlineIn s 0) : s.rx.dl = s.now := by
  simpa [DeadlineIn] using h

theorem DeadlineIn.later {s : State} {d e : Nat} (h : DeadlineIn s d) (hle : e ≤ d) :
    DeadlineIn (s.later e) (d - e) := by
  simp only [DeadlineIn, State.later, BitVec.add_assoc, ← BitVec.ofNat_add, Nat.add_sub_cancel' hle]
  exact h

/-- An enabled receiver at this level of the line waits: before a sample, or for a start edge while the line is HIGH. -/
structure WaitsAt (line : Bool) (s : State) : Prop where
  enabled : s.host.rxEn = true
  frame : s.rx.st ≠ .recovery
  high : s.rx.st = .idle → line = true

/-- A receiver that waits, with no deadline due, does nothing in a cycle (42_receiver.md R118-R125). -/
theorem rxTick_wait {line : Bool} {s : State} (h : WaitsAt line s)
    (hd : (s.rx.st = .idle ∧ s.rx.idx = 0#7) ∨ s.rxDue = false) : rxTick line s = s.later 1 := by
  have hacc : frameAccepted line s = false := by
    rcases hd with ⟨hst, -⟩ | hd
    · simp [frameAccepted, hst]
    · simp [frameAccepted, hd]
  have hpoll : rxPoll line s = s := by
    rw [rxPoll, if_neg (by simp [h.enabled])]
    cases hst : s.rx.st with
    | idle =>
      rw [h.high hst]
      by_cases hidx : s.rx.idx = 0#7
      · simp [hidx, rxFrameIdle]
      · simp [hidx, rxByteIdle, hd.resolve_left fun h => hidx h.2]
    | recovery => exact absurd hst h.frame
    | _ =>
      have hnot : s.rxDue = false := hd.resolve_left fun h => by simp [hst] at h
      simp [rxReceivingBits, rxVerifyStop1, rxVerifyStop2, rxVerifyFrameParity, rxVerifyFinalStop, hnot]
  rw [rxTick_of_not_accepted hacc, hpoll]

/-- A receiver that waits at a level waits silently for as long as the level lasts and its deadline is not passed. -/
theorem silentTicks_wait {line : Bool} {e : Nat} {s : State} (hf : Fresh s) (h : WaitsAt line s)
    (hd : (s.rx.st = .idle ∧ s.rx.idx = 0#7) ∨ ∃ d, e ≤ d ∧ d < 2 ^ 31 ∧ DeadlineIn s d) :
    SilentTicks (List.replicate e line) s (s.later e) := by
  induction e generalizing s with
  | zero =>
    rw [later_zero]
    exact .nil s
  | succ e ih =>
    have htick : rxTick line s = s.later 1 := by
      refine rxTick_wait h (hd.imp_right ?_)
      rintro ⟨d, hle, hlt, hdl⟩
      rw [hdl.rxDue hlt, decide_eq_false_iff_not]
      omega
    have hnext : SilentTicks (List.replicate e line) (s.later 1) (s.later (e + 1)) := by
      rw [Nat.add_comm, ← later_later]
      refine ih hf ⟨h.enabled, h.frame, h.high⟩ (hd.imp_right ?_)
      rintro ⟨d, hle, hlt, hdl⟩
      exact ⟨d - 1, by omega, by omega, hdl.later (by omega)⟩
    rw [List.replicate_succ]
    refine .cons ?_ ?_ <;> rw [htick]
    · exact hf
    · exact hnext

/-! ### The poll of each state -/

/-- A cycle in any state but VerifyFinalStop polls (42_receiver.md R116). -/
theorem rxTick_eq_rxPoll {line : Bool} {s : State} (h : s.rx.st ≠ .verifyFinalStop) :
    rxTick line s = (rxPoll line s).later 1 :=
  rxTick_of_not_accepted (by simp [frameAccepted, h])

/-- A LOW line in frame-idle Idle starts a frame (42_receiver.md R118). -/
theorem rxPoll_frameIdle {s : State} (hen : s.host.rxEn = true) (hst : s.rx.st = .idle) (hidx : s.rx.idx = 0#7) :
    rxPoll false s = rxFrameIdle false s := by
  simp [rxPoll, hen, hst, hidx]

/-- A LOW line between bytes starts the next byte (42_receiver.md R119). -/
theorem rxPoll_byteIdle {s : State} (hen : s.host.rxEn = true) (hst : s.rx.st = .idle) (hidx : s.rx.idx ≠ 0#7) :
    rxPoll false s = { s with rx := { s.rx with
      bit := 0#4, byte := 0#8, dl := firstSample s.now s.rx.h s.rx.p, st := .receivingBits } } := by
  simp [rxPoll, rxByteIdle, hen, hst, hidx]

/-- A due data bit is sampled (42_receiver.md R120). -/
theorem rxPoll_bit {line : Bool} {s : State} (hen : s.host.rxEn = true) (hst : s.rx.st = .receivingBits)
    (hdue : s.rxDue = true) : rxPoll line s = { s with rx := { s.rx with
      byte := setSample s.rx.byte s.rx.bit.toNat line
      bit := s.rx.bit + 1#4
      dl := s.now + s.rx.p.setWidth 32
      st := if s.rx.bit + 1#4 = 8#4 then .verifyStop1 else .receivingBits } } := by
  simp [rxPoll, rxReceivingBits, hen, hst, hdue]

/-- A due stop 1 that is HIGH (42_receiver.md R121). -/
theorem rxPoll_stop1 {s : State} (hen : s.host.rxEn = true) (hst : s.rx.st = .verifyStop1) (hdue : s.rxDue = true) :
    rxPoll true s = { s with rx := { s.rx with dl := s.now + s.rx.p.setWidth 32, st := .verifyStop2 } } := by
  simp [rxPoll, rxVerifyStop1, hen, hst, hdue]

/-- A due stop 2 that is HIGH commits the byte (42_receiver.md R122). -/
theorem rxPoll_stop2 {s : State} (hen : s.host.rxEn = true) (hst : s.rx.st = .verifyStop2) (hdue : s.rxDue = true) :
    rxPoll true s = commitByte s := by
  simp [rxPoll, rxVerifyStop2, hen, hst, hdue]

/-- The due frame parity bit is sampled (42_receiver.md R124). -/
theorem rxPoll_parity {line : Bool} {s : State} (hen : s.host.rxEn = true) (hst : s.rx.st = .verifyFrameParity)
    (hdue : s.rxDue = true) : rxPoll line s = { s with rx := { s.rx with
      pbit := line, dl := s.now + s.rx.p.setWidth 32, st := .verifyFinalStop } } := by
  simp [rxPoll, rxVerifyFrameParity, hen, hst, hdue]

end Sys2Proof.Machine
end

section
/-! The reception of a wire frame, slot by slot: each slot of the line takes the receiver from one state of the frame to the
next (42_receiver.md R118-R126). -/

namespace Sys2Proof.Machine

/-! ### The receiver in a frame -/

/-- A frame on the line, and the registers of an enabled receiver that it finds (40_codec.md R94). -/
structure Reception where
  host : HostRegs
  hold : Hold
  cmd : BitVec 4
  len : BitVec 7
  payload : List Byte
  enabled : host.rxEn = true
  payload_length : payload.length = len.toNat
  len_le : len.toNat ≤ 63

namespace Reception

/-- The bytes on the line. -/
def wire (c : Reception) : List Byte := wireFrame c.cmd c.len c.payload

/-- The bit period of the receiver, and of the slots on the line, in cycles (10_state.md R33). -/
def period (c : Reception) : Nat := (effectivePeriod c.host.bitPer).toNat

/-- Half a bit period (10_state.md R50). -/
def half (c : Reception) : Nat := c.period / 2

@[simp] theorem wire_length (c : Reception) : c.wire.length = c.len.toNat + 4 := by
  rw [wire, wireFrame_length, c.payload_length]

theorem two_le_period (c : Reception) : 2 ≤ c.period := two_le_effectivePeriod _

theorem period_lt (c : Reception) : c.period < 2 ^ 24 := (effectivePeriod c.host.bitPer).isLt

theorem half_lt (c : Reception) : c.half < c.period := by
  have := c.two_le_period
  unfold half
  omega

/-- Header byte 1 of the frame gives its length (30_encoding.md R78). -/
theorem headerLength_wire (c : Reception) : headerLength (c.wire.getD 1 unlistedByte) = c.len :=
  headerLength_packLength c.len

end Reception

/-- The receiver has stored the first `i` bytes of the frame; the host's registers and the held frame are as before it. -/
structure InFrame (c : Reception) (i : Nat) (s : State) : Prop where
  mem : memWf s.mem
  legal : RxFrameLegal s
  fresh : Fresh s
  host : s.host = c.host
  hold : s.hold = c.hold
  period : s.rx.p = effectivePeriod c.host.bitPer
  idx : s.rx.idx.toNat = i
  bytes : ∀ k, k < i → s.bufByte .rxWire k = c.wire.getD k unlistedByte

/-- What `InFrame` does not depend on: NOW, the state, the deadline, the byte being received and the parity sample. -/
theorem InFrame.congr {c : Reception} {i : Nat} {s : State} (h : InFrame c i s) (now dl : Time) (st : RxPhase)
    (bit : BitVec 4) (byte : Byte) (pbit : Bool) :
    InFrame c i { s with now := now, rx := { s.rx with dl := dl, st := st, bit := bit, byte := byte, pbit := pbit } } :=
  ⟨h.mem, h.legal.congr rfl rfl rfl rfl rfl rfl, h.fresh, h.host, h.hold, h.period, h.idx, h.bytes⟩

/-- From the second byte on RX_LEN is the length of the frame (40_codec.md R96). -/
theorem InFrame.len {c : Reception} {i : Nat} {s : State} (h : InFrame c i s) (hi : 2 ≤ i) : s.rx.len = c.len := by
  obtain ⟨-, hlen⟩ := h.legal.len_ok (by rwa [h.idx])
  rw [hlen, h.bytes 1 (by omega), c.headerLength_wire]

/-- The receiver in a frame, in this state, its deadline `d` cycles ahead. -/
structure InState (c : Reception) (i : Nat) (st : RxPhase) (d : Nat) (s : State) : Prop extends InFrame c i s where
  state : s.rx.st = st
  deadline : DeadlineIn s d

section

variable {c : Reception} {i : Nat} {st : RxPhase} {d : Nat} {s : State} (h : InState c i st d s)
include h

theorem InState.later {e : Nat} (he : e ≤ d) : InState c i st (d - e) (s.later e) :=
  ⟨h.toInFrame.congr _ s.rx.dl s.rx.st s.rx.bit s.rx.byte s.rx.pbit, h.state, h.deadline.later he⟩

theorem InState.enabled : s.host.rxEn = true := by rw [h.host, c.enabled]

theorem InState.waitsAt {line : Bool} (hrec : st ≠ .recovery) (hline : st = .idle → line = true) : WaitsAt line s :=
  ⟨h.enabled, by rw [h.state]; exact hrec, by rw [h.state]; exact hline⟩

/-- Before its deadline the receiver waits. -/
theorem InState.silentTicks_wait {line : Bool} {e : Nat} (hrec : st ≠ .recovery) (hline : st = .idle → line = true)
    (he : e ≤ d) (hd : d < 2 ^ 31) : SilentTicks (List.replicate e line) s (s.later e) :=
  Machine.silentTicks_wait h.fresh (h.waitsAt hrec hline) (.inr ⟨d, he, hd, h.deadline⟩)

end

/-- A deadline one period after a sample (42_receiver.md R120-R124). -/
theorem InFrame.deadline_period {c : Reception} {i : Nat} {s : State} (h : InFrame c i s) (now : Time) :
    now + s.rx.p.setWidth 32 = now + BitVec.ofNat 32 c.period := by
  rw [h.period, Reception.period, BitVec.ofNat_toNat]

/-- The deadline of the first sample after a start edge (42_receiver.md R118, R119). -/
theorem firstSample_eq (now : Time) (c : Reception) :
    firstSample now (halfPeriod (effectivePeriod c.host.bitPer)) (effectivePeriod c.host.bitPer)
      = now + BitVec.ofNat 32 (c.period + c.half) := by
  have hhalf : (halfPeriod (effectivePeriod c.host.bitPer)).setWidth 32 = BitVec.ofNat 32 c.half := by
    rw [← BitVec.ofNat_toNat, halfPeriod_toNat]
    rfl
  rw [firstSample, hhalf, ← BitVec.ofNat_toNat, BitVec.add_assoc, ← BitVec.ofNat_add, Nat.add_comm]
  rfl

/-! ### Slots -/

/-- The slots `l` of the line, each held for a period, silently take every receiver with `P` to one with `Q`. -/
def Carries (c : Reception) (l : List Bool) (P Q : State → Prop) : Prop :=
  ∀ s, P s → ∃ t, SilentTicks (l.flatMap (List.replicate c.period)) s t ∧ Q t

theorem Carries.append {c : Reception} {l l' : List Bool} {P Q R : State → Prop} (h : Carries c l P Q)
    (h' : Carries c l' Q R) : Carries c (l ++ l') P R := by
  intro s hs
  obtain ⟨t, ht, hQ⟩ := h s hs
  obtain ⟨u, hu, hR⟩ := h' t hQ
  rw [List.flatMap_append]
  exact ⟨u, ht.append hu, hR⟩

/-- A slot with one event, `e` cycles after its start: the receiver waits before it and after it. -/
theorem slot_with_event {c : Reception} {i d e : Nat} {st : RxPhase} {line : Bool} {s u : State}
    (before : SilentTicks (List.replicate e line) s (s.later e)) (event : rxTick line (s.later e) = u.later 1)
    (h : InState c i st d u) (he : e < c.period) (hd : c.period - e ≤ d) (hd' : d < 2 ^ 31) (hrec : st ≠ .recovery)
    (hline : st = .idle → line = true) :
    SilentTicks (List.replicate c.period line) s (u.later (c.period - e)) ∧
      InState c i st (d - (c.period - e)) (u.later (c.period - e)) := by
  have hnext := h.later (e := 1) (by omega)
  have after := hnext.silentTicks_wait (line := line) (e := c.period - e - 1) hrec hline (by omega) (by omega)
  rw [later_later, show 1 + (c.period - e - 1) = c.period - e by omega] at after
  have hlevels : List.replicate c.period line
      = List.replicate e line ++ line :: List.replicate (c.period - e - 1) line := by
    rw [← List.replicate_succ, List.replicate_append_replicate]
    congr 1
    omega
  refine ⟨?_, h.later hd⟩
  rw [hlevels]
  refine before.append (.cons ?_ ?_) <;> rw [event]
  · exact hnext.fresh
  · exact after

/-- A slot whose sample is taken at its half: the poll of that cycle gives the state of the next slot. -/
theorem InState.sampled_slot {c : Reception} {i i' d : Nat} {st st' : RxPhase} {line : Bool} {s : State}
    (h : InState c i st c.half s) (hst : st ≠ .recovery ∧ st ≠ .idle ∧ st ≠ .verifyFinalStop)
    (hpoll : InState c i' st' d (rxPoll line (s.later c.half))) (hd : c.period ≤ d) (hd' : d ≤ 2 * c.period)
    (hst' : st' ≠ .recovery) (hline : st' = .idle → line = true) :
    ∃ t, SilentTicks (List.replicate c.period line) s t ∧ InState c i' st' (d - c.period + c.half) t ∧
      t.rx = (rxPoll line (s.later c.half)).rx := by
  obtain ⟨hrec, hidle, hfinal⟩ := hst
  have hlt := c.half_lt
  have hp := c.period_lt
  have hwait := h.silentTicks_wait (line := line) hrec (fun e => absurd e hidle) le_rfl (by omega)
  have htick : rxTick line (s.later c.half) = (rxPoll line (s.later c.half)).later 1 :=
    rxTick_eq_rxPoll (by rw [show (s.later c.half).rx.st = st from h.state]; exact hfinal)
  obtain ⟨hrun, hnext⟩ := slot_with_event hwait htick hpoll hlt (by omega) (by omega) hst' hline
  rw [show d - (c.period - c.half) = d - c.period + c.half by omega] at hnext
  exact ⟨_, hrun, hnext, rfl⟩

/-- A sample is due at the half of its slot. -/
theorem InState.due_at_half {c : Reception} {i : Nat} {st : RxPhase} {s : State} (h : InState c i st c.half s) :
    InState c i st 0 (s.later c.half) ∧ (s.later c.half).rxDue = true := by
  have hnow := h.later (e := c.half) le_rfl
  rw [Nat.sub_self] at hnow
  exact ⟨hnow, hnow.deadline.rxDue (by omega)⟩

/-! ### The slots of a byte -/

/-- The receiver is about to sample bit `k` of byte `i`, which is `b`, or its stop 1 after bit 7. -/
structure AtBit (c : Reception) (i : Nat) (b : Byte) (k : Nat) (s : State) : Prop where
  inState : InState c i (if k < 8 then .receivingBits else .verifyStop1) c.half s
  bit : s.rx.bit.toNat = k
  sampled : ∀ j, j < k → s.rx.byte.getLsbD j = b.getLsbD j

/-- A data slot gives the byte its bit (42_receiver.md R120). -/
theorem carries_bit (c : Reception) (i : Nat) (b : Byte) {k : Nat} (hk : k < 8) :
    Carries c [b.getLsbD k] (AtBit c i b k) (AtBit c i b (k + 1)) := by
  rintro s ⟨hs, hbit, hsampled⟩
  rw [if_pos hk] at hs
  obtain ⟨hnow, hdue⟩ := hs.due_at_half
  have hpoll := rxPoll_bit (line := b.getLsbD k) hnow.enabled hnow.state hdue
  have hlast : s.rx.bit + 1#4 = 8#4 ↔ ¬ k + 1 < 8 := by bv_omega
  have hnext : InState c i (if k + 1 < 8 then .receivingBits else .verifyStop1) c.period
      (rxPoll (b.getLsbD k) (s.later c.half)) := by
    rw [hpoll]
    refine ⟨hnow.toInFrame.congr _ _ _ _ _ s.rx.pbit, ?_, hnow.deadline_period _⟩
    change (if s.rx.bit + 1#4 = 8#4 then RxPhase.verifyStop1 else .receivingBits) = _
    simp only [hlast, ite_not]
  obtain ⟨t, hrun, ht, hrx⟩ := hs.sampled_slot (by decide) hnext le_rfl (by omega) (by split <;> decide)
    (by split <;> simp)
  rw [Nat.sub_self, Nat.zero_add] at ht
  refine ⟨t, by simpa using hrun, ht, ?_, fun j hj => ?_⟩ <;> rw [hrx, hpoll]
  · change (s.rx.bit + 1#4).toNat = k + 1
    bv_omega
  · change (setSample s.rx.byte s.rx.bit.toNat (b.getLsbD k)).getLsbD j = _
    rw [hbit, setSample_getLsbD _ hk _ (by omega)]
    split
    · next e => rw [e]
    · exact hsampled j (by omega)

/-- The data slots give the byte its bits, LSB first (30_encoding.md R81). -/
theorem carries_bits (c : Reception) (i : Nat) (b : Byte) {k : Nat} (hk : k ≤ 8) :
    Carries c ((List.range k).map b.getLsbD) (AtBit c i b 0) (AtBit c i b k) := by
  induction k with
  | zero => exact fun s hs => ⟨s, .nil s, hs⟩
  | succ k ih =>
    rw [List.range_succ, List.map_append]
    exact (ih (by omega)).append (carries_bit c i b hk)

/-- The receiver is about to sample stop 2 of byte `i`, which is `b`. -/
structure AtStop2 (c : Reception) (i : Nat) (b : Byte) (s : State) : Prop where
  inState : InState c i .verifyStop2 c.half s
  byte : s.rx.byte = b

/-- The stop 1 slot (42_receiver.md R121). -/
theorem carries_stop1 (c : Reception) (i : Nat) (b : Byte) : Carries c [true] (AtBit c i b 8) (AtStop2 c i b) := by
  rintro s ⟨hs, -, hsampled⟩
  obtain ⟨hnow, hdue⟩ := hs.due_at_half
  have hpoll := rxPoll_stop1 hnow.enabled hnow.state hdue
  have hnext : InState c i .verifyStop2 c.period (rxPoll true (s.later c.half)) := by
    rw [hpoll]
    exact ⟨hnow.toInFrame.congr _ _ _ s.rx.bit s.rx.byte s.rx.pbit, rfl, hnow.deadline_period _⟩
  obtain ⟨t, hrun, ht, hrx⟩ := hs.sampled_slot (by decide) hnext le_rfl (by omega) (by decide) (by simp)
  rw [Nat.sub_self, Nat.zero_add] at ht
  refine ⟨t, by simpa using hrun, ht, ?_⟩
  rw [hrx, hpoll]
  exact BitVec.eq_of_getLsbD_eq fun j hj => hsampled j hj

end Sys2Proof.Machine
end

section
/-! The reception of a wire frame as a whole: its bytes by induction, the parity slot, the poll that accepts it, and the run
of the machine with these slots on `rxd` (40_codec.md R99; 42_receiver.md R118-R126). -/

namespace Sys2Proof.Machine

/-! ### The byte commit -/

section

variable {c : Reception} {i : Nat} {s : State} (h : InState c i .verifyStop2 0 s) (hi : i < c.len.toNat + 4)
include h hi

/-- A receiver that samples stop 2 of a byte of the frame is legal. -/
theorem InState.rxLegal_stop2 : RxLegal s := by
  have hp := h.legal.p_ge
  refine (rxLegal_iff s).2 ⟨⟨?_, ?_, ?_, fun _ => ?_⟩, fun _ => ⟨h.legal, ?_, fun _ => ?_⟩⟩
  · simp [h.state]
  · simp [h.state]
  · simp [h.state]
  · by_cases h2 : 2 ≤ i
    · rw [h.idx, h.len h2]
      exact .inr hi
    · rw [h.idx]
      omega
  · simp [h.state]
  · have hnow : s.rx.dl - s.now = 0#32 := by rw [h.deadline.eq_now, BitVec.sub_self]
    rw [hnow]
    exact Nat.add_pos_right _ (by omega)

/-- The commit of a byte of the frame stores it and goes on, with the frame's length from byte 1 on (42_receiver.md R123;
40_codec.md R96). -/
theorem InState.commitByte_eq (hbyte : s.rx.byte = c.wire.getD i unlistedByte) : ∃ len, (1 ≤ i → len = c.len) ∧
    commitByte s = commitNext { commitStore s with rx := { (commitStore s).rx with len := len } } := by
  have hlen := c.len_le
  have hhead : i = 1 → headerLength s.rx.byte = c.len := by
    rintro rfl
    rw [hbyte, c.headerLength_wire]
  rcases commitByte_cases h.mem with ⟨h1, hlong, -⟩ | ⟨h1, -, e⟩ | ⟨h1, e⟩ <;> rw [h.idx] at h1
  · rw [hhead h1] at hlong
    omega
  · exact ⟨_, fun _ => hhead h1, e⟩
  · exact ⟨s.rx.len, fun h0 => h.len (by omega), e⟩

/-- After the commit of byte `i` the receiver waits for the next byte, or for the parity slot after the last
(42_receiver.md R123). -/
theorem InState.commitByte_rx (hbyte : s.rx.byte = c.wire.getD i unlistedByte) : ∃ len,
    commitByte s = { commitStore s with rx := { (commitStore s).rx with
      len := len
      dl := s.now + BitVec.ofNat 32 (if i + 1 = c.len.toNat + 4 then c.period else 2 * c.period)
      st := if i + 1 = c.len.toNat + 4 then .verifyFrameParity else .idle } } := by
  have hlen := c.len_le
  have hidx := h.idx
  obtain ⟨len, hfield, e⟩ := h.commitByte_eq hi hbyte
  refine ⟨len, ?_⟩
  have hnext : (s.rx.idx + 1#7).toNat = i + 1 := by bv_omega
  have hp : s.rx.p.toNat = c.period := congrArg BitVec.toNat h.period
  rw [e]
  by_cases hlast : i + 1 = c.len.toNat + 4
  · rw [commitNext_last, if_pos hlast, if_pos hlast, ← h.deadline_period]
    · rfl
    · change 3 ≤ (s.rx.idx + 1#7).toNat ∧ (s.rx.idx + 1#7).toNat = len.toNat + 4
      rw [hnext, hfield (by omega)]
      omega
  · rw [commitNext_more, if_neg hlast, if_neg hlast, ← hp]
    · rfl
    · change ¬ (3 ≤ (s.rx.idx + 1#7).toNat ∧ (s.rx.idx + 1#7).toNat = len.toNat + 4)
      rw [hnext]
      rintro ⟨h3, h4⟩
      rw [hfield (by omega)] at h4
      exact hlast h4

/-- The byte commit takes the receiver one byte on in the frame (42_receiver.md R123). -/
theorem InState.after_commit (hbyte : s.rx.byte = c.wire.getD i unlistedByte) :
    InState c (i + 1) (if i + 1 = c.len.toNat + 4 then .verifyFrameParity else .idle)
      (if i + 1 = c.len.toNat + 4 then c.period else 2 * c.period) (commitByte s) := by
  have hlen := c.len_le
  have hidx := h.idx
  obtain ⟨len, e⟩ := h.commitByte_rx hi hbyte
  have hnext : (commitByte s).rx.idx.toNat = i + 1 := by
    rw [e]
    change (s.rx.idx + 1#7).toNat = i + 1
    bv_omega
  have hst : (commitByte s).rx.st = if i + 1 = c.len.toNat + 4 then .verifyFrameParity else .idle := by rw [e]
  have hflight : InFlight (commitByte s) := by
    have hne : (commitByte s).rx.idx ≠ 0#7 := fun h0 => by simp [h0] at hnext
    unfold InFlight State.rxActive
    rw [hst]
    by_cases hlast : i + 1 = c.len.toNat + 4
    · rw [if_pos hlast]
    · rw [if_neg hlast]
      exact bne_iff_ne.2 hne
  obtain ⟨-, hready⟩ := (h.rxLegal_stop2 hi).ready_commitByte h.mem h.state
  refine ⟨⟨?_, (hready hflight).1, ?_, ?_, ?_, ?_, hnext, fun k hk => ?_⟩, hst, ?_⟩
  · rw [commitByte_mem]
    exact memWf_setBufByte h.mem _ _ _
  · rw [e]
    exact h.fresh
  · rw [e]
    exact h.host
  · rw [e]
    exact h.hold
  · rw [e]
    exact h.period
  · rw [bufByte_eq_of_mem (commitByte_mem s), bufByte_commitStore h.mem (by omega), h.idx]
    split
    · next hk => rw [hk, hbyte]
    · exact h.bytes k (by omega)
  · rw [e]
    rfl

end

/-! ### The bytes of the frame -/

/-- A frame-idle receiver before the frame. -/
structure BeforeFrame (c : Reception) (s : State) : Prop where
  mem : memWf s.mem
  fresh : Fresh s
  host : s.host = c.host
  hold : s.hold = c.hold
  state : s.rx.st = .idle
  idx : s.rx.idx = 0#7

theorem BeforeFrame.later {c : Reception} {s : State} (h : BeforeFrame c s) (d : Nat) : BeforeFrame c (s.later d) :=
  ⟨h.mem, h.fresh, h.host, h.hold, h.state, h.idx⟩

/-- While the line is HIGH a frame-idle receiver waits (42_receiver.md R118). -/
theorem BeforeFrame.silentTicks_wait {c : Reception} {s : State} (h : BeforeFrame c s) (d : Nat) :
    SilentTicks (List.replicate d true) s (s.later d) :=
  Machine.silentTicks_wait h.fresh ⟨by rw [h.host, c.enabled], by simp [h.state], fun _ => rfl⟩ (.inl ⟨h.state, h.idx⟩)

/-- The receiver at the start of slot 0 of byte `i`, or of the parity slot after the last byte. -/
inductive AtByte (c : Reception) (i : Nat) (s : State) : Prop where
  | first (hi : i = 0) (h : BeforeFrame c s)
  | next (h0 : 0 < i) (hi : i < c.len.toNat + 4) (h : InState c i .idle (c.period + c.half) s)
  | parity (hi : i = c.len.toNat + 4) (h : InState c i .verifyFrameParity c.half s)

/-- The start edge of the frame begins its byte 0 (42_receiver.md R118). -/
theorem BeforeFrame.start_edge {c : Reception} {s : State} (h : BeforeFrame c s) :
    InState c 0 .receivingBits (c.period + c.half) (rxPoll false s) ∧ (rxPoll false s).rx.bit = 0#4 := by
  have hready := rxReady_rxFrameIdle h.idx
  rw [rxPoll_frameIdle (by rw [h.host, c.enabled]) h.state h.idx, rxFrameIdle_low, h.host]
  rw [rxFrameIdle_low, h.host] at hready
  have hmem := memWf_fillBuf h.mem .rxWire []
  generalize (s.fillBuf .rxWire []).mem = cleared at hready hmem ⊢
  obtain ⟨hlegal, -⟩ := hready.2 rfl
  refine ⟨⟨⟨hmem, hlegal, h.fresh, rfl, h.hold, rfl, ?_, fun k hk => by omega⟩, rfl,
    firstSample_eq _ c⟩, rfl⟩
  simp [h.idx]

/-- The start edge of a later byte begins it (42_receiver.md R119). -/
theorem InState.start_edge {c : Reception} {i d : Nat} {s : State} (h : InState c i .idle d s) (h0 : 0 < i) :
    InState c i .receivingBits (c.period + c.half) (rxPoll false s) ∧ (rxPoll false s).rx.bit = 0#4 := by
  have hidx : s.rx.idx ≠ 0#7 := fun e => h0.ne (by rw [← h.idx, e]; rfl)
  rw [rxPoll_byteIdle h.enabled h.state hidx]
  refine ⟨⟨h.toInFrame.congr _ _ _ _ _ s.rx.pbit, rfl, ?_⟩, rfl⟩
  change firstSample s.now s.rx.h s.rx.p = _
  rw [h.legal.h_eq, h.period]
  exact firstSample_eq _ c

/-- The start slot of a byte (30_encoding.md R81; 42_receiver.md R118, R119). -/
theorem carries_start (c : Reception) {i : Nat} (hi : i < c.len.toNat + 4) (b : Byte) :
    Carries c [false] (AtByte c i) (AtBit c i b 0) := by
  intro s hs
  have hp := c.two_le_period
  have hp' := c.period_lt
  have hlt := c.half_lt
  obtain ⟨hst, hedge, hbit⟩ : s.rx.st = .idle ∧ InState c i .receivingBits (c.period + c.half) (rxPoll false s) ∧
      (rxPoll false s).rx.bit = 0#4 := by
    cases hs with
    | first h0 h => exact ⟨h.state, h0 ▸ h.start_edge⟩
    | next h0 _ h => exact ⟨h.state, h.start_edge h0⟩
    | parity hn _ => omega
  have hwait : SilentTicks (List.replicate 0 false) s (s.later 0) := by
    rw [later_zero]
    exact .nil s
  have htick : rxTick false (s.later 0) = (rxPoll false s).later 1 := by
    rw [later_zero]
    exact rxTick_eq_rxPoll (by simp [hst])
  obtain ⟨hrun, hnext⟩ := slot_with_event hwait htick hedge (by omega) (by omega) (by omega) (by decide) (by simp)
  rw [show c.period + c.half - (c.period - 0) = c.half by omega] at hnext
  exact ⟨_, by simpa using hrun, hnext, congrArg BitVec.toNat hbit, fun j hj => by omega⟩

/-- The stop 2 slot of a byte of the frame (42_receiver.md R122, R123). -/
theorem carries_stop2 (c : Reception) {i : Nat} (hi : i < c.len.toNat + 4) :
    Carries c [true] (AtStop2 c i (c.wire.getD i unlistedByte)) (AtByte c (i + 1)) := by
  rintro s ⟨hs, hbyte⟩
  obtain ⟨hnow, hdue⟩ := hs.due_at_half
  have hnext := hnow.after_commit hi hbyte
  rw [← rxPoll_stop2 hnow.enabled hnow.state hdue] at hnext
  obtain ⟨t, hrun, ht, -⟩ := hs.sampled_slot (by decide) hnext (by split <;> omega) (by split <;> omega)
    (by split <;> decide) (fun _ => rfl)
  refine ⟨t, by simpa using hrun, ?_⟩
  by_cases hlast : i + 1 = c.len.toNat + 4
  · rw [if_pos hlast, if_pos hlast, Nat.sub_self, Nat.zero_add] at ht
    exact .parity hlast ht
  · rw [if_neg hlast, if_neg hlast, show 2 * c.period - c.period + c.half = c.period + c.half by omega] at ht
    exact .next (by omega) (by omega) ht

/-- The eleven slots of a byte: start, data, two stops (30_encoding.md R81). -/
theorem byteSlots_eq (b : Byte) : byteSlots b = [false] ++ (List.range 8).map b.getLsbD ++ [true] ++ [true] := rfl

/-- The slots of a byte of the frame take the receiver to the next one (42_receiver.md R118-R123). -/
theorem carries_byte (c : Reception) {i : Nat} (hi : i < c.len.toNat + 4) :
    Carries c (byteSlots (c.wire.getD i unlistedByte)) (AtByte c i) (AtByte c (i + 1)) := by
  rw [byteSlots_eq]
  exact (((carries_start c hi _).append (carries_bits c i _ le_rfl)).append (carries_stop1 c i _)).append
    (carries_stop2 c hi)

theorem bytesSlots_append (xs ys : List Byte) : bytesSlots (xs ++ ys) = bytesSlots xs ++ bytesSlots ys := by
  induction xs with
  | nil => rfl
  | cons x xs ih => rw [List.cons_append, bytesSlots, bytesSlots, ih, List.append_assoc]

/-- The slots of the first bytes of the frame take the receiver past them. -/
theorem carries_bytes (c : Reception) {i : Nat} (hi : i ≤ c.len.toNat + 4) :
    Carries c (bytesSlots (c.wire.take i)) (AtByte c 0) (AtByte c i) := by
  induction i with
  | zero => exact fun s hs => ⟨s, .nil s, hs⟩
  | succ i ih =>
    have hlt : i < c.wire.length := by rw [c.wire_length]; omega
    rw [List.take_succ_eq_append_getElem hlt, ← List.getD_eq_getElem _ unlistedByte hlt, bytesSlots_append]
    refine (ih (by omega)).append ?_
    rw [bytesSlots, bytesSlots, List.append_nil]
    exact carries_byte c hi

/-! ### The parity slot and the guard -/

/-- The frame parity bit (30_encoding.md R82). -/
def Reception.parityBit (c : Reception) : Bool := decide (bitWeight c.wire % 2 = 1)

/-- The receiver has the whole frame and its parity bit, and is about to sample the guard. -/
structure AtGuard (c : Reception) (s : State) : Prop where
  inState : InState c (c.len.toNat + 4) .verifyFinalStop c.half s
  pbit : s.rx.pbit = c.parityBit

/-- The parity slot (42_receiver.md R124). -/
theorem carries_parity (c : Reception) : Carries c [c.parityBit] (AtByte c (c.len.toNat + 4)) (AtGuard c) := by
  intro s h
  have hs : InState c (c.len.toNat + 4) .verifyFrameParity c.half s := by
    cases h with
    | first h0 _ => omega
    | next _ hn _ => omega
    | parity _ h => exact h
  obtain ⟨hnow, hdue⟩ := hs.due_at_half
  have hpoll := rxPoll_parity (line := c.parityBit) hnow.enabled hnow.state hdue
  have hnext : InState c (c.len.toNat + 4) .verifyFinalStop c.period (rxPoll c.parityBit (s.later c.half)) := by
    rw [hpoll]
    exact ⟨hnow.toInFrame.congr _ _ _ s.rx.bit s.rx.byte _, rfl, hnow.deadline_period _⟩
  obtain ⟨t, hrun, ht, hrx⟩ := hs.sampled_slot (by decide) hnext le_rfl (by omega) (by decide) (by simp)
  rw [Nat.sub_self, Nat.zero_add] at ht
  refine ⟨t, by simpa using hrun, ht, ?_⟩
  rw [hrx, hpoll]

/-- RXWIRE holds the whole frame after its last byte (42_receiver.md R123). -/
theorem InFrame.take_wire {c : Reception} {s : State} (h : InFrame c (c.len.toNat + 4) s) :
    (s.bufBytes .rxWire).take (c.len.toNat + 4) = c.wire := by
  have hlen := c.len_le
  refine List.ext_getElem ?_ fun k h1 h2 => ?_
  · rw [List.length_take, bufBytes_length, c.wire_length, Buffer.size]
    omega
  · rw [c.wire_length] at h2
    have hk := h.bytes k h2
    rw [← bufBytes_getD, List.getD_eq_getElem _ _ (by rw [bufBytes_length, Buffer.size]; omega),
      List.getD_eq_getElem _ _ (by rwa [c.wire_length])] at hk
    rw [List.getElem_take]
    exact hk

/-- After its last byte the receiver holds the frame. -/
theorem InFrame.holdsFrame {c : Reception} {s : State} (h : InFrame c (c.len.toNat + 4) s) :
    HoldsFrame s c.cmd c.len c.payload :=
  ⟨c.payload_length, c.len_le, h.take_wire, h.len (by omega)⟩

/-- A HIGH guard with the right parity accepts the frame (42_receiver.md R125, R127). -/
theorem frameAccepted_of_guard {c : Reception} {s : State} (h : InState c (c.len.toNat + 4) .verifyFinalStop 0 s)
    (hpbit : s.rx.pbit = c.parityBit) : frameAccepted true s = true := by
  have hdue : s.rxDue = true := h.deadline.rxDue (by omega)
  have hones : s.rx.ones.toNat = bitWeight c.wire := by rw [h.legal.ones_eq, h.idx, h.take_wire]
  have hparity : s.rx.ones[0] = c.parityBit := by
    rw [Reception.parityBit, ← hones, BitVec.getElem_eq_testBit_toNat, Nat.testBit_zero]
  simp [frameAccepted, State.parityOk, h.enabled, h.state, hdue, hpbit, hparity]

/-- Before the last cycle of the frame the receiver has been silent, and that cycle delivers it (42_receiver.md R126). -/
theorem frame_received {c : Reception} {s : State} (h : BeforeFrame c s) : ∃ t,
    SilentTicks ((bytesSlots c.wire ++ [c.parityBit]).flatMap (List.replicate c.period) ++ List.replicate c.half true)
      s t ∧
    HoldsFrame t c.cmd c.len c.payload ∧ memWf t.mem ∧ t.host = c.host ∧ t.hold = c.hold ∧ t.emitted = [] ∧
    rxTick true t = (deliverFrame c.cmd t).later 1 := by
  have hbytes := carries_bytes c (i := c.len.toNat + 4) le_rfl
  rw [List.take_of_length_le (by simp)] at hbytes
  obtain ⟨u, hrun, hu, hpbit⟩ := (hbytes.append (carries_parity c)) s (.first rfl h)
  obtain ⟨hnow, -⟩ := hu.due_at_half
  have hhalf := c.half_lt
  have hp := c.period_lt
  have hwait := hu.silentTicks_wait (line := true) (by decide) (fun _ => rfl) le_rfl (by omega)
  refine ⟨u.later c.half, hrun.append hwait, hnow.holdsFrame, hnow.mem, hnow.host, hnow.hold, hnow.fresh.1, ?_⟩
  rw [rxTick_of_accepted (frameAccepted_of_guard hnow hpbit), hnow.holdsFrame.headerCommand]

/-! ### The frame on `rxd` -/

/-- The levels of the frame before its guard slot. -/
def Reception.levels (c : Reception) : List Bool :=
  (bytesSlots c.wire ++ [c.parityBit]).flatMap (List.replicate c.period)

/-- The last slot of the frame is its guard (30_encoding.md R82). -/
theorem Reception.frameLevels_eq (c : Reception) :
    frameLevels c.wire c.period = c.levels ++ List.replicate c.period true := by
  rw [frameLevels, frameSlots, List.append_cons, List.flatMap_append]
  simp [Reception.levels, Reception.parityBit]

/-- The levels before the guard slot take 11 N + 1 slots (30_encoding.md R82). -/
theorem Reception.levels_length (c : Reception) : c.levels.length = (11 * (c.len.toNat + 4) + 1) * c.period := by
  have h := frameLevels_length c.wire c.period
  rw [c.frameLevels_eq, c.wire_length, List.length_append, List.length_replicate] at h
  linarith

/-- A machine with its chain HIGH and the frame on `rxd` sees SYNC_STAGES cycles of HIGH, and then the frame up to the
sample of its guard (10_state.md R47; 42_receiver.md R126). -/
theorem Reception.onLine (c : Reception) {s : State} {rest : List CycleInput} (hsync : s.syncLow = [])
    (hin : s.inputs
      = lineInputs (frameLevels c.wire c.period ++ List.replicate Config.syncStages true) ++ rest) :
    OnLine s ((List.replicate Config.syncStages true ++ (c.levels ++ List.replicate c.half true)) ++ [true])
      (clearEvents { s with emitted := [] }) := by
  have hlt := c.half_lt
  have hguard : List.replicate c.period true
      = List.replicate c.half true ++ [true] ++ List.replicate (c.period - c.half - 1) true := by
    rw [show ([true] : List Bool) = List.replicate 1 true from rfl, List.replicate_append_replicate,
      List.replicate_append_replicate]
    congr 1
    omega
  refine ⟨by simp [SyncLegal, hsync], rfl, _, rest, hin, ?_, ?_⟩
  · rw [c.frameLevels_eq]
    simp only [List.length_append, List.length_replicate, List.length_singleton]
    omega
  · rw [stageLevels_of_high hsync, c.frameLevels_eq, hguard]
    simp only [List.append_assoc, List.prefix_append_right_inj]
    exact List.prefix_append _ _

/-- P_eff is the larger of BITPER and 2 (10_state.md R33). -/
theorem effectivePeriod_toNat (q : BitVec 24) : (effectivePeriod q).toNat = max q.toNat 2 := by
  unfold effectivePeriod Config.pMin
  split <;> bv_omega

/-- Settles O53: the machine on the line is the receiver over the levels of the frame. Every slot before the guard is
silent, the guard's sample accepts the frame, and the delivery of a whole wire frame gives what was sent. -/
theorem wellTimedFrameIsDeliveredOnce : Obligations.WellTimedFrameIsDeliveredOnce := by
  intro s cmd len payload rest n p k hm hen hst hidx hsync hpl hlen hn hp hin hk
  let c : Reception := ⟨s.host, s.hold, cmd, len, payload, hen, hpl, hlen⟩
  have hperiod : c.period = p := (effectivePeriod_toNat _).trans hp.symm
  have hidle : BeforeFrame c (clearEvents { s with emitted := [] }) := ⟨hm, ⟨rfl, rfl⟩, rfl, rfl, hst, hidx⟩
  obtain ⟨r, hsilent, hframe, hmem, hhost, hhold, hemitted, haccept⟩ :=
    frame_received (hidle.later Config.syncStages)
  have hrun := (hidle.silentTicks_wait Config.syncStages).append hsilent
  have hlength : (List.replicate Config.syncStages true ++ (c.levels ++ List.replicate c.half true)).length = k := by
    rw [List.length_append, List.length_append, List.length_replicate, List.length_replicate, c.levels_length,
      Reception.half, hperiod, hk, hn]
    ring
  obtain ⟨hquiet, u, hu, huline⟩ := (c.onLine hsync (by rw [hperiod]; exact hin)).run_silent hrun
  rw [hlength] at hquiet hu
  obtain ⟨t, ht, henv, -⟩ := huline.next_cycle
  rw [haccept] at henv
  obtain ⟨hready, hvalid, hcmd, hl⟩ := hframe.deliverFrame_hold
  obtain ⟨hidle', hidx'⟩ := hframe.deliverFrame_idle
  refine ⟨hquiet, t, by rw [run_last, hu]; exact ht, ?_⟩
  rw [henv]
  refine ⟨?_, hready, hvalid, hcmd, hl, fun j hj => hframe.deliverFrame_rxPayload hmem hj, ?_, hidle', hidx'⟩
  · exact hframe.deliverFrame_emitted.trans (by rw [hemitted]; rfl)
  · exact hframe.deliverFrame_host.trans (by rw [hhost, hhold])

end Sys2Proof.Machine
end

section
/-! The transmitter's step and a cycle of a busy transmitter: the slot that follows each phase, and that TX_DONE is all of
a frame in flight that the host can change (41_transmitter.md R104-R111, R115). -/

namespace Sys2Proof.Machine

/-! ### The slot that follows each phase -/

section NextSlot

variable {t : Tx} (b : Byte)

/-- Start to data bit 0 (41_transmitter.md R105). -/
theorem txNextSlot_start (h : t.ph = .start) : txNextSlot b t = { t with
    txd := b[0], ones := t.ones + BitVec.ofNat 10 (b[0]).toNat, bit := 0#3, ph := .data } := by
  rw [txNextSlot, h]
  rfl

/-- Data bit to data bit (41_transmitter.md R106). -/
theorem txNextSlot_bit (h : t.ph = .data) (hbit : t.bit.toNat < 7) : txNextSlot b t = { t with
    txd := b.getLsbD (t.bit.toNat + 1)
    ones := t.ones + BitVec.ofNat 10 (b.getLsbD (t.bit.toNat + 1)).toNat
    bit := t.bit + 1#3 } := by
  have hdata : txNextSlot b t = txFromData b t := by rw [txNextSlot, h]
  exact hdata.trans (if_pos hbit)

/-- Data bit 7 to stop 1 (41_transmitter.md R107). -/
theorem txNextSlot_lastBit (h : t.ph = .data) (hbit : ¬ t.bit.toNat < 7) :
    txNextSlot b t = { t with txd := true, ph := .stop1 } := by
  rw [txNextSlot, h]
  exact if_neg hbit

/-- Stop 1 to stop 2 (41_transmitter.md R108). -/
theorem txNextSlot_stop1 (h : t.ph = .stop1) : txNextSlot b t = { t with txd := true, ph := .stop2 } := by
  rw [txNextSlot, h]
  rfl

/-- Stop 2 to the start bit of the next byte (41_transmitter.md R109). -/
theorem txNextSlot_nextByte (h : t.ph = .stop2) (hlt : t.idx.toNat + 1 < t.n.toNat) :
    txNextSlot b t = { t with idx := t.idx + 1#7, txd := false, ph := .start } := by
  rw [txNextSlot, h]
  exact if_pos hlt

/-- Stop 2 of the last byte to the frame parity bit (41_transmitter.md R109). -/
theorem txNextSlot_lastByte (h : t.ph = .stop2) (hlast : ¬ t.idx.toNat + 1 < t.n.toNat) :
    txNextSlot b t = { t with txd := t.ones[0], ph := .parity } := by
  rw [txNextSlot, h]
  exact if_neg hlast

/-- Parity to guard (41_transmitter.md R110). -/
theorem txNextSlot_parity (h : t.ph = .parity) : txNextSlot b t = { t with txd := true, ph := .guard } := by
  rw [txNextSlot, h]
  rfl

/-- Guard to idle, the frame done (41_transmitter.md R111). -/
theorem txNextSlot_guard (h : t.ph = .guard) :
    txNextSlot b t = { t with txd := true, ph := .txIdle, done := true } := by
  rw [txNextSlot, h]
  rfl

/-- The frame ends after its guard slot alone (41_transmitter.md R111). -/
theorem txNextSlot_busy (hbusy : t.ph ≠ .txIdle) (hguard : t.ph ≠ .guard) : (txNextSlot b t).ph ≠ .txIdle := by
  cases h : t.ph with
  | txIdle => exact absurd h hbusy
  | start => simp [txNextSlot_start b h]
  | data =>
    by_cases hbit : t.bit.toNat < 7
    · simp [txNextSlot_bit b h hbit, h]
    · simp [txNextSlot_lastBit b h hbit]
  | stop1 => simp [txNextSlot_stop1 b h]
  | stop2 =>
    by_cases hlt : t.idx.toNat + 1 < t.n.toNat
    · simp [txNextSlot_nextByte b h hlt]
    · simp [txNextSlot_lastByte b h hlt]
  | parity => simp [txNextSlot_parity b h]
  | guard => exact absurd h hguard

/-- No slot transition depends on TX_DONE (41_transmitter.md R104-R111). -/
theorem txNextSlot_withDone (d : Bool) :
    ∃ d', txNextSlot b { t with done := d } = { txNextSlot b t with done := d' } := by
  obtain ⟨ph, idx, bit, ones, n, p, dl, txd, done⟩ := t
  cases ph with
  | data =>
    by_cases hbit : bit.toNat < 7
    · exact ⟨d, by rw [txNextSlot_bit b rfl hbit, txNextSlot_bit b rfl hbit]⟩
    · exact ⟨d, by rw [txNextSlot_lastBit b rfl hbit, txNextSlot_lastBit b rfl hbit]⟩
  | stop2 =>
    by_cases hlt : idx.toNat + 1 < n.toNat
    · exact ⟨d, by rw [txNextSlot_nextByte b rfl hlt, txNextSlot_nextByte b rfl hlt]⟩
    · exact ⟨d, by rw [txNextSlot_lastByte b rfl hlt, txNextSlot_lastByte b rfl hlt]⟩
  | guard => exact ⟨true, rfl⟩
  | txIdle | start | stop1 | parity => exact ⟨d, rfl⟩

end NextSlot

/-! ### TxStep -/

/-- An idle transmitter stays as it is (41_transmitter.md R104). -/
theorem txAdvance_idle {s : State} (hidle : s.tx.ph = .txIdle) : txAdvance s = s.tx := if_pos hidle

/-- Before its deadline the transmitter holds its slot (41_transmitter.md R104). -/
theorem txAdvance_hold {s : State} (hdue : due s.now s.tx.dl = false) : txAdvance s = s.tx := by
  simp [txAdvance, hdue]

/-- At its deadline a busy transmitter ends its slot (41_transmitter.md R104). -/
theorem txAdvance_due {s : State} (hbusy : s.tx.ph ≠ .txIdle) (hdue : due s.now s.tx.dl = true) :
    txAdvance s = txAdvanceDeadline (txNextSlot s.txByte s.tx) :=
  (if_neg hbusy).trans (if_pos hdue)

/-- A slot that another slot follows ends with the deadline moved on by TX_P (41_transmitter.md R104). -/
theorem txAdvance_next {s : State} (hbusy : s.tx.ph ≠ .txIdle) (hguard : s.tx.ph ≠ .guard)
    (hdue : due s.now s.tx.dl = true) :
    txAdvance s = { txNextSlot s.txByte s.tx with dl := s.tx.dl + s.tx.p.setWidth 32 } := by
  obtain ⟨hp, hdl⟩ := txNextSlot_p_dl s.txByte s.tx
  simp only [txAdvance_due hbusy hdue, txAdvanceDeadline, if_neg (txNextSlot_busy _ hbusy hguard), hp, hdl]

/-- The guard slot ends the frame (41_transmitter.md R111). -/
theorem txAdvance_guard {s : State} (hguard : s.tx.ph = .guard) (hdue : due s.now s.tx.dl = true) :
    txAdvance s = { s.tx with txd := true, ph := .txIdle, done := true } := by
  rw [txAdvance_due (by simp [hguard]) hdue, txNextSlot_guard _ hguard]
  exact if_pos rfl

/-- Settles O51: each clause is the slot that follows the phase, and the deadline moved on but at the end of the
frame. -/
theorem transmitterSlotTransitions : Obligations.TransmitterSlotTransitions := by
  intro s b hb
  have hb : b = s.txByte := hb
  have htx : ∀ {u : Tx}, txAdvance s = u → txStep s = { s with tx := u } := by
    rintro _ rfl
    rfl
  subst hb
  refine ⟨?_, fun hdue => ⟨fun hph => ?_, fun hph hbit => ?_, fun hph hbit => ?_, fun hph => ?_, fun hph hlt => ?_,
    fun hph hlast => ?_, fun hph => ?_, fun hph => htx (txAdvance_guard hph hdue)⟩⟩
  · rintro (hidle | hdue)
    · exact htx (txAdvance_idle hidle)
    · exact htx (txAdvance_hold hdue)
  all_goals apply htx; rw [txAdvance_next (by simp [hph]) (by simp [hph]) hdue]
  · rw [txNextSlot_start _ hph]
  · rw [txNextSlot_bit _ hph hbit]
  · rw [txNextSlot_lastBit _ hph (by omega)]
  · rw [txNextSlot_stop1 _ hph]
  · rw [txNextSlot_nextByte _ hph hlt]
  · rw [txNextSlot_lastByte _ hph hlast]
  · rw [txNextSlot_parity _ hph]

/-- TxStep reads NOW, the transmitter and the byte being sent, and TX_DONE for TX_DONE alone (41_transmitter.md
R104). -/
theorem txAdvance_congr {s s' : State} {d : Bool} (hnow : s.now = s'.now) (htx : s.tx = { s'.tx with done := d })
    (hbuf : s.bufBytes .txWire = s'.bufBytes .txWire) : ∃ d', txAdvance s = { txAdvance s' with done := d' } := by
  have hbyte : s.txByte = s'.txByte := by
    rw [State.txByte, htx]
    exact bufByte_eq_of_bufBytes hbuf _
  have hph : s.tx.ph = s'.tx.ph := by rw [htx]
  have hdl : s.tx.dl = s'.tx.dl := by rw [htx]
  by_cases hidle : s'.tx.ph = .txIdle
  · exact ⟨d, by rw [txAdvance_idle hidle, txAdvance_idle (hph.trans hidle), htx]⟩
  · cases hdue : due s'.now s'.tx.dl with
    | false => exact ⟨d, by rw [txAdvance_hold hdue, txAdvance_hold (by rw [hnow, hdl, hdue]), htx]⟩
    | true =>
      obtain ⟨d', hd'⟩ := txNextSlot_withDone s'.txByte (t := s'.tx) d
      refine ⟨d', ?_⟩
      rw [txAdvance_due hidle hdue, txAdvance_due (by rwa [hph]) (by rw [hnow, hdl, hdue]), hbyte, htx, hd']
      unfold txAdvanceDeadline
      split_ifs <;> rfl

/-- A frame that ends sets TX_DONE (41_transmitter.md R111). -/
theorem txAdvance_done {s : State} (hbusy : s.tx.ph ≠ .txIdle) (hend : (txAdvance s).ph = .txIdle) :
    (txAdvance s).done = true := by
  cases hdue : due s.now s.tx.dl with
  | false => exact absurd (by rwa [txAdvance_hold hdue] at hend) hbusy
  | true =>
    by_cases hguard : s.tx.ph = .guard
    · rw [txAdvance_guard hguard hdue]
    · rw [txAdvance_next hbusy hguard hdue] at hend
      exact absurd hend (txNextSlot_busy _ hbusy hguard)

/-! ### A cycle of a busy transmitter -/

/-- The host's access of a busy transmitter may clear TX_DONE, and changes nothing else of the frame in flight
(41_transmitter.md R115). -/
theorem busPhase_busy {w : BusWord} {s t : State} (hbusy : s.tx.ph ≠ .txIdle) (h : busPhase w s = .next t) :
    (∃ d, t.tx = { s.tx with done := d }) ∧ t.bufBytes .txWire = s.bufBytes .txWire := by
  rcases busPhase_cases w s with ⟨-, e⟩ | ⟨-, -, e⟩ | ⟨-, -, -, e⟩ | ⟨-, -, -, e⟩ <;> rw [e] at h <;> cases h
  · exact ⟨⟨s.tx.done, rfl⟩, rfl⟩
  · exact ⟨⟨s.tx.done, rfl⟩, rfl⟩
  · refine ⟨⟨s.tx.done, by simp⟩, bufBytes_eq_of_memRead fun i _ => ?_⟩
    exact memRead_busWrite_out _ _ _ (by simp only [Buffer.base]; omega)
  · obtain ⟨u, hu, h | ⟨hidle, -⟩ | ⟨hidle, -⟩⟩ := ctrlWrite_cases (w.extractLsb' 0 8) s
    · rw [h, hu]
      exact ⟨⟨_, rfl⟩, rfl⟩
    · exact absurd hidle hbusy
    · exact absurd hidle hbusy

/-- After the host's access a non-reset cycle is TxStep on the transmitter, and leaves TXWIRE alone (20_memory.md
R67). -/
theorem step_tx {s t : State} (h : step s = .next t) (hr : s.input.rst = false) : ∃ s1,
    busPhase s.input.bus (beginCycle s) = .next s1 ∧ s1.now = s.now ∧ t.tx = txAdvance s1 ∧
    t.bufBytes .txWire = s1.bufBytes .txWire ∧ t.host.txWLen = s1.host.txWLen := by
  obtain ⟨s1, s3, h1, h3, rfl⟩ := step_phases h hr
  obtain ⟨htx, hlen, hbuf⟩ := rxStep_txWire h3
  exact ⟨s1, h1, (busPhase_frame h1).1, htx, hbuf, hlen⟩

/-- A non-reset cycle of a busy transmitter is TxStep but for a clear of TX_DONE before the end of the frame, and leaves
TXWIRE alone (41_transmitter.md R104, R115). -/
theorem step_busy {s t : State} (h : step s = .next t) (hr : s.input.rst = false) (hbusy : s.tx.ph ≠ .txIdle) :
    ∃ d, t.tx = { txAdvance s with done := d } ∧ ((txAdvance s).ph = .txIdle → d = true) ∧
      t.bufBytes .txWire = s.bufBytes .txWire := by
  obtain ⟨s1, h1, hnow, htx, hbuf, -⟩ := step_tx h hr
  obtain ⟨⟨d, hd⟩, hkeep⟩ := busPhase_busy (s := beginCycle s) hbusy h1
  obtain ⟨d', hd'⟩ := txAdvance_congr hnow hd hkeep
  refine ⟨d', htx.trans hd', fun hend => ?_, hbuf.trans hkeep⟩
  have hdone := txAdvance_done (s := s1) (by rw [hd]; exact hbusy) (by rw [hd']; exact hend)
  rwa [hd'] at hdone

/-- Settles O37: in both runs the cycle is TxStep of the same transmitter, but for TX_DONE. -/
theorem frameInFlightIsIsolatedFromHost : Obligations.FrameInFlightIsIsolatedFromHost := by
  intro s t s' t' h h' hr hr' hbusy htx hnow hbuf
  obtain ⟨d, hd, -, hkeep⟩ := step_busy h hr hbusy
  obtain ⟨d', hd', -⟩ := step_busy h' hr' (htx ▸ hbusy)
  obtain ⟨e, he⟩ := txAdvance_congr (d := s'.tx.done) hnow htx hbuf
  refine ⟨?_, hkeep⟩
  rw [hd, hd', he]

end Sys2Proof.Machine
end

section
/-! The line of a frame in closed form: a transmitter that began a frame counts its slots against the cycles since then,
and a run of cycles without reset keeps the count to the end of the frame (41_transmitter.md R112, R113). -/

namespace Sys2Proof.Machine

/-! ### The number of a slot -/

section SlotNumber

variable {s : State}

/-- The guard is the last slot of a frame (30_encoding.md R82). -/
theorem TxSlotLegal.txSlot_guard_or_lt (h : TxSlotLegal s) (hbusy : s.tx.ph ≠ .txIdle) :
    s.tx.ph = .guard ∧ s.txSlot = 11 * s.tx.n.toNat + 1 ∨ s.tx.ph ≠ .guard ∧ s.txSlot < 11 * s.tx.n.toNat + 1 := by
  have hidx := h.idx_lt
  have hbit := s.tx.bit.isLt
  cases hph : s.tx.ph <;> simp only [State.txSlot, hph]
  case txIdle => exact absurd hph hbusy
  case guard => exact .inl ⟨trivial, trivial⟩
  all_goals exact .inr ⟨by decide, by omega⟩

/-- Every slot but the guard leads to the slot that follows it (41_transmitter.md R105-R110). -/
theorem TxSlotLegal.txSlot_next (h : TxSlotLegal s) (hbusy : s.tx.ph ≠ .txIdle) (hguard : s.tx.ph ≠ .guard) :
    State.txSlot { s with tx := txNextSlot s.txByte s.tx } = s.txSlot + 1 := by
  have hlt := h.idx_lt
  cases hph : s.tx.ph with
  | txIdle => exact absurd hph hbusy
  | start => simp [State.txSlot, txNextSlot_start _ hph, hph]
  | data =>
    by_cases hbit : s.tx.bit.toNat < 7
    · have hnext : (s.tx.bit + 1#3).toNat = s.tx.bit.toNat + 1 := by bv_omega
      simp only [State.txSlot, txNextSlot_bit _ hph hbit, hph, hnext]
      omega
    · simp only [State.txSlot, txNextSlot_lastBit _ hph hbit, hph]
      omega
  | stop1 => simp [State.txSlot, txNextSlot_stop1 _ hph, hph]
  | stop2 =>
    by_cases hlast : s.tx.idx.toNat + 1 < s.tx.n.toNat
    · have hnext : (s.tx.idx + 1#7).toNat = s.tx.idx.toNat + 1 := by bv_omega
      simp only [State.txSlot, txNextSlot_nextByte _ hph hlast, hph, hnext]
      omega
    · simp only [State.txSlot, txNextSlot_lastByte _ hph hlast, hph]
      omega
  | parity => simp [State.txSlot, txNextSlot_parity _ hph, hph]
  | guard => exact absurd hph hguard

/-- The length of the frame in flight is that of its start (41_transmitter.md R103). -/
theorem txNextSlot_n (b : Byte) (t : Tx) : (txNextSlot b t).n = t.n := by
  unfold txNextSlot
  split
  case h_3 => unfold txFromData; split <;> rfl
  case h_5 => unfold txFromStop2; split <;> rfl
  all_goals rfl

end SlotNumber

/-! ### A frame in flight -/

/-- The transmitter sends the frame `w` with the period `p`, and began it `c` cycles ago: `c` and the cycles to the
deadline make up the slots up to and with the current one (41_transmitter.md R112). -/
structure Sending (w : List Byte) (p c : Nat) (s : State) : Prop where
  mem : memWf s.mem
  legal : TxLegal s
  busy : s.tx.ph ≠ .txIdle
  frame : s.txFrame = w
  period : s.tx.p.toNat = p
  elapsed : c + (s.tx.dl - s.now).toNat = (s.txSlot + 1) * p

/-- The number of cycles that the frame `w` takes on the line (41_transmitter.md R113; 30_encoding.md R82). -/
def frameCycles (w : List Byte) (p : Nat) : Nat := (11 * w.length + 2) * p

/-- The frame is over, the line HIGH and TX_DONE set (41_transmitter.md R111, R113). -/
structure Sent (s : State) : Prop where
  idle : s.tx.ph = .txIdle
  high : s.tx.txd = true
  done : s.tx.done = true

section Flight

variable {w : List Byte} {p c : Nat} {s t : State}

theorem Sending.slotLegal (h : Sending w p c s) : TxSlotLegal s := (((txLegal_iff s).1 h.legal).2 h.busy).1

/-- The deadline of a slot is ahead by less than a period. -/
theorem Sending.ahead (h : Sending w p c s) : (s.tx.dl - s.now).toNat < p :=
  h.period ▸ (((txLegal_iff s).1 h.legal).2 h.busy).2

/-- The frame sent has TX_N bytes. -/
theorem Sending.n_eq (h : Sending w p c s) : s.tx.n.toNat = w.length := by
  rw [← h.frame, h.slotLegal.txFrame_length]

/-- A deadline is less than 2^31 cycles ahead: it is due when it is now (10_state.md R22). -/
theorem Sending.due_iff (h : Sending w p c s) : due s.now s.tx.dl = true ↔ s.now = s.tx.dl := by
  have hlt := s.tx.p.isLt
  have hp := h.period
  have hd := h.ahead
  exact due_iff_eq (by omega)

/-- The slot on the line is that of the cycle, counted from the first cycle of slot 0 (41_transmitter.md R112). -/
theorem Sending.txSlot_eq (h : Sending w p (c + 1) s) : s.txSlot = c / p := by
  have hel := h.elapsed
  have hd := h.ahead
  rw [Nat.succ_mul] at hel
  refine (Nat.div_eq_of_lt_le ?_ ?_).symm
  · omega
  · rw [Nat.succ_mul]
    omega

/-- A frame in flight has begun no more cycles ago than it takes (41_transmitter.md R113). -/
theorem Sending.le_frameCycles (h : Sending w p c s) : c ≤ frameCycles w p := by
  have hel := h.elapsed
  have hslot := h.slotLegal.txSlot_guard_or_lt h.busy
  have hn := h.n_eq
  have hle : (s.txSlot + 1) * p ≤ (11 * w.length + 2) * p := Nat.mul_le_mul_right p (by omega)
  rw [frameCycles]
  omega

/-- The guard is due when the frame has taken its cycles, and only then (41_transmitter.md R113). -/
theorem Sending.guard_due_iff (h : Sending w p c s) :
    s.tx.ph = .guard ∧ due s.now s.tx.dl = true ↔ c = frameCycles w p := by
  have hel := h.elapsed
  have hd := h.ahead
  have hn := h.n_eq
  rw [h.due_iff, frameCycles]
  constructor
  · rintro ⟨hguard, hnow⟩
    have hslot := (h.slotLegal.txSlot_guard_or_lt h.busy).resolve_right (fun hr => hr.1 hguard)
    rw [hnow, hslot.2, hn] at hel
    simpa using hel
  · intro hc
    rcases h.slotLegal.txSlot_guard_or_lt h.busy with ⟨hguard, hslot⟩ | ⟨-, hslot⟩
    · have hslots : s.txSlot + 1 = 11 * w.length + 2 := by omega
      rw [hslots] at hel
      have hzero : (s.tx.dl - s.now).toNat = 0 := by omega
      exact ⟨hguard, by bv_omega⟩
    · have hle : (s.txSlot + 1 + 1) * p ≤ (11 * w.length + 2) * p := Nat.mul_le_mul_right p (by omega)
      rw [Nat.succ_mul] at hle
      omega

/-- TxStep keeps the frame and its period, and counts its slots against the cycles (41_transmitter.md R104). -/
theorem Sending.advance (h : Sending w p c s) (hmore : c < frameCycles w p) {d : Bool}
    (htx : t.tx = { txAdvance s with done := d }) (hnow : t.now = s.now + 1#32) :
    t.tx.ph ≠ .txIdle ∧ t.tx.n = s.tx.n ∧ t.tx.p = s.tx.p ∧
      c + 1 + (t.tx.dl - t.now).toNat = (t.txSlot + 1) * p := by
  have hel := h.elapsed
  have hd := h.ahead
  have hlt := s.tx.p.isLt
  have hper := h.period
  cases hdue : due s.now s.tx.dl with
  | false =>
    rw [txAdvance_hold hdue] at htx
    have hslot : t.txSlot = s.txSlot := by simp only [State.txSlot, htx]
    have hcloser := ahead_of_not_due (by omega) hd hdue
    rw [hslot, hnow, htx]
    exact ⟨h.busy, rfl, rfl, by dsimp only; omega⟩
  | true =>
    have hguard : s.tx.ph ≠ .guard := fun hg => by
      have := h.guard_due_iff.1 ⟨hg, hdue⟩
      omega
    rw [txAdvance_next h.busy hguard hdue] at htx
    have hslot : t.txSlot = s.txSlot + 1 := by
      rw [← h.slotLegal.txSlot_next h.busy hguard]
      simp only [State.txSlot, htx]
    have hnow' := h.due_iff.1 hdue
    have hnext : (s.tx.dl + s.tx.p.setWidth 32 - (s.tx.dl + 1#32)).toNat + 1 = p := by
      have := h.slotLegal.p_ge
      bv_omega
    rw [hslot, hnow, htx, hnow', Nat.succ_mul]
    rw [hnow'] at hel
    refine ⟨txNextSlot_busy _ h.busy hguard, txNextSlot_n _ _, (txNextSlot_p_dl _ _).1, ?_⟩
    simp only [BitVec.sub_self, BitVec.toNat_zero] at hel
    dsimp only
    omega

/-- A non-reset cycle before the end of the frame goes on with it (41_transmitter.md R112, R115). -/
theorem Sending.next_cycle (h : Sending w p c s) (hmore : c < frameCycles w p) (hr : s.input.rst = false)
    (hs : step s = .next t) : Sending w p (c + 1) t := by
  obtain ⟨d, htx, -, hbuf⟩ := step_busy hs hr h.busy
  obtain ⟨hbusy, hn, hp, hel⟩ := h.advance hmore htx (step_now_syncLow hs hr).1
  refine ⟨memoryStaysCanonical s t h.mem hs, transmitterStaysLegal s t h.mem h.legal hs, hbusy, ?_, ?_, hel⟩
  · rw [← h.frame, State.txFrame, State.txFrame, hbuf, hn]
  · rw [hp, h.period]

/-- The cycle at the end of the frame completes it (41_transmitter.md R111, R113). -/
theorem Sending.last_cycle (h : Sending w p c s) (hlast : c = frameCycles w p) (hr : s.input.rst = false)
    (hs : step s = .next t) : Sent t := by
  obtain ⟨hguard, hdue⟩ := h.guard_due_iff.2 hlast
  obtain ⟨d, htx, hdone, -⟩ := step_busy hs hr h.busy
  rw [txAdvance_guard hguard hdue] at htx hdone
  rw [hdone rfl] at htx
  exact ⟨by rw [htx], by rw [htx], by rw [htx]⟩

end Flight

/-! ### Runs without reset -/

/-- The host's access leaves the inputs to come alone (20_memory.md R67). -/
theorem busPhase_inputs {w : BusWord} {s t : State} (h : busPhase w s = .next t) : t.inputs = s.inputs := by
  rcases busPhase_cases w s with ⟨-, e⟩ | ⟨-, -, e⟩ | ⟨-, -, -, e⟩ | ⟨-, -, -, e⟩ <;> rw [e] at h <;> cases h <;> simp

/-- A cycle takes its inputs and leaves those to come. -/
theorem step_inputs {s t : State} (h : step s = .next t) : t.inputs = s.inputs.tail := by
  rcases step_cases h with ⟨-, rfl⟩ | ⟨-, s1, s3, h1, h3, rfl⟩
  · rfl
  · have hrx : s3.inputs = s1.inputs := (rxStep_inputs_busRdata h3).1
    exact hrx.trans (busPhase_inputs h1)

/-- Of cycles without reset the first has no reset. -/
theorem NoReset.first {s : State} {k : Nat} (h : NoReset s (k + 1)) : s.input.rst = false := by
  unfold State.input
  cases hin : s.inputs with
  | nil => rfl
  | cons i rest => exact h i (by simp [hin])

/-- Of cycles without reset those after the first have no reset. -/
theorem NoReset.next {s t : State} {k : Nat} (h : NoReset s (k + 1)) (hs : step s = .next t) : NoReset t k := by
  intro i hi
  rw [step_inputs hs] at hi
  cases hin : s.inputs with
  | nil => simp [hin] at hi
  | cons j rest =>
    rw [hin] at hi
    exact h i (by rw [hin]; exact List.mem_cons_of_mem _ hi)

/-- Over any number of cycles without reset a frame is sent up to its end, and one cycle more completes it
(41_transmitter.md R112, R113, R115). -/
theorem Sending.run {w : List Byte} {p c k : Nat} {s u : State} (h : Sending w p c s) (hr : NoReset s k)
    (hrun : Host.Core.run Sys2Proof.core k s = .next u) :
    (c + k ≤ frameCycles w p → Sending w p (c + k) u) ∧ (c + k = frameCycles w p + 1 → Sent u) := by
  induction k generalizing s c with
  | zero =>
    cases hrun
    have := h.le_frameCycles
    exact ⟨fun _ => h, fun hend => by omega⟩
  | succ k ih =>
    obtain ⟨t, ht⟩ := step_next s
    rw [run_first ht] at hrun
    rcases Nat.lt_or_eq_of_le h.le_frameCycles with hmore | hlast
    · have hnext := ih (h.next_cycle hmore hr.first ht) (hr.next ht) hrun
      rwa [Nat.add_right_comm, Nat.add_assoc] at hnext
    · refine ⟨fun hle => by omega, fun hend => ?_⟩
      obtain rfl : k = 0 := by omega
      cases hrun
      exact h.last_cycle hlast hr.first ht

/-! ### The start of a frame -/

/-- A TX_START that is accepted encodes the frame and begins it, after the clears of its byte (44_host_bus.md R147,
R148). -/
theorem busPhase_txStart {v : BusWord} {s : State} {e o k c d : Bool} (hdec : decodeBus v = .ok (.txStart e o k c d))
    (hidle : s.tx.ph = .txIdle) (hlen : s.host.txLen.toNat ≤ 63) :
    busPhase v s = .next (txBegin (encodeFrame { s with
      hold := { s.hold with ready := if k then false else s.hold.ready }
      host := { s.host with rxEn := e, errFlags := if c then 0x00#8 else s.host.errFlags }
      tx := { s.tx with done := if d then false else s.tx.done } })) := by
  have hexec : busPhase v s = .next (ctrlWrite (ctrlByte e true o k c d) s) := busPhase_of_decode hdec s
  rw [hexec, ctrlWrite_txStart, ctrlWrite_clears, txStart_ok (by exact hidle)]
  exact (encodeFails_false_iff s).2 hlen

/-- TXBEGIN after a successful ENCODE starts the frame that ENCODE packs, with a whole period to its first deadline
(40_codec.md R94; 41_transmitter.md R103). -/
theorem txBegin_encodeFrame {u : State} (hm : memWf u.mem) (hf : u.encodeFails = false) :
    (txBegin (encodeFrame u)).txFrame = wireFrame u.host.txCmd u.host.txLen u.txPayloadBytes ∧
    (txBegin (encodeFrame u)).tx.p = effectivePeriod u.host.bitPer ∧
    (txBegin (encodeFrame u)).tx.dl = u.now + (effectivePeriod u.host.bitPer).setWidth 32 := by
  obtain ⟨hhost, -⟩ := encodeFrame_ok hm hf
  have hle := (encodeFails_false_iff u).1 hf
  have hn : (encodeFrame u).host.txWLen.toNat = u.host.txLen.toNat + 4 := by
    rw [hhost]
    bv_omega
  refine ⟨?_, ?_, ?_⟩
  · rw [← take_encodeFrame hm hf, ← hn]
    rfl
  · change effectivePeriod (encodeFrame u).host.bitPer = _
    rw [hhost]
  · change (encodeFrame u).now + (effectivePeriod (encodeFrame u).host.bitPer).setWidth 32 = _
    rw [hhost, encodeFrame_now]

/-- After the cycle that begins a frame the transmitter sends it, and began it one cycle ago: that cycle is before the
first deadline (41_transmitter.md R103, R112). -/
theorem sending_of_txBegin {s t u : State} (hr : s.input.rst = false) (hs : step s = .next t) (hm : memWf s.mem)
    (hbus : busPhase s.input.bus (beginCycle s) = .next (txBegin (encodeFrame u))) (hmu : memWf u.mem)
    (hf : u.encodeFails = false) :
    Sending (wireFrame u.host.txCmd u.host.txLen u.txPayloadBytes) (effectivePeriod u.host.bitPer).toNat 1 t := by
  obtain ⟨s1, h1, hnow1, htx, hbuf, hlen⟩ := step_tx hs hr
  obtain rfl : txBegin (encodeFrame u) = s1 := by
    rw [hbus] at h1
    cases h1
    rfl
  obtain ⟨hframe, hp, hdl⟩ := txBegin_encodeFrame hmu hf
  have hnow : t.now = u.now + 1#32 := by
    rw [(step_now_syncLow hs hr).1, ← hnow1, txBegin_now, encodeFrame_now]
  have hge := two_le_effectivePeriod u.host.bitPer
  have hdue : due (txBegin (encodeFrame u)).now (txBegin (encodeFrame u)).tx.dl = false := by
    rw [txBegin_now, encodeFrame_now, hdl, Bool.eq_false_iff, ne_eq, due_iff_eq (by bv_omega)]
    bv_omega
  rw [txAdvance_hold hdue] at htx
  have hahead : (t.tx.dl - t.now).toNat + 1 = (effectivePeriod u.host.bitPer).toNat := by
    rw [htx, hdl, hnow]
    bv_omega
  have hbusy : t.tx.ph ≠ .txIdle := by
    rw [htx]
    exact fun h => by cases h
  have hlegal : TxLegal t := by
    refine (txLegal_iff t).2 ⟨fun h => absurd h hbusy, fun _ => ⟨?_, ?_⟩⟩
    · exact (txBegin_slotLegal hmu hf).congr _ _ htx hlen hbuf
    · rw [congrArg Tx.p htx, hp]
      omega
  refine ⟨memoryStaysCanonical s t hm hs, hlegal, hbusy, ?_, ?_, ?_⟩
  · rw [← hframe, State.txFrame, State.txFrame, hbuf, htx]
  · rw [htx, hp]
  · have hslot : t.txSlot = 0 := by
      simp only [State.txSlot, htx]
      rfl
    rw [hslot]
    omega

/-- Settles O52: the cycle of TX_START begins the frame, the cycles after it count its slots, and the last of them
completes it. -/
theorem transmitterFollowsLineSchedule : Obligations.TransmitterFollowsLineSchedule := by
  intro s u e o k c d j n p w hm hidle hlen hdec hr hn hp hw hrun
  obtain ⟨t, ht⟩ := step_next s
  rw [run_first ht] at hrun
  have hstart := sending_of_txBegin hr.first ht hm
    (busPhase_txStart (s := beginCycle s) hdec hidle hlen) hm ((encodeFails_false_iff s).2 hlen)
  have hsend : Sending w p 1 t := by
    rw [hw, hp, ← effectivePeriod_toNat]
    exact hstart
  have hlength : w.length = n := by
    rw [hw, hn, wireFrame_length]
    exact congrArg (· + 4) (txPayloadBytes_length ((encodeFails_false_iff s).2 hlen))
  obtain ⟨hgo, hend⟩ := hsend.run (hr.next ht) hrun
  rw [Nat.add_comm, frameCycles, hlength] at hgo hend
  refine ⟨fun hj => ?_, fun hj => ?_⟩
  · have hu := hgo hj
    have htxd := hu.slotLegal.txd_eq
    rw [hu.frame, hu.txSlot_eq] at htxd
    exact ⟨by simpa [State.txBusy] using hu.busy, htxd⟩
  · obtain ⟨hu, hhigh, hdone⟩ := hend (by omega)
    exact ⟨by simp [State.txBusy, hu], hhigh, hdone⟩

end Sys2Proof.Machine
end

section
/-! The receiver's poll, state by state: a disabled receiver, the wait for a deadline, the start edges, the samples of a
byte, the byte commit and the end of a frame (42_receiver.md R116-R125). -/

namespace Sys2Proof.Machine

/-! ### The receiver's step as a poll -/

/-- The count of NOW loses nothing. -/
theorem later_one_injective {s t : State} (h : s.later 1 = t.later 1) : s = t := by
  have hnow : s.now = t.now := (BitVec.add_left_inj 1#32).1 (congrArg State.now h)
  calc
    s = { s.later 1 with now := s.now } := rfl
    _ = { t.later 1 with now := t.now } := by rw [h, hnow]
    _ = t := rfl

/-- The receiver's step is what its part of a cycle does before NOW counts (20_memory.md R67 steps 4 and 5). -/
theorem rxStep_of_rxTick {line : Bool} {s t : State} (h : rxTick line s = t.later 1) : rxStep line s = .next t := by
  rw [rxStep_eq]
  exact congrArg _ (later_one_injective h)

/-- The receiver's step is a poll in every state but VerifyFinalStop (42_receiver.md R116). -/
theorem rxStep_eq_rxPoll {line : Bool} {s : State} (h : s.rx.st ≠ .verifyFinalStop) :
    rxStep line s = .next (rxPoll line s) :=
  rxStep_of_rxTick (rxTick_eq_rxPoll h)

/-- A receiver that waits, with no deadline due, changes nothing (42_receiver.md R118-R125). -/
theorem rxStep_wait {line : Bool} {s : State} (h : WaitsAt line s)
    (hd : (s.rx.st = .idle ∧ s.rx.idx = 0#7) ∨ s.rxDue = false) : rxStep line s = .next s :=
  rxStep_of_rxTick (rxTick_wait h hd)

/-- Settles O26: a disabled receiver accepts no frame, and its poll is RXHOLD. -/
theorem disabledReceiverIsHeldIdle : Obligations.DisabledReceiverIsHeldIdle := by
  intro s line hen
  have hacc : frameAccepted line s = false := by simp [frameAccepted, hen]
  have hhold : rxPoll line s = frameIdle s := if_pos hen
  have hstep : rxStep line s = .next (frameIdle s) := rxStep_of_rxTick (by rw [rxTick_of_not_accepted hacc, hhold])
  exact ⟨_, hstep, rfl, rfl, rfl⟩

/-- Settles O29: the sampling states wait whatever the line is. -/
theorem samplingStatesWaitForDeadline : Obligations.SamplingStatesWaitForDeadline :=
  fun _ _ hen hdue hidle hrec => rxStep_wait ⟨hen, hrec, fun hst => absurd hst hidle⟩ (.inr hdue)

/-! ### The start edges -/

/-- The first sample is a half and a whole period after the start edge (42_receiver.md R118, R119). -/
theorem firstSample_eq_add (now : Time) (h : BitVec 23) (p : BitVec 24) :
    firstSample now h p = now + BitVec.ofNat 32 (h.toNat + p.toNat) := by
  rw [firstSample, ← BitVec.ofNat_toNat, ← BitVec.ofNat_toNat, BitVec.add_assoc, ← BitVec.ofNat_add]

/-- Memory after RXWIRE is cleared (42_receiver.md R118). -/
theorem memRead_clearRxWire {s : State} (hm : memWf s.mem) (a : Nat) :
    memRead (s.fillBuf .rxWire []).mem a = if 0x180 ≤ a ∧ a ≤ 0x1C2 then 0x00#8 else memRead s.mem a := by
  split
  · next h =>
    obtain ⟨i, rfl⟩ := Nat.exists_eq_add_of_le h.1
    have hi : i < Buffer.rxWire.size := by
      simp only [Buffer.size]
      omega
    have hread : (s.fillBuf .rxWire []).bufByte .rxWire i = memRead (s.fillBuf .rxWire []).mem (0x180 + i) := if_pos hi
    rw [← hread, bufByte_fillBuf_same hm _ _ hi]
    rfl
  · exact memRead_fillBuf_out s .rxWire [] (by simp only [Buffer.base, Buffer.size]; omega)

/-- Settles O27: a HIGH line is waited out, a LOW one is the start edge, which clears RXWIRE. -/
theorem startEdgeBeginsFreshFrame : Obligations.StartEdgeBeginsFreshFrame := by
  intro s hm hen hst hidx
  refine ⟨rxStep_wait ⟨hen, by simp [hst], fun _ => rfl⟩ (.inl ⟨hst, hidx⟩), _, rxStep_eq_rxPoll (by simp [hst]), ?_⟩
  have hmem := memRead_clearRxWire hm
  rw [rxPoll_frameIdle hen hst hidx, rxFrameIdle_low]
  generalize (s.fillBuf .rxWire []).mem = m at hmem ⊢
  exact ⟨rfl, rfl, hidx, rfl, rfl, rfl, rfl, rfl, rfl, rfl, effectivePeriod_toNat _, halfPeriod_toNat _,
    firstSample_eq_add _ _ _, hmem⟩

/-- Between bytes a HIGH line at a due deadline is a timeout (42_receiver.md R119). -/
theorem rxPoll_timeout {s : State} (hen : s.host.rxEn = true) (hst : s.rx.st = .idle) (hidx : s.rx.idx ≠ 0#7)
    (hdue : s.rxDue = true) : rxPoll true s = abortFrame .rxTimeout s := by
  simp [rxPoll, rxByteIdle, hen, hst, hidx, hdue]

/-- Settles O28: a LOW line is the start edge, whatever the deadline; a HIGH one is a timeout or a wait. -/
theorem nextByteEdgeBeatsTimeout : Obligations.NextByteEdgeBeatsTimeout := by
  intro s hen hst hidx
  have hpoll : ∀ line, rxStep line s = .next (rxPoll line s) := fun line => rxStep_eq_rxPoll (by simp [hst])
  refine ⟨by rw [hpoll, rxPoll_byteIdle hen hst hidx, firstSample_eq_add], ?_⟩
  split
  · next hdue => rw [hpoll, rxPoll_timeout hen hst hidx hdue]
  · next hdue => exact rxStep_wait ⟨hen, by simp [hst], fun _ => rfl⟩ (.inr (Bool.eq_false_of_not_eq_true hdue))

/-! ### The samples of a byte -/

/-- The byte with the bits of `b` below bit `k`, the others 0. -/
def bitsBelow (b : Byte) (k : Nat) : Byte := (b.setWidth k).setWidth 8

theorem bitsBelow_getLsbD (b : Byte) (k : Nat) {i : Nat} (hi : i < 8) :
    (bitsBelow b k).getLsbD i = (decide (i < k) && b.getLsbD i) := by
  simp [bitsBelow, hi]

/-- The sample of bit `k` joins it to the bits below it (42_receiver.md R120). -/
theorem setSample_bitsBelow (b : Byte) {k : Nat} (hk : k < 8) :
    setSample (bitsBelow b k) k (b.getLsbD k) = bitsBelow b (k + 1) := by
  apply BitVec.eq_of_getLsbD_eq
  intro i hi
  rw [setSample_getLsbD _ hk _ hi, bitsBelow_getLsbD _ _ hi, bitsBelow_getLsbD _ _ hi]
  by_cases h : i = k
  · simp [h]
  · simp [h, show i < k ↔ i < k + 1 by omega]

/-- The receiver of `s` at time `now`, when the first `k` bits of the byte `b` are sampled. -/
def State.withBits (s : State) (b : Byte) (now : Time) (k : Nat) : State :=
  { s with
    now := now
    rx := { s.rx with
      st := if k < 8 then .receivingBits else .verifyStop1
      bit := BitVec.ofNat 4 k
      byte := bitsBelow b k
      dl := s.rx.dl + BitVec.ofNat 32 k * s.rx.p.setWidth 32 } }

/-- A receiver that waits for bit 0 has sampled no bit. -/
theorem withBits_zero {s : State} (b : Byte) (hst : s.rx.st = .receivingBits) (hbit : s.rx.bit = 0#4)
    (hbyte : s.rx.byte = 0#8) : s.withBits b s.now 0 = s := by
  have hlow : bitsBelow b 0 = 0#8 := BitVec.eq_of_getLsbD_eq fun i hi => by simp [bitsBelow_getLsbD b 0 hi]
  simp [State.withBits, hlow, ← hst, ← hbit, ← hbyte]

/-- The poll at its deadline with the line of data bit `i` (42_receiver.md R120). -/
def sampleBit (b : Byte) (o : Outcome) (i : Nat) : Outcome :=
  andThen o fun u => rxStep (b.getLsbD i) { u with now := u.rx.dl }

/-- The sample of bit `k`, one period before the next deadline (42_receiver.md R120). -/
theorem sampleBit_withBits {s : State} (hen : s.host.rxEn = true) (b : Byte) (now : Time) {k : Nat} (hk : k < 8) :
    sampleBit b (.next (s.withBits b now k)) k
      = .next (s.withBits b (s.rx.dl + BitVec.ofNat 32 k * s.rx.p.setWidth 32) (k + 1)) := by
  have hst : (s.withBits b now k).rx.st = .receivingBits := if_pos hk
  have hk4 : (BitVec.ofNat 4 k).toNat = k := Nat.mod_eq_of_lt (by omega)
  have hlast : BitVec.ofNat 4 (k + 1) = 8#4 ↔ ¬ k + 1 < 8 := by bv_omega
  have hperiod : BitVec.ofNat 32 (k + 1) * s.rx.p.setWidth 32
      = BitVec.ofNat 32 k * s.rx.p.setWidth 32 + s.rx.p.setWidth 32 := by
    rw [BitVec.ofNat_add, BitVec.add_mul, BitVec.one_mul]
  simp only [sampleBit, andThen]
  rw [rxStep_eq_rxPoll (by simp [hst]), rxPoll_bit (by exact hen) (by exact hst) (by exact due_self _)]
  simp only [State.withBits, hk4, setSample_bitsBelow b hk, ← BitVec.ofNat_add, hlast, ite_not, hperiod,
    BitVec.add_assoc]

/-- The first `k + 1` samples, each at its deadline (42_receiver.md R120). -/
theorem foldl_sampleBit {s : State} (b : Byte) (hen : s.host.rxEn = true) (hst : s.rx.st = .receivingBits)
    (hbit : s.rx.bit = 0#4) (hbyte : s.rx.byte = 0#8) {k : Nat} (hk : k < 8) :
    (List.range (k + 1)).foldl (sampleBit b) (.next s)
      = .next (s.withBits b (s.rx.dl + BitVec.ofNat 32 k * s.rx.p.setWidth 32) (k + 1)) := by
  induction k with
  | zero =>
    have hfirst := sampleBit_withBits hen b s.now hk
    rwa [withBits_zero b hst hbit hbyte] at hfirst
  | succ k ih =>
    rw [List.range_succ, List.foldl_append, ih (by omega)]
    exact sampleBit_withBits hen b _ hk

/-- Settles O30: the eighth sample completes the byte. -/
theorem eightSamplesAssembleByte : Obligations.EightSamplesAssembleByte := by
  intro s b hen hst hbit hbyte
  have hall : bitsBelow b 8 = b := by simp [bitsBelow]
  refine (foldl_sampleBit b hen hst hbit hbyte (k := 7) (by omega)).trans ?_
  rw [State.withBits, hall]
  rfl

/-! ### The stop bits -/

/-- A due stop bit that is LOW is a framing error (42_receiver.md R121, R122). -/
theorem rxPoll_stop_low {s : State} (hen : s.host.rxEn = true) (hst : s.rx.st = .verifyStop1 ∨ s.rx.st = .verifyStop2)
    (hdue : s.rxDue = true) : rxPoll false s = abortFrame .rxFraming s := by
  rcases hst with hst | hst
  · simp [rxPoll, rxVerifyStop1, hen, hst, hdue]
  · simp [rxPoll, rxVerifyStop2, hen, hst, hdue]

/-- Settles O31: the poll of each stop bit. -/
theorem lowStopBitIsFramingError : Obligations.LowStopBitIsFramingError := by
  intro s hen hdue
  refine ⟨fun hst => ?_, fun hst => ?_⟩
  · have hne : s.rx.st ≠ .verifyFinalStop := by rcases hst with hst | hst <;> simp [hst]
    rw [rxStep_eq_rxPoll hne, rxPoll_stop_low hen hst hdue]
  · rw [rxStep_eq_rxPoll (by simp [hst]), rxPoll_stop1 hen hst hdue]

/-! ### The byte commit -/

/-- RX_LEN after the byte commit: the length of header byte 1, else as before (40_codec.md R96). -/
def State.commitLen (s : State) : BitVec 7 := if s.rx.idx.toNat = 1 then headerLength s.rx.byte else s.rx.len

/-- The byte is stored, and RX_LEN is the length that the frame now has (42_receiver.md R123; 40_codec.md R96). -/
def State.committed (s : State) : State :=
  { commitStore s with rx := { (commitStore s).rx with len := s.commitLen } }

/-- The byte commit stores the byte, then aborts at a length above 63, or goes on in the frame (42_receiver.md R123;
40_codec.md R96). -/
theorem commitByte_eq_committed {s : State} (hm : memWf s.mem) :
    commitByte s = if s.rx.idx.toNat = 1 ∧ 63 < s.commitLen.toNat then abortFrame .rxLength s.committed
      else commitNext s.committed := by
  rcases commitByte_cases hm with ⟨h1, hlong, e⟩ | ⟨h1, hshort, e⟩ | ⟨h1, e⟩
  · have hlen : s.commitLen = headerLength s.rx.byte := if_pos h1
    rw [if_pos ⟨h1, hlen ▸ hlong⟩, e, State.committed, hlen]
  · have hlen : s.commitLen = headerLength s.rx.byte := if_pos h1
    rw [if_neg (by rw [hlen]; omega), e, State.committed, hlen]
  · have hlen : s.commitLen = s.rx.len := if_neg h1
    rw [if_neg (fun h => h1 h.1), e, State.committed, hlen]
    rfl

/-- Settles O32: the byte is stored, and the commit aborts, goes on to the parity slot or waits for the next byte. -/
theorem commitStoresByteAndDecodesHeader : Obligations.CommitStoresByteAndDecodesHeader := by
  intro s hm hen hdue hst hidx
  have hstep : rxStep true s = .next (commitByte s) := by
    rw [rxStep_eq_rxPoll (by simp [hst]), rxPoll_stop2 hen hst hdue]
  have hk : s.committed.rx.idx.toNat = s.rx.idx.toNat + 1 := by
    change (s.rx.idx + 1#7).toNat = _
    bv_omega
  have hmem : ∀ a, memRead (commitByte s).mem a
      = if a = 0x180 + s.rx.idx.toNat then s.rx.byte else memRead s.mem a := by
    rw [commitByte_mem]
    exact memRead_commitStore hm hidx
  have hlen : s.commitLen = if s.committed.rx.idx.toNat = 2 then s.rx.byte.extractLsb' 1 7 else s.rx.len := by
    simp [State.commitLen, headerLength, hk]
  have hsecond : s.committed.rx.idx.toNat = 2 ↔ s.rx.idx.toNat = 1 := by omega
  refine ⟨commitByte s, s.committed.rx.idx.toNat, s.commitLen, hstep, hk, hlen, hmem, ?_⟩
  rw [commitByte_eq_committed hm]
  simp only [hsecond]
  split
  · and_intros <;> rfl
  · by_cases hlast : 3 ≤ s.committed.rx.idx.toNat ∧ s.committed.rx.idx.toNat = s.commitLen.toNat + 4
    · rw [if_pos hlast, commitNext_last hlast]
      and_intros <;> rfl
    · rw [if_neg hlast, commitNext_more hlast]
      and_intros <;> rfl

/-! ### The end of a frame -/

/-- The failing final checks set each flag that applies (42_receiver.md R125; 60_exceptions.md R162 (b)). -/
theorem raise_failed_checks (s : State) (line : Bool) :
    raiseFlagIf (!s.parityOk) .rxParity (raiseFlagIf (!line) .rxFinalStop s) = { s with host := { s.host with
      errFlags := s.host.errFlags ||| (if line then 0x00#8 else 0x20#8)
        ||| (if s.parityOk then 0x00#8 else 0x10#8) } } := by
  cases line <;> cases s.parityOk <;> simp [raiseFlagIf, raiseFlag, setErrBit, ErrCode.bit]

theorem parityOk_iff (s : State) : s.parityOk = true ↔ s.rx.pbit = s.rx.ones[0] := beq_iff_eq

/-- The due final checks that fail abort the frame, and accept nothing (42_receiver.md R125). -/
theorem rxStep_finalStop_fail {line : Bool} {s : State} (hen : s.host.rxEn = true) (hst : s.rx.st = .verifyFinalStop)
    (hdue : s.rxDue = true) (hfail : (line && s.parityOk) = false) :
    rxStep line s
      = .next (abortFrame .rxSync (raiseFlagIf (!s.parityOk) .rxParity (raiseFlagIf (!line) .rxFinalStop s))) := by
  have hacc : frameAccepted line s = false := by
    rw [frameAccepted, Bool.and_assoc, hfail, Bool.and_false]
  have hpoll : rxPoll line s = rxVerifyFinalStop line s := by simp [rxPoll, hen, hst]
  rw [rxStep_of_rxTick (rxTick_of_not_accepted hacc), hpoll, rxVerifyFinalStop, if_pos hdue, if_neg (by simp [hfail])]

/-- Settles O33: the parity sample, then the failing checks. -/
theorem finalChecksReportBothFailures : Obligations.FinalChecksReportBothFailures := by
  intro s line hen hdue
  refine ⟨fun hst => ?_, fun hst hbad => ?_⟩
  · rw [rxStep_eq_rxPoll (by simp [hst]), rxPoll_parity hen hst hdue]
  · have hfail : (line && s.parityOk) = false := by
      rw [Bool.and_eq_false_iff, ← Bool.not_eq_true s.parityOk, parityOk_iff]
      exact hbad
    rw [rxStep_finalStop_fail hen hst hdue hfail, raise_failed_checks]
    simp only [parityOk_iff]

/-! ### The delivery -/

/-- A frame operation delivers the frame with its command (30_encoding.md R87; log 5). -/
theorem exec_of_frameCode {i : Instr} {c : BitVec 4} (h : frameCode i = some c) (s : State) :
    exec i s = .next (deliverFrame c s) := by
  rw [← decodeHeader_of_frameCode h, exec_decodeHeader, headerCommand_packCommand]

/-- Settles O21: a delivery writes RXPAYLOAD alone, and ends as RX_VALID says. -/
theorem frameCommandChangesNothingElse : Obligations.FrameCommandChangesNothingElse := by
  intro i cmd s hcode _
  obtain ⟨-, hvalid, -⟩ := deliverFrame_hold cmd s
  refine ⟨_, exec_of_frameCode hcode s, ?_, ?_, fun a ha => ?_, by simp⟩
  · rw [hvalid, deliverFrame_eq]
  · rw [deliverFrame_eq]
    simp only [dispatchFrame_host]
  · rw [deliverFrame_mem]
    exact memRead_fillBuf_out s .rxPayload _ ha

/-- The host's access of a cycle, if it has one, leads to this state (20_memory.md R67 steps 1 and 2). -/
theorem busPhase_of_access {w : BusWord} {s u : State}
    (h : (w[18] = false ∧ u = s) ∨ ∃ j, decodeBus w = .ok j ∧ exec j s = .next u) : busPhase w s = .next u := by
  rcases h with ⟨hsel, rfl⟩ | ⟨j, hdec, hexec⟩
  · exact busPhase_no_access hsel u
  · rw [busPhase_of_decode hdec, hexec]

/-- A poll that accepts a frame runs the operation of its header byte 0 (42_receiver.md R125; log 5). -/
theorem rxStep_of_accepted {line : Bool} {s : State} {i : Instr} (hacc : frameAccepted line s = true)
    (hdec : decode [s.bufByte .rxWire 0] = .ok i) : rxStep line s = exec i s := by
  cases hdec
  exact if_pos hacc

/-- Settles O6: the host's access leaves the header byte alone, and the poll runs its operation. -/
theorem stepRunsReceivedCommand : Obligations.StepRunsReceivedCommand := by
  intro s u i hr haccess hacc hdec
  have hbus := busPhase_of_access haccess
  have hheader : (clearEvents (txStep u)).bufByte .rxWire 0 = s.bufByte .rxWire 0 :=
    bufByte_eq_of_bufBytes (s := u) (t := beginCycle s) (busPhase_rxWire hbus) 0
  rw [← hheader] at hdec
  rw [step_of_not_reset hr, hbus, andThen, enginePhase, rxStep_of_accepted hacc hdec]

end Sys2Proof.Machine
end

section
/-! The dispatch of a frame (43_dispatch.md): what a delivery puts in the holding registers, that the cycles with
EV_DISPATCH are those that deliver a frame, what the other cycles leave of the holding registers, and the race of RX_ACK
with a dispatch. -/

namespace Sys2Proof.Machine

/-! ### The delivery of a frame -/

/-- Of the host registers a delivery changes ERRFLAGS alone: RX_OVERRUN where a frame was still held, RX_CHECKSUM where
this one is not valid (43_dispatch.md R131). -/
theorem deliverFrame_host (cmd : BitVec 4) (s : State) :
    (deliverFrame cmd s).host = { s.host with
      errFlags := s.host.errFlags ||| (if s.hold.ready then 0x80#8 else 0x00#8)
        ||| (if s.frameValid then 0x00#8 else 0x40#8) } := by
  rw [deliverFrame_eq]
  exact dispatchFrame_host cmd s

/-- The command and the two bytes of the received checksum after a delivery (43_dispatch.md R131; 40_codec.md R97). -/
theorem deliverFrame_hold_bytes (cmd : BitVec 4) (s : State) :
    (deliverFrame cmd s).hold.cmd = cmd ∧
    (deliverFrame cmd s).hold.csrHi = s.bufByte .rxWire (s.rx.len.toNat + 2) ∧
    (deliverFrame cmd s).hold.csrLo = s.bufByte .rxWire (s.rx.len.toNat + 3) := by
  rw [deliverFrame_eq]
  exact ⟨rfl, append_high _ _, append_low _ _⟩

/-- RX_VALID after a delivery says that the held checksums agree (40_codec.md R97). -/
theorem deliverFrame_valid_iff (cmd : BitVec 4) (s : State) :
    (deliverFrame cmd s).hold.valid = true ↔ (deliverFrame cmd s).hold.csr = (deliverFrame cmd s).hold.csc := by
  obtain ⟨-, hvalid, -, hcsr, hcsc⟩ := deliverFrame_hold cmd s
  rw [hvalid, hcsr, hcsc]
  exact frameValid_iff s

/-- Byte `j` of RXPAYLOAD after a delivery: the payload of the frame in RXWIRE, then 0x00 (40_codec.md R98). -/
theorem deliverFrame_rxPayload {s : State} (hm : memWf s.mem) (cmd : BitVec 4) {j : Nat} (hj : j < 64) :
    (deliverFrame cmd s).bufByte .rxPayload j
      = if j < s.rx.len.toNat then s.bufByte .rxWire (2 + j) else 0x00#8 := by
  rw [bufByte_eq_of_mem (deliverFrame_mem cmd s), extractPayload, bufByte_fillBuf_same hm _ _ (by exact hj)]
  exact rxFramePayload_getD s j

/-- Settles O20: every frame operation is the delivery of the frame in RXWIRE with its command. -/
theorem frameCommandDeliversFrame : Obligations.FrameCommandDeliversFrame := by
  intro i cmd s hcode hm
  obtain ⟨hready, hvalid, hlen, -, hcsc⟩ := deliverFrame_hold cmd s
  obtain ⟨hcmd, hhigh, hlow⟩ := deliverFrame_hold_bytes cmd s
  obtain ⟨hev, hemitted⟩ := deliverFrame_ev cmd s
  refine ⟨deliverFrame cmd s, exec_of_frameCode hcode s, hready, hcmd, ?_, hhigh, hlow, hcsc,
    deliverFrame_valid_iff cmd s, fun j hj => deliverFrame_rxPayload hm cmd hj, ?_, ?_, ?_⟩
  · rw [hlen, BitVec.setWidth_eq_extractLsb' (by omega)]
  · rw [hvalid, deliverFrame_host]
  · rw [hvalid, hev]
  · rw [hvalid, hemitted]
    rfl

/-! ### The cycles that dispatch -/

/-- A poll that delivers no frame leaves EV_DISPATCH alone (43_dispatch.md R132). -/
theorem rxPoll_ev_dispatch (line : Bool) (s : State) : (rxPoll line s).ev.dispatch = s.ev.dispatch := by
  rcases rxPoll_ev line s with ⟨hev, -⟩ | ⟨e, hev, -⟩ <;> rw [hev]

/-- A poll that delivers no frame writes no memory below RXWIRE (20_memory.md R56). -/
theorem memRead_rxPoll (line : Bool) (s : State) {a : Nat} (ha : a < 0x180) :
    memRead (rxPoll line s).mem a = memRead s.mem a := by
  rcases rxPoll_mem line s with hmem | hmem | ⟨-, hmem⟩ <;> rw [hmem]
  · exact memRead_fillBuf_out s .rxWire [] (.inl ha)
  · change memRead (s.setBufByte .rxWire s.rx.idx.toNat s.rx.byte).mem a = _
    rw [State.setBufByte]
    split
    · exact memRead_memWrite_ne _ (by simp only [Buffer.base]; omega) _
    · rfl

/-- The engines of a non-reset cycle after the host's access: the poll delivers the frame in RXWIRE, and EV_DISPATCH
is 1, or it delivers none, and EV_DISPATCH is 0 (20_memory.md R67; 43_dispatch.md R131, R132). -/
theorem step_dispatch_cases {s t : State} (h : step s = .next t) (hr : s.input.rst = false) :
    ∃ u, busPhase s.input.bus (beginCycle s) = .next u ∧
      ((t.ev.dispatch = true ∧
          ∃ cmd, t = endCycle s.input.rxd (deliverFrame cmd (clearEvents (txStep u)))) ∨
        (t.ev.dispatch = false ∧
          t = endCycle s.input.rxd (rxPoll (s.line s.input.rxd) (clearEvents (txStep u))))) := by
  obtain ⟨u, v, hbus, hrx, rfl⟩ := step_phases h hr
  refine ⟨u, hbus, ?_⟩
  rw [rxStep_eq] at hrx
  cases hrx
  split
  · obtain ⟨hev, -⟩ := deliverFrame_ev (headerCommand ((clearEvents (txStep u)).bufByte .rxWire 0))
      (clearEvents (txStep u))
    exact .inl ⟨by rw [endCycle_ev, hev], _, rfl⟩
  · exact .inr ⟨by rw [endCycle_ev, rxPoll_ev_dispatch, clearEvents_ev], rfl⟩

/-- Settles O36: of a cycle without a dispatch only the host's access reaches the holding registers, by RX_ACK, and
nothing reaches RXPAYLOAD. -/
theorem onlyDispatchWritesHoldingRegisters : Obligations.OnlyDispatchWritesHoldingRegisters := by
  intro s t h hr hnone
  obtain ⟨u, hbus, ⟨hdispatch, -⟩ | ⟨-, rfl⟩⟩ := step_dispatch_cases h hr
  · simp [hnone] at hdispatch
  · refine ⟨?_, fun a hlow hhigh => ?_⟩
    · rw [endCycle_hold, rxPoll_hold, clearEvents_hold, txStep_hold, busPhase_hold hbus, beginCycle_hold]
    · rw [endCycle_mem, memRead_rxPoll _ _ (by omega), clearEvents_mem, txStep_mem, busPhase_memRead hbus hlow,
        beginCycle_mem]

/-! ### The race of RX_ACK with a dispatch -/

/-- A write to 0x000 runs the command byte on `bus_wdata` (44_host_bus.md R147). -/
theorem busPhase_ctrl {w : BusWord} (hsel : w[18] = true) (hwrite : w[17] = true) (haddr : w.extractLsb' 8 9 = 0#9)
    (s : State) : busPhase w s = .next (ctrlWrite (w.extractLsb' 0 8) s) := by
  rcases busPhase_cases w s with ⟨hsel', -⟩ | ⟨-, hwrite', -⟩ | ⟨-, -, haddr', -⟩ | ⟨-, -, -, h⟩
  · simp [hsel] at hsel'
  · simp [hwrite] at hwrite'
  · exact absurd haddr haddr'
  · exact h

/-- ENCODE sets no error flag but TX_TOO_LARGE, bit 0 (40_codec.md R95). -/
theorem encodeFrame_errFlags_getLsbD (s : State) {k : Nat} (hk : k ≠ 0) :
    (encodeFrame s).host.errFlags.getLsbD k = s.host.errFlags.getLsbD k := by
  unfold encodeFrame
  split
  · rw [raiseFlag_errFlags, setErrBit_getLsbD, decide_eq_false (by exact hk), Bool.or_false]
  · rfl

/-- A command byte clears the receive flags by ERR_CLR and sets none of them (44_host_bus.md R147, R151). -/
theorem ctrlWrite_errFlags_getLsbD (v : Byte) (s : State) {k : Nat} (hk : k ≠ 0) :
    (ctrlWrite v s).host.errFlags.getLsbD k = if v[4] = true then false else s.host.errFlags.getLsbD k := by
  obtain ⟨u, hu, hrun⟩ := ctrlWrite_cases v s
  have hclear : u.host.errFlags.getLsbD k = if v[4] = true then false else s.host.errFlags.getLsbD k := by
    rw [hu]
    split <;> simp
  rw [← hclear]
  rcases hrun with h | ⟨-, h⟩ | ⟨-, -, h⟩ <;> rw [h]
  · exact encodeFrame_errFlags_getLsbD u hk
  · exact encodeFrame_errFlags_getLsbD u hk

/-- A delivery with no frame held records no overrun (43_dispatch.md R131). -/
theorem deliverFrame_no_overrun {s : State} (cmd : BitVec 4) (hready : s.hold.ready = false) :
    (deliverFrame cmd s).host.errFlags.getLsbD 7 = s.host.errFlags.getLsbD 7 := by
  rw [deliverFrame_host, hready]
  cases s.frameValid <;> simp

/-- Settles O55: the access comes before the poll, so the frame is delivered with no frame held. -/
theorem acknowledgeBeforeDispatchAvoidsOverrun : Obligations.AcknowledgeBeforeDispatchAvoidsOverrun := by
  intro s t h hr hsel hwrite haddr hack hdispatch
  obtain ⟨u, hbus, ⟨-, cmd, rfl⟩ | ⟨hnone, -⟩⟩ := step_dispatch_cases h hr
  · have hready : u.hold.ready = false := by rw [busPhase_hold hbus, if_pos ⟨hsel, hwrite, haddr, hack⟩]
    have hctrl : u = ctrlWrite (s.input.bus.extractLsb' 0 8) (beginCycle s) := by
      rw [busPhase_ctrl hsel hwrite haddr] at hbus
      cases hbus
      rfl
    have hclr : (s.input.bus.extractLsb' 0 8)[4] = s.input.bus[4] := by simp
    obtain ⟨hheld, -⟩ := deliverFrame_hold cmd (clearEvents (txStep u))
    have hflag : (deliverFrame cmd (clearEvents (txStep u))).host.errFlags.getLsbD 7
        = if s.input.bus[4] = true then false else s.host.errFlags.getLsbD 7 :=
      calc
        _ = u.host.errFlags.getLsbD 7 := deliverFrame_no_overrun (s := clearEvents (txStep u)) cmd hready
        _ = _ := by rw [hctrl, ctrlWrite_errFlags_getLsbD _ _ (by decide), hclr, beginCycle_host]
    exact ⟨hheld, hflag⟩
  · simp [hdispatch] at hnone

end Sys2Proof.Machine
end

section
/-! The host's writes (44_host_bus.md R146-R153): what a register write stores, what the clears of a command byte do, and
what TX_START and ENC_ONLY do on an idle and on a busy transmitter. -/

namespace Sys2Proof.Machine

/-! ### Register writes -/

/-- WR away from CTRL is the bus write (44_host_bus.md R146). -/
theorem exec_wr {a : Addr} (v : Byte) (s : State) (ha : a ≠ 0x000#9) : exec (.wr a v) s = .next (s.busWrite a v) :=
  congrArg Host.Outcome.next (if_neg ha)

/-- Everything a bus write does, register by register (44_host_bus.md R146). -/
theorem busWrite_eq (s : State) (a : Addr) (v : Byte) : s.busWrite a v = { s with
    host := { s.host with
      irqEn := if a = 0x003#9 then v.setWidth 3 else s.host.irqEn
      txCmd := if a = 0x004#9 then v.setWidth 4 else s.host.txCmd
      txLen := if a = 0x005#9 then v.setWidth 7 else s.host.txLen
      bitPer := if 0x008 ≤ a.toNat ∧ a.toNat < 0x00B then setByte s.host.bitPer (a.toNat - 0x008) v else s.host.bitPer
      quiet := if 0x00C ≤ a.toNat ∧ a.toNat < 0x010 then setByte s.host.quiet (a.toNat - 0x00C) v else s.host.quiet }
    mem := if 0x040 ≤ a.toNat ∧ a.toNat < 0x07F then memWrite s.mem a.toNat v else s.mem } := by
  rcases writeAddr_cases a with rfl | rfl | rfl | rfl | rfl | rfl | rfl | rfl | rfl | rfl | h | ⟨h, hnot⟩
  iterate 10 · rfl
  · rw [busWrite_of_ge s a v (.inl (by omega)), if_pos ((covers_iff _ _).2 h), if_neg (by bv_omega),
      if_neg (by bv_omega), if_neg (by bv_omega), if_neg (by omega), if_neg (by omega), if_pos h]
  · rw [busWrite_ignored s a v h hnot, if_neg (by bv_omega), if_neg (by bv_omega), if_neg (by bv_omega),
      if_neg (by omega), if_neg (by omega), if_neg hnot]

/-- Byte `k` of a register whose bytes stand from address `base` on, after a write at `n` (20_memory.md R59). -/
theorem extract_registerWrite {w : Nat} (r : BitVec w) (base size n k : Nat) (v : Byte) (hk : k < size)
    (hsize : 8 * size ≤ w) :
    (if base ≤ n ∧ n < base + size then setByte r (n - base) v else r).extractLsb' (8 * k) 8
      = if n = base + k then v else r.extractLsb' (8 * k) 8 := by
  by_cases hn : base ≤ n ∧ n < base + size
  · rw [if_pos hn, extract_setByte _ _ _ _ (by omega)]
    exact if_congr (by omega) rfl rfl
  · rw [if_neg hn, if_neg (by omega)]

/-- A byte of memory after a bus write (44_host_bus.md R146). -/
theorem memRead_busWrite {s : State} (hm : memWf s.mem) (a : Addr) (v : Byte) (b : Nat) :
    memRead (s.busWrite a v).mem b
      = if b = a.toNat ∧ 0x040 ≤ b ∧ b ≤ 0x07E then v else memRead s.mem b := by
  simp only [busWrite_eq]
  by_cases ha : 0x040 ≤ a.toNat ∧ a.toNat < 0x07F
  · rw [if_pos ha]
    by_cases hb : b = a.toNat
    · rw [if_pos (by omega), hb]
      exact memRead_memWrite_same hm.1 _ _
    · rw [if_neg (by omega)]
      exact memRead_memWrite_ne _ hb v
  · rw [if_neg ha, if_neg (by omega)]

/-- Settles O12: the frame of a bus write, then each register and the memory byte by byte. -/
theorem writeStoresItsRegisterOnly : Obligations.WriteStoresItsRegisterOnly := by
  intro s a v ha hm
  refine ⟨_, exec_wr v s ha, busWrite_now s a v, busWrite_tx s a v, busWrite_rx s a v, busWrite_hold s a v,
    busWrite_ev s a v, busWrite_syncLow s a v, busWrite_inputs s a v, busWrite_busRdata s a v, busWrite_emitted s a v,
    ?host, fun k hk => ?bitPer, fun k hk => ?quiet, memRead_busWrite hm a v⟩
  case host =>
    simp only [busWrite_eq, BitVec.setWidth_eq_extractLsb' (by omega : 3 ≤ 8),
      BitVec.setWidth_eq_extractLsb' (by omega : 4 ≤ 8), BitVec.setWidth_eq_extractLsb' (by omega : 7 ≤ 8)]
  case bitPer =>
    rw [busWrite_eq]
    exact extract_registerWrite s.host.bitPer 0x008 3 _ k v hk (by omega)
  case quiet =>
    rw [busWrite_eq]
    exact extract_registerWrite s.host.quiet 0x00C 4 _ k v hk (by omega)

/-! ### The clears of a command byte -/

/-- Settles O14: a command byte with no command bit stores RX_EN. -/
theorem receiverEnableStoresOneBit : Obligations.ReceiverEnableStoresOneBit := fun s =>
  ⟨congrArg Host.Outcome.next (ctrlWrite_clears true false false false s),
    congrArg Host.Outcome.next (ctrlWrite_clears false false false false s)⟩

/-- Settles O15: the three commands are the clears of their byte. -/
theorem clearCommandsClearTheirFlag : Obligations.ClearCommandsClearTheirFlag := fun s e c d =>
  ⟨congrArg Host.Outcome.next (ctrlWrite_clears e true c d s),
    congrArg Host.Outcome.next (ctrlWrite_clears e false true d s),
    congrArg Host.Outcome.next (ctrlWrite_clears e false false true s)⟩

/-! ### The encode commands -/

/-- TX_START and ENC_ONLY act on the state `u` after the clears of their byte (44_host_bus.md R147). -/
theorem exec_encodeCommands (s : State) (e o k c d : Bool) : ∃ u,
    u = { s with
      hold := { s.hold with ready := if k then false else s.hold.ready }
      host := { s.host with rxEn := e, errFlags := if c then 0x00#8 else s.host.errFlags }
      tx := { s.tx with done := if d then false else s.tx.done } } ∧
    exec (.txStart e o k c d) s = .next (txStart u) ∧ exec (.encOnly e k c d) s = .next (encOnly u) :=
  ⟨_, ctrlWrite_clears e k c d s, congrArg Host.Outcome.next (ctrlWrite_txStart e o k c d s),
    congrArg Host.Outcome.next (ctrlWrite_encOnly e k c d s)⟩

/-- Settles O19: both commands leave the state after the clears alone. -/
theorem busyTransmitterIgnoresEncodeCommands : Obligations.BusyTransmitterIgnoresEncodeCommands := by
  intro s e o k c d hbusy
  obtain ⟨u, hu, hstart, henc⟩ := exec_encodeCommands s e o k c d
  have hbusy' : u.tx.ph ≠ .txIdle := by rwa [hu]
  rw [hstart, henc, txStart_busy hbusy', encOnly_busy hbusy', hu]
  exact ⟨rfl, rfl⟩

/-- The transmitter at the start of the frame that ENCODE packed (41_transmitter.md R103). -/
theorem txBegin_encodeFrame_tx {u : State} (hm : memWf u.mem) (hf : u.encodeFails = false) :
    (txBegin (encodeFrame u)).tx = {
      ph := .start, idx := 0#7, bit := 0#3, ones := 0#10, n := u.host.txLen + 4#7
      p := effectivePeriod u.host.bitPer, dl := u.now + (effectivePeriod u.host.bitPer).setWidth 32
      txd := false, done := u.tx.done } := by
  simp only [txBegin, (encodeFrame_ok hm hf).1, encodeFrame_now, encodeFrame_tx]

/-- Settles O16: ENCODE after the clears of the byte, then the start of its frame. -/
theorem transmitStartEncodesAndBegins : Obligations.TransmitStartEncodesAndBegins := by
  intro s e o k c d hm hidle hlen
  obtain ⟨u, hu, hstart, -⟩ := exec_encodeCommands s e o k c d
  have hmu : memWf u.mem := by rwa [hu]
  have hok : u.encodeFails = false := (encodeFails_false_iff u).2 (by rwa [hu])
  rw [txStart_ok (by rwa [hu]) hok] at hstart
  have htx := txBegin_encodeFrame_tx hmu hok
  obtain ⟨hhost, hwire, -, -⟩ := encodeFrame_ok hmu hok
  have hout := fun a => memRead_encodeFrame_out u (a := a)
  subst hu
  exact ⟨_, hstart, htx, hhost, by rw [txBegin_hold, encodeFrame_hold], hwire, hout, by simp⟩

/-! ### The bytes of the wire frame -/

/-- Header byte 0 as a number: the command above the two low reserved bits (30_encoding.md R76). -/
theorem packCommand_toNat : ∀ c : BitVec 4, (packCommand c).toNat = 4 * c.toNat := by decide

/-- Header byte 1 as a number: the length above the low reserved bit (30_encoding.md R77). -/
theorem packLength_toNat : ∀ n : BitVec 7, (packLength n).toNat = 2 * n.toNat := by decide

/-- The checksum of a frame is its weight: no frame is long enough to wrap it (40_codec.md R93; 30_encoding.md R79). -/
theorem checksum_toNat {bs : List Byte} (h : bs.length ≤ 65) : (checksum bs).toNat = bitWeight bs := by
  have hw := bitWeight_le bs
  rw [checksum, BitVec.toNat_ofNat]
  omega

/-- A checksum as the number that its two bytes are, the high byte first (30_encoding.md R75). -/
theorem checksum_bytes_toNat (v : BitVec 16) :
    256 * (v.extractLsb' 8 8).toNat + (v.extractLsb' 0 8).toNat = v.toNat := by
  simp only [BitVec.extractLsb'_toNat, Nat.shiftRight_eq_div_pow]
  omega

section
variable {u : State} (hm : memWf u.mem) (hf : u.encodeFails = false)
include hm hf

/-- The payload bytes that ENCODE leaves in TXWIRE (40_codec.md R94). -/
theorem encodeFrame_payload {i : Nat} (hi : i < u.host.txLen.toNat) :
    (encodeFrame u).bufByte .txWire (2 + i) = u.bufByte .txPayload i := by
  rw [bufByte_encodeFrame hm hf, wireFrame_getD_payload _ _ _ (by rwa [txPayloadBytes_length hf]), txPayloadBytes_getD,
    if_pos hi]

/-- The checksum bytes that ENCODE leaves in TXWIRE are the weight of the bytes before them (40_codec.md R92-R94). -/
theorem encodeFrame_checksum :
    256 * ((encodeFrame u).bufByte .txWire (u.host.txLen.toNat + 2)).toNat
        + ((encodeFrame u).bufByte .txWire (u.host.txLen.toNat + 3)).toNat
      = bitWeight (((encodeFrame u).bufBytes .txWire).take (u.host.txLen.toNat + 2)) := by
  have hl := txPayloadBytes_length hf
  have hle := (encodeFails_false_iff u).1 hf
  have hbody : ((encodeFrame u).bufBytes .txWire).take (u.host.txLen.toNat + 2)
      = frameBody u.host.txCmd u.host.txLen u.txPayloadBytes := by
    rw [← wireFrame_take, ← take_encodeFrame hm hf, List.take_take, hl]
    congr 1
    omega
  have hsum := wireFrame_getD_checksum u.host.txCmd u.host.txLen u.txPayloadBytes
  rw [hl] at hsum
  rw [hbody, bufByte_encodeFrame hm hf, bufByte_encodeFrame hm hf, hsum 0, hsum 1,
    ← checksum_toNat (by rw [frameBody_length]; omega)]
  exact checksum_bytes_toNat _

/-- After the wire frame ENCODE leaves 0x00 in TXWIRE (40_codec.md R94). -/
theorem encodeFrame_rest {i : Nat} (hi : u.host.txLen.toNat + 4 ≤ i) :
    (encodeFrame u).bufByte .txWire i = 0x00#8 := by
  rw [bufByte_encodeFrame hm hf]
  exact List.getD_eq_default _ _ (by rwa [wireFrame_length, txPayloadBytes_length hf])

end

/-- Settles O17: ENCODE after the clears of the byte, and its wire frame byte by byte. -/
theorem encodeOnlyWritesWireFrame : Obligations.EncodeOnlyWritesWireFrame := by
  intro s e k c d hm hidle hlen
  obtain ⟨u, hu, -, henc⟩ := exec_encodeCommands s e false k c d
  have hmu : memWf u.mem := by rwa [hu]
  have hok : u.encodeFails = false := (encodeFails_false_iff u).2 (by rwa [hu])
  rw [encOnly_idle (by rwa [hu])] at henc
  have hcmd : ((encodeFrame u).bufByte .txWire 0).toNat = 4 * u.host.txCmd.toNat :=
    (congrArg _ (bufByte_encodeFrame hmu hok 0)).trans (packCommand_toNat _)
  have hlength : ((encodeFrame u).bufByte .txWire 1).toNat = 2 * u.host.txLen.toNat :=
    (congrArg _ (bufByte_encodeFrame hmu hok 1)).trans (packLength_toNat _)
  have hpayload := fun i => encodeFrame_payload hmu hok (i := i)
  have hsum := encodeFrame_checksum hmu hok
  have hrest := fun i => encodeFrame_rest hmu hok (i := i)
  have hhost := (encodeFrame_ok hmu hok).1
  have hout := fun a => memRead_encodeFrame_out u (a := a)
  subst hu
  exact ⟨_, henc, hcmd, hlength, hpayload, hsum, hrest, hhost, encodeFrame_hold _, encodeFrame_tx _, hout, by simp⟩

end Sys2Proof.Machine
end

section
/-! The exceptions (60_exceptions.md): the sync failures and the failed checksum, the return from Recovery, and the
`irq` output. -/

namespace Sys2Proof.Machine

/-! ### Taking a failure -/

/-- Settles O24: RxSync adds no flag to ERRFLAGS, every other failure its own. -/
theorem abortTakesSyncFailure : Obligations.AbortTakesSyncFailure := by
  intro s e
  cases e with
  | rxFraming => rfl
  | rxLength => rfl
  | rxTimeout => rfl
  | rxSync =>
    simp only [BitVec.or_zero]
    rfl

/-- The delivery of a frame whose checksum fails sets RX_CHECKSUM and enters Recovery; EV_SYNCERR stays as it is
(60_exceptions.md R158). -/
theorem deliverFrame_invalid {s : State} (hbad : s.frameValid = false) (cmd : BitVec 4) :
    (deliverFrame cmd s).rx
      = { s.rx with st := .recovery, idx := 0#7, bit := 0#4, qStart := s.now, q := s.host.quiet } ∧
    (deliverFrame cmd s).host.errFlags[6] = true ∧
    (deliverFrame cmd s).ev = { dispatch := true, valid := false, syncErr := s.ev.syncErr } := by
  obtain ⟨hev, -⟩ := deliverFrame_ev cmd s
  refine ⟨?_, ?_, by rw [hev, hbad]⟩
  · simp [deliverFrame_eq, hbad]
  · simp [deliverFrame_host, hbad]

/-- A delivery emits no SyncError (43_dispatch.md R131). -/
theorem syncError_mem_deliverFrame {cmd : BitVec 4} {s : State} {e : SyncFailure}
    (h : Event.syncError e ∈ (deliverFrame cmd s).emitted) : Event.syncError e ∈ s.emitted := by
  obtain ⟨-, hemitted⟩ := deliverFrame_ev cmd s
  simpa [hemitted] using h

/-- Settles O22: the poll delivers the frame, and the delivery of a frame that is not valid ends in Recovery. -/
theorem checksumFailureEntersRecoverySilently : Obligations.ChecksumFailureEntersRecoverySilently := by
  intro line s hacc hbad
  obtain ⟨hrx, hflag, hev⟩ := deliverFrame_invalid hbad (headerCommand (s.bufByte .rxWire 0))
  obtain ⟨-, hvalid, -⟩ := deliverFrame_hold (headerCommand (s.bufByte .rxWire 0)) s
  obtain ⟨hcmd, -⟩ := deliverFrame_hold_bytes (headerCommand (s.bufByte .rxWire 0)) s
  exact ⟨_, by rw [rxStep_eq, if_pos hacc], hrx, hvalid.trans hbad, hcmd, hflag, hev,
    fun _ => syncError_mem_deliverFrame⟩

/-! ### The return from Recovery -/

/-- The poll of an enabled receiver in Recovery is the quiescence wait (60_exceptions.md R160). -/
theorem rxPoll_recovery {line : Bool} {s : State} (hen : s.host.rxEn = true) (hst : s.rx.st = .recovery) :
    rxPoll line s = recoveryPoll line s := by
  simp [rxPoll, hen, hst]

/-- Settles O25: in Recovery no frame is accepted, and the poll is the quiescence wait. -/
theorem recoveryPollWaitsForQuiescence : Obligations.RecoveryPollWaitsForQuiescence := by
  intro s line hen hst
  simp only [rxStep_eq_rxPoll (show s.rx.st ≠ .verifyFinalStop by simp [hst]), rxPoll_recovery hen hst, recoveryPoll,
    BitVec.le_def]

/-! ### The interrupt output -/

/-- `irq` is 1 exactly where an enabled source is (60_exceptions.md R164). -/
theorem irq_iff (s : State) : s.irq = true ↔
    (s.host.irqEn[0] = true ∧ s.hold.ready = true) ∨ (s.host.irqEn[1] = true ∧ s.host.errFlags ≠ 0x00#8) ∨
    (s.host.irqEn[2] = true ∧ s.tx.done = true) := by
  simp only [State.irq, Bool.or_eq_true, Bool.and_eq_true, bne_iff_ne, or_assoc]

/-- Each clear of a command byte takes its own source out of `irq` and no other (60_exceptions.md R164; 44_host_bus.md
R150-R152). -/
theorem irq_ctrlWrite_clears (e k c d : Bool) (s : State) :
    (ctrlWrite (ctrlByte e false false k c d) s).irq = ((!k && (s.host.irqEn[0] && s.hold.ready))
      || (!c && (s.host.irqEn[1] && s.host.errFlags != 0x00#8)) || (!d && (s.host.irqEn[2] && s.tx.done))) := by
  have herrors : ((if c then 0x00#8 else s.host.errFlags) != 0x00#8) = (!c && s.host.errFlags != 0x00#8) := by
    cases c <;> simp
  simp [ctrlWrite_clears, State.irq, herrors, Bool.and_left_comm]

/-- Settles O40: the three commands are the clears of their byte. -/
theorem interruptIsLevelOfEnabledSources : Obligations.InterruptIsLevelOfEnabledSources := by
  refine ⟨irq_iff, rfl, fun s e => ⟨_, rfl, ?_⟩, fun s e => ⟨_, rfl, ?_⟩, fun s e => ⟨_, rfl, ?_⟩,
    fun s e => ⟨_, rfl, ?_⟩⟩
  all_goals simp [irq_ctrlWrite_clears]

end Sys2Proof.Machine
end
